-- ==== Sys2Proof/Word.lean ====
section
/-! DEFINITION. Word types: bytes, instruction words, register numbers, the two register widths, the two floating-point precisions. -/

namespace Sys2Proof

/-- One byte of memory (20_memory.md R31). -/
abbrev Byte := BitVec 8

/-- An instruction word: every instruction is 32 bits long (30_encoding.md R50). -/
abbrev InstrWord := BitVec 32

/-- A register-number field, 5 bits wide (30_encoding.md R51). -/
abbrev RegIdx := BitVec 5

/-- The container of a register of XLEN or FLEN bits. The register's value is its low XLEN (FLEN) bits; a narrower
value is kept zero-extended. DESIGN CHOICE, safe: notes/assumptions/2.md. -/
abbrev XWord := BitVec 64

/-- The parameter `XLEN` (00_scope.md R3). -/
inductive Xlen where
  /-- `XLEN` = 32, RV32I. -/
  | rv32
  /-- `XLEN` = 64, RV64I. -/
  | rv64
  deriving DecidableEq, Repr

/-- The number of bits of an integer register and of an address (10_state.md R10). -/
def Xlen.bits : Xlen → Nat
  | .rv32 => 32
  | .rv64 => 64

/-- The two precisions `F` of 46_rvfd_compute.md R180. -/
inductive Prec where
  /-- Single precision, `fmt` = 00. -/
  | s
  /-- Double precision, `fmt` = 01. -/
  | d
  deriving DecidableEq, Repr

/-- The width `w` of a precision (46_rvfd_compute.md R180). -/
def Prec.width : Prec → Nat
  | .s => 32
  | .d => 64

/-- The five rounding modes (46_rvfd_compute.md R181). -/
inductive RoundMode where
  /-- To nearest, ties to the value with an even last bit. -/
  | rne
  /-- Toward zero. -/
  | rtz
  /-- Down, toward minus infinity. -/
  | rdn
  /-- Up, toward plus infinity. -/
  | rup
  /-- To nearest, ties away from zero. -/
  | rmm
  deriving DecidableEq, Repr

end Sys2Proof
end

