-- ==== Sys2Proof/Config.lean ====
section
/-! DEFINITION. The implementation parameters of 00_scope.md R3 as plain data (a launch, 70_reset_and_hazards.md R261),
and the one launch that State.reset takes. -/

namespace Sys2Proof

/-- The parameters `HAS_F` and `HAS_D` together, since `HAS_D` implies `HAS_F` (00_scope.md R3). -/
inductive FpExt where
  /-- No floating point: `FLEN` = 0. -/
  | none
  /-- `HAS_F` only: `FLEN` = 32. -/
  | f
  /-- `HAS_F` and `HAS_D`: `FLEN` = 64. -/
  | fd
  deriving DecidableEq, Repr

/-- The parameter `MISALIGNED_DATA` (20_memory.md R35). -/
inductive Misaligned where
  /-- A misaligned data access faults (the spec's default). -/
  | fault
  /-- A misaligned data access is performed byte by byte. -/
  | split
  deriving DecidableEq, Repr

/-- The parameter `FNM_CONVENTION` (46_rvfd_compute.md R187, R188; 92_eei_decisions.md D20). -/
inductive FnmConvention where
  /-- `fnmsub` is `-(a*b) + c`, `fnmadd` is `-(a*b) - c` (the spec's recommended value). -/
  | ratified
  /-- The source's printed cells: `fnmsub` is `-(a*b + c)`, `fnmadd` is `-(a*b - c)`. -/
  | source
  deriving DecidableEq, Repr

/-- The byte addresses `base .. base + size - 1`. -/
structure Region where
  base : Nat
  size : Nat
  deriving DecidableEq, Repr

/-- Membership of a byte address in a region. -/
def Region.contains (r : Region) (a : Nat) : Bool := decide (r.base ≤ a) && decide (a < r.base + r.size)

/-- Membership of a byte address in a set of addresses given as a list of regions. -/
def inRegions (rs : List Region) (a : Nat) : Bool := rs.any (·.contains a)

/-- The parameter `MEM_MAP`: three sets of byte addresses (20_memory.md R38), each a finite union of intervals. -/
structure MemMap where
  read : List Region
  write : List Region
  exec : List Region
  deriving DecidableEq, Repr

/-- The parameters that select the hardware variant, and all that decoding depends on (30_encoding.md R64). -/
structure Variant where
  xlen : Xlen
  fp : FpExt
  deriving DecidableEq, Repr

/-- `HAS_F`. -/
def Variant.hasF (v : Variant) : Bool :=
  match v.fp with
  | .none => false
  | .f => true
  | .fd => true

/-- `HAS_D`. -/
def Variant.hasD (v : Variant) : Bool :=
  match v.fp with
  | .none => false
  | .f => false
  | .fd => true

/-- `FLEN`, the width of a floating-point register (00_scope.md R3). -/
def Variant.flen (v : Variant) : Nat :=
  match v.fp with
  | .none => 0
  | .f => 32
  | .fd => 64

/-- Whether the variant has the instructions of a precision (30_encoding.md R65). -/
def Variant.has (v : Variant) : Prec → Bool
  | .s => v.hasF
  | .d => v.hasD

/-- A launch's parameters (70_reset_and_hazards.md R261), less the memory image, which is the state's memory, and less
`FP`, whose recommended value is Machine/Float.lean (notes/assumptions/9.md). -/
structure Launch where
  variant : Variant
  memMap : MemMap
  misaligned : Misaligned
  resetPc : XWord
  endPc : XWord
  frmReset : BitVec 3
  fnm : FnmConvention
  deriving DecidableEq, Repr

/-- No address lies in both regions. -/
def Region.disjoint (r t : Region) : Bool :=
  decide (r.size = 0) || decide (t.size = 0) || decide (r.base + r.size ≤ t.base) || decide (t.base + t.size ≤ r.base)

/-- What R3, R260, R261 and R262 ask of a launch: `RESET_PC` and `END_PC` are XLEN-bit multiples of 4, the four bytes at
`RESET_PC` are in `EXEC`, `FRM_RESET` is 0 to 4, and `WRITE` and `EXEC` are disjoint. -/
def Launch.wf (l : Launch) : Bool :=
  decide (l.resetPc.toNat % 4 = 0) && decide (l.endPc.toNat % 4 = 0) &&
  decide (l.resetPc.toNat < 2 ^ l.variant.xlen.bits) && decide (l.endPc.toNat < 2 ^ l.variant.xlen.bits) &&
  (List.range 4).all (fun i => inRegions l.memMap.exec (l.resetPc.toNat + i)) &&
  decide (l.frmReset.toNat ≤ 4) &&
  l.memMap.write.all (fun r => l.memMap.exec.all (fun t => r.disjoint t))

/-- The launch that State.reset takes: `XLEN` = 64 with F and D, program text at 0x1000 .. 0x1fff, every address readable,
every address outside the text writable, the run ending at 0x2000, and the spec's default or recommended value of
`MISALIGNED_DATA`, `FRM_RESET` and `FNM_CONVENTION`. DESIGN CHOICE, unsafe: notes/assumptions/5.md. -/
def Launch.atReset : Launch where
  variant := { xlen := .rv64, fp := .fd }
  memMap :=
    { read := [{ base := 0, size := 2 ^ 64 }]
      write := [{ base := 0, size := 0x1000 }, { base := 0x2000, size := 2 ^ 64 - 0x2000 }]
      exec := [{ base := 0x1000, size := 0x1000 }] }
  misaligned := .fault
  resetPc := 0x1000#64
  endPc := 0x2000#64
  frmReset := 0#3
  fnm := .ratified

end Sys2Proof
end

