-- ==== Sys2Proof/Syntax.lean ====
section
/-! DEFINITION. The instructions: one constructor for each mnemonic of spec/opcode_table.json, in the table's order.
Operands are the fields of 30_encoding.md R51 to R60. `imm` is the signed 12-bit immediate; `upimm` the 20 upper bits;
`shamt` the shift amount; `offset` the byte offset of a branch (13 bits) or of `jal` (21 bits), whose bit 0 is not encoded
and must be 0 (R60; WellFormed.lean). -/

namespace Sys2Proof

/-- The `rm` field of a floating-point instruction: the six values of 30_encoding.md R62. -/
inductive RmField where
  | rne
  | rtz
  | rdn
  | rup
  | rmm
  /-- 7, "dynamic": the mode that `frm` holds. -/
  | dyn
  deriving DecidableEq, Repr

/-- The instruction set (30_encoding.md R63). -/
inductive Instr where
  /-- `lb`: load byte (R101). -/
  | lb (rd rs1 : RegIdx) (imm : BitVec 12)
  /-- `lh`: load half (R102). -/
  | lh (rd rs1 : RegIdx) (imm : BitVec 12)
  /-- `lw`: load word (R103). -/
  | lw (rd rs1 : RegIdx) (imm : BitVec 12)
  /-- `lbu`: load byte unsigned (R104). -/
  | lbu (rd rs1 : RegIdx) (imm : BitVec 12)
  /-- `lhu`: load half unsigned (R105). -/
  | lhu (rd rs1 : RegIdx) (imm : BitVec 12)
  /-- `addi`: add immediate (R110). -/
  | addi (rd rs1 : RegIdx) (imm : BitVec 12)
  /-- `slli`: shift left logical immediate (R111). -/
  | slli (rd rs1 : RegIdx) (shamt : BitVec 6)
  /-- `slti`: set less than immediate (R112). -/
  | slti (rd rs1 : RegIdx) (imm : BitVec 12)
  /-- `sltiu`: set less than immediate unsigned (R113). -/
  | sltiu (rd rs1 : RegIdx) (imm : BitVec 12)
  /-- `xori`: xor immediate (R114). -/
  | xori (rd rs1 : RegIdx) (imm : BitVec 12)
  /-- `srli`: shift right logical immediate (R115). -/
  | srli (rd rs1 : RegIdx) (shamt : BitVec 6)
  /-- `srai`: shift right arithmetic immediate (R116). -/
  | srai (rd rs1 : RegIdx) (shamt : BitVec 6)
  /-- `ori`: or immediate (R117). -/
  | ori (rd rs1 : RegIdx) (imm : BitVec 12)
  /-- `andi`: and immediate (R118). -/
  | andi (rd rs1 : RegIdx) (imm : BitVec 12)
  /-- `auipc`: add upper immediate to pc (R119). -/
  | auipc (rd : RegIdx) (upimm : BitVec 20)
  /-- `sb`: store byte (R121). -/
  | sb (rs2 rs1 : RegIdx) (imm : BitVec 12)
  /-- `sh`: store half (R122). -/
  | sh (rs2 rs1 : RegIdx) (imm : BitVec 12)
  /-- `sw`: store word (R123). -/
  | sw (rs2 rs1 : RegIdx) (imm : BitVec 12)
  /-- `add`: add (R130). -/
  | add (rd rs1 rs2 : RegIdx)
  /-- `sub`: subtract (R131). -/
  | sub (rd rs1 rs2 : RegIdx)
  /-- `sll`: shift left logical (R132). -/
  | sll (rd rs1 rs2 : RegIdx)
  /-- `slt`: set less than (R133). -/
  | slt (rd rs1 rs2 : RegIdx)
  /-- `sltu`: set less than unsigned (R134). -/
  | sltu (rd rs1 rs2 : RegIdx)
  /-- `xor`: xor (R135). -/
  | xor (rd rs1 rs2 : RegIdx)
  /-- `srl`: shift right logical (R136). -/
  | srl (rd rs1 rs2 : RegIdx)
  /-- `sra`: shift right arithmetic (R137). -/
  | sra (rd rs1 rs2 : RegIdx)
  /-- `or`: or (R138). -/
  | or (rd rs1 rs2 : RegIdx)
  /-- `and`: and (R139). -/
  | and (rd rs1 rs2 : RegIdx)
  /-- `lui`: load upper immediate (R140). -/
  | lui (rd : RegIdx) (upimm : BitVec 20)
  /-- `beq`: branch if equal (R151). -/
  | beq (rs1 rs2 : RegIdx) (offset : BitVec 13)
  /-- `bne`: branch if not equal (R152). -/
  | bne (rs1 rs2 : RegIdx) (offset : BitVec 13)
  /-- `blt`: branch if less than (R153). -/
  | blt (rs1 rs2 : RegIdx) (offset : BitVec 13)
  /-- `bge`: branch if greater or equal (R154). -/
  | bge (rs1 rs2 : RegIdx) (offset : BitVec 13)
  /-- `bltu`: branch if less than unsigned (R155). -/
  | bltu (rs1 rs2 : RegIdx) (offset : BitVec 13)
  /-- `bgeu`: branch if greater or equal unsigned (R156). -/
  | bgeu (rs1 rs2 : RegIdx) (offset : BitVec 13)
  /-- `jalr`: jump and link register (R157). -/
  | jalr (rd rs1 : RegIdx) (imm : BitVec 12)
  /-- `jal`: jump and link (R158). -/
  | jal (rd : RegIdx) (offset : BitVec 21)
  /-- `ld`: load double word (R161). -/
  | ld (rd rs1 : RegIdx) (imm : BitVec 12)
  /-- `lwu`: load word unsigned (R162). -/
  | lwu (rd rs1 : RegIdx) (imm : BitVec 12)
  /-- `addiw`: add immediate word (R163). -/
  | addiw (rd rs1 : RegIdx) (imm : BitVec 12)
  /-- `slliw`: shift left logical immediate word (R164). -/
  | slliw (rd rs1 : RegIdx) (shamt : BitVec 5)
  /-- `srliw`: shift right logical immediate word (R165). -/
  | srliw (rd rs1 : RegIdx) (shamt : BitVec 5)
  /-- `sraiw`: shift right arithmetic immediate word (R166). -/
  | sraiw (rd rs1 : RegIdx) (shamt : BitVec 5)
  /-- `sd`: store double word (R167). -/
  | sd (rs2 rs1 : RegIdx) (imm : BitVec 12)
  /-- `addw`: add word (R168). -/
  | addw (rd rs1 rs2 : RegIdx)
  /-- `subw`: subtract word (R169). -/
  | subw (rd rs1 rs2 : RegIdx)
  /-- `sllw`: shift left logical word (R170). -/
  | sllw (rd rs1 rs2 : RegIdx)
  /-- `srlw`: shift right logical word (R171). -/
  | srlw (rd rs1 rs2 : RegIdx)
  /-- `sraw`: shift right arithmetic word (R172). -/
  | sraw (rd rs1 rs2 : RegIdx)
  /-- `fmadd.s`: multiply-add, single precision (R185). -/
  | fmaddS (fd fs1 fs2 fs3 : RegIdx) (rm : RmField)
  /-- `fmadd.d`: multiply-add, double precision (R185). -/
  | fmaddD (fd fs1 fs2 fs3 : RegIdx) (rm : RmField)
  /-- `fmsub.s`: multiply-subtract, single precision (R186). -/
  | fmsubS (fd fs1 fs2 fs3 : RegIdx) (rm : RmField)
  /-- `fmsub.d`: multiply-subtract, double precision (R186). -/
  | fmsubD (fd fs1 fs2 fs3 : RegIdx) (rm : RmField)
  /-- `fnmsub.s`: negate multiply-add, single precision (R187). -/
  | fnmsubS (fd fs1 fs2 fs3 : RegIdx) (rm : RmField)
  /-- `fnmsub.d`: negate multiply-add, double precision (R187). -/
  | fnmsubD (fd fs1 fs2 fs3 : RegIdx) (rm : RmField)
  /-- `fnmadd.s`: negate multiply-subtract, single precision (R188). -/
  | fnmaddS (fd fs1 fs2 fs3 : RegIdx) (rm : RmField)
  /-- `fnmadd.d`: negate multiply-subtract, double precision (R188). -/
  | fnmaddD (fd fs1 fs2 fs3 : RegIdx) (rm : RmField)
  /-- `fadd.s`: add, single precision (R189). -/
  | faddS (fd fs1 fs2 : RegIdx) (rm : RmField)
  /-- `fadd.d`: add, double precision (R189). -/
  | faddD (fd fs1 fs2 : RegIdx) (rm : RmField)
  /-- `fsub.s`: subtract, single precision (R190). -/
  | fsubS (fd fs1 fs2 : RegIdx) (rm : RmField)
  /-- `fsub.d`: subtract, double precision (R190). -/
  | fsubD (fd fs1 fs2 : RegIdx) (rm : RmField)
  /-- `fmul.s`: multiply, single precision (R191). -/
  | fmulS (fd fs1 fs2 : RegIdx) (rm : RmField)
  /-- `fmul.d`: multiply, double precision (R191). -/
  | fmulD (fd fs1 fs2 : RegIdx) (rm : RmField)
  /-- `fdiv.s`: divide, single precision (R192). -/
  | fdivS (fd fs1 fs2 : RegIdx) (rm : RmField)
  /-- `fdiv.d`: divide, double precision (R192). -/
  | fdivD (fd fs1 fs2 : RegIdx) (rm : RmField)
  /-- `fsqrt.s`: square root, single precision (R193). -/
  | fsqrtS (fd fs1 : RegIdx) (rm : RmField)
  /-- `fsqrt.d`: square root, double precision (R193). -/
  | fsqrtD (fd fs1 : RegIdx) (rm : RmField)
  /-- `fsgnj.s`: sign injection, single precision (R194). -/
  | fsgnjS (fd fs1 fs2 : RegIdx)
  /-- `fsgnj.d`: sign injection, double precision (R194). -/
  | fsgnjD (fd fs1 fs2 : RegIdx)
  /-- `fsgnjn.s`: negate sign injection, single precision (R195). -/
  | fsgnjnS (fd fs1 fs2 : RegIdx)
  /-- `fsgnjn.d`: negate sign injection, double precision (R195). -/
  | fsgnjnD (fd fs1 fs2 : RegIdx)
  /-- `fsgnjx.s`: xor sign injection, single precision (R196). -/
  | fsgnjxS (fd fs1 fs2 : RegIdx)
  /-- `fsgnjx.d`: xor sign injection, double precision (R196). -/
  | fsgnjxD (fd fs1 fs2 : RegIdx)
  /-- `fmin.s`: minimum, single precision (R197). -/
  | fminS (fd fs1 fs2 : RegIdx)
  /-- `fmin.d`: minimum, double precision (R197). -/
  | fminD (fd fs1 fs2 : RegIdx)
  /-- `fmax.s`: maximum, single precision (R198). -/
  | fmaxS (fd fs1 fs2 : RegIdx)
  /-- `fmax.d`: maximum, double precision (R198). -/
  | fmaxD (fd fs1 fs2 : RegIdx)
  /-- `feq.s`: compare equal, single precision (R199). -/
  | feqS (rd fs1 fs2 : RegIdx)
  /-- `feq.d`: compare equal, double precision (R199). -/
  | feqD (rd fs1 fs2 : RegIdx)
  /-- `flt.s`: compare less, single precision (R200). -/
  | fltS (rd fs1 fs2 : RegIdx)
  /-- `flt.d`: compare less, double precision (R200). -/
  | fltD (rd fs1 fs2 : RegIdx)
  /-- `fle.s`: compare less or equal, single precision (R201). -/
  | fleS (rd fs1 fs2 : RegIdx)
  /-- `fle.d`: compare less or equal, double precision (R201). -/
  | fleD (rd fs1 fs2 : RegIdx)
  /-- `fclass.s`: classify, single precision (R202). -/
  | fclassS (rd fs1 : RegIdx)
  /-- `fclass.d`: classify, double precision (R202). -/
  | fclassD (rd fs1 : RegIdx)
  /-- `flw`: load float (R210). -/
  | flw (fd rs1 : RegIdx) (imm : BitVec 12)
  /-- `fsw`: store float (R211). -/
  | fsw (fs2 rs1 : RegIdx) (imm : BitVec 12)
  /-- `fcvt.w.s`: convert single to signed integer (R212). -/
  | fcvtWS (rd fs1 : RegIdx) (rm : RmField)
  /-- `fcvt.wu.s`: convert single to unsigned integer (R213). -/
  | fcvtWuS (rd fs1 : RegIdx) (rm : RmField)
  /-- `fcvt.s.w`: convert signed integer to single (R214). -/
  | fcvtSW (fd rs1 : RegIdx) (rm : RmField)
  /-- `fcvt.s.wu`: convert unsigned integer to single (R215). -/
  | fcvtSWu (fd rs1 : RegIdx) (rm : RmField)
  /-- `fmv.x.w`: move bits to an integer register (R216). -/
  | fmvXW (rd fs1 : RegIdx)
  /-- `fmv.w.x`: move bits to a floating-point register (R217). -/
  | fmvWX (fd rs1 : RegIdx)
  /-- `fld`: load double (R220). -/
  | fld (fd rs1 : RegIdx) (imm : BitVec 12)
  /-- `fsd`: store double (R221). -/
  | fsd (fs2 rs1 : RegIdx) (imm : BitVec 12)
  /-- `fcvt.w.d`: convert double to signed integer (R222). -/
  | fcvtWD (rd fs1 : RegIdx) (rm : RmField)
  /-- `fcvt.wu.d`: convert double to unsigned integer (R223). -/
  | fcvtWuD (rd fs1 : RegIdx) (rm : RmField)
  /-- `fcvt.d.w`: convert signed integer to double (R224). -/
  | fcvtDW (fd rs1 : RegIdx) (rm : RmField)
  /-- `fcvt.d.wu`: convert unsigned integer to double (R225). -/
  | fcvtDWu (fd rs1 : RegIdx) (rm : RmField)
  /-- `fcvt.s.d`: convert double to single (R226). -/
  | fcvtSD (fd fs1 : RegIdx) (rm : RmField)
  /-- `fcvt.d.s`: convert single to double (R227). -/
  | fcvtDS (fd fs1 : RegIdx) (rm : RmField)
  deriving DecidableEq, Repr

end Sys2Proof
end

