-- ==== Sys2Proof/WellFormed.lean ====
section
/-! DEFINITION. When a term of Instr is an instruction of a variant: its row is available there (30_encoding.md R65), its
shift amount fits the width (R59, R67) and its offset is even (R60). Every other operand value is encodable by its type. -/

namespace Sys2Proof

/-- An RV32 immediate shift amount has 5 bits, an RV64 one 6 (30_encoding.md R59, R67). -/
def shamtOk (v : Variant) (shamt : BitVec 6) : Bool :=
  match v.xlen with
  | .rv32 => decide (shamt.toNat < 32)
  | .rv64 => true

/-- `XLEN` = 64, needed by the rows of Table B.2 (30_encoding.md R65). -/
def Variant.is64 (v : Variant) : Bool :=
  match v.xlen with
  | .rv32 => false
  | .rv64 => true

/-- An offset whose bit 0, which is not encoded, is 0 (30_encoding.md R60). -/
def evenOffset {n : Nat} (o : BitVec n) : Bool := !o.getLsbD 0

/-- The instruction exists on the variant and every operand is one its encoding admits. -/
def Instr.wellFormed (v : Variant) : Instr → Bool
  -- Table B.1, on every variant
  | .lb .. | .lh .. | .lw .. | .lbu .. | .lhu .. => true
  | .addi .. | .slti .. | .sltiu .. | .xori .. | .ori .. | .andi .. | .auipc .. => true
  | .slli _ _ shamt | .srli _ _ shamt | .srai _ _ shamt => shamtOk v shamt
  | .sb .. | .sh .. | .sw .. => true
  | .add .. | .sub .. | .sll .. | .slt .. | .sltu .. | .xor .. | .srl .. | .sra .. | .or .. | .and .. | .lui .. => true
  | .beq _ _ offset | .bne _ _ offset | .blt _ _ offset | .bge _ _ offset | .bltu _ _ offset | .bgeu _ _ offset =>
    evenOffset offset
  | .jalr .. => true
  | .jal _ offset => evenOffset offset
  -- Table B.2
  | .ld .. | .lwu .. | .addiw .. | .slliw .. | .srliw .. | .sraiw .. | .sd .. => v.is64
  | .addw .. | .subw .. | .sllw .. | .srlw .. | .sraw .. => v.is64
  -- Table B.3, single precision
  | .fmaddS .. | .fmsubS .. | .fnmsubS .. | .fnmaddS .. => v.hasF
  | .faddS .. | .fsubS .. | .fmulS .. | .fdivS .. | .fsqrtS .. => v.hasF
  | .fsgnjS .. | .fsgnjnS .. | .fsgnjxS .. | .fminS .. | .fmaxS .. => v.hasF
  | .feqS .. | .fltS .. | .fleS .. | .fclassS .. => v.hasF
  | .flw .. | .fsw .. | .fcvtWS .. | .fcvtWuS .. | .fcvtSW .. | .fcvtSWu .. | .fmvXW .. | .fmvWX .. => v.hasF
  -- Table B.3, double precision
  | .fmaddD .. | .fmsubD .. | .fnmsubD .. | .fnmaddD .. => v.hasD
  | .faddD .. | .fsubD .. | .fmulD .. | .fdivD .. | .fsqrtD .. => v.hasD
  | .fsgnjD .. | .fsgnjnD .. | .fsgnjxD .. | .fminD .. | .fmaxD .. => v.hasD
  | .feqD .. | .fltD .. | .fleD .. | .fclassD .. => v.hasD
  | .fld .. | .fsd .. | .fcvtWD .. | .fcvtWuD .. | .fcvtDW .. | .fcvtDWu .. | .fcvtSD .. | .fcvtDS .. => v.hasD

end Sys2Proof
end

