-- ==== Sys2Proof/Decode.lean ====
section
/-! DEFINITION. The decoder and the encoder (30_encoding.md), and the byte order of a value in memory (20_memory.md R32),
which fetch, loads and stores share. -/

namespace Sys2Proof

/-! ## Byte order (20_memory.md R32) -/

/-- The `n` low-order bytes of a value, least significant first. -/
def leBytes : Nat → Nat → List Byte
  | 0, _ => []
  | n + 1, v => BitVec.ofNat 8 v :: leBytes n (v / 256)

/-- The value whose bytes, least significant first, are given. -/
def leNat : List Byte → Nat
  | [] => 0
  | b :: bs => b.toNat + 256 * leNat bs

/-! ## Fields (30_encoding.md R51 to R62) -/

/-- `op`, bits 6:0. -/
def opOf (w : InstrWord) : BitVec 7 := w.extractLsb' 0 7
/-- `rd` (or `fd`), bits 11:7. -/
def rdOf (w : InstrWord) : RegIdx := w.extractLsb' 7 5
/-- `funct3`, bits 14:12. -/
def funct3Of (w : InstrWord) : BitVec 3 := w.extractLsb' 12 3
/-- `rs1` (or `fs1`), bits 19:15. -/
def rs1Of (w : InstrWord) : RegIdx := w.extractLsb' 15 5
/-- `rs2` (or `fs2`), bits 24:20. -/
def rs2Of (w : InstrWord) : RegIdx := w.extractLsb' 20 5
/-- `funct7`, bits 31:25. -/
def funct7Of (w : InstrWord) : BitVec 7 := w.extractLsb' 25 7
/-- `funct2`, the `fmt` of an R4-type word, bits 26:25. -/
def funct2Of (w : InstrWord) : BitVec 2 := w.extractLsb' 25 2
/-- `fs3`, bits 31:27. -/
def rs3Of (w : InstrWord) : RegIdx := w.extractLsb' 27 5
/-- The 6-bit function code of an immediate shift of the full register, bits 31:26 (R59). -/
def funct6Of (w : InstrWord) : BitVec 6 := w.extractLsb' 26 6
/-- The 6-bit shift amount, bits 25:20 (R59). -/
def shamtOf (w : InstrWord) : BitVec 6 := w.extractLsb' 20 6
/-- `immI`, bits 31:20 (R53, R60). -/
def immIOf (w : InstrWord) : BitVec 12 := w.extractLsb' 20 12
/-- `immS`, bits 31:25 and 11:7 (R54, R60). -/
def immSOf (w : InstrWord) : BitVec 12 := w.extractLsb' 25 7 ++ w.extractLsb' 7 5
/-- `immB`, bits 31, 7, 30:25, 11:8 and a zero (R55, R60). -/
def immBOf (w : InstrWord) : BitVec 13 :=
  w.extractLsb' 31 1 ++ w.extractLsb' 7 1 ++ w.extractLsb' 25 6 ++ w.extractLsb' 8 4 ++ 0#1
/-- `upimm`, bits 31:12 (R56). -/
def upimmOf (w : InstrWord) : BitVec 20 := w.extractLsb' 12 20
/-- `immJ`, bits 31, 19:12, 20, 30:21 and a zero (R57, R60). -/
def immJOf (w : InstrWord) : BitVec 21 :=
  w.extractLsb' 31 1 ++ w.extractLsb' 12 8 ++ w.extractLsb' 20 1 ++ w.extractLsb' 21 10 ++ 0#1

/-- The value of an `rm` field (30_encoding.md R62; 5 and 6 are not in the list, R67). -/
def RmField.ofBits : BitVec 3 → Option RmField
  | 0b000#3 => some .rne
  | 0b001#3 => some .rtz
  | 0b010#3 => some .rdn
  | 0b011#3 => some .rup
  | 0b100#3 => some .rmm
  | 0b111#3 => some .dyn
  | _ => none

/-- The bits of an `rm` field (30_encoding.md R62). -/
def RmField.toBits : RmField → BitVec 3
  | .rne => 0b000#3
  | .rtz => 0b001#3
  | .rdn => 0b010#3
  | .rup => 0b011#3
  | .rmm => 0b100#3
  | .dyn => 0b111#3

/-! ## Decoding (30_encoding.md R63 to R67)

`decodeRow` finds the row of R63 that a word's fixed bits select, on a variant that has every row, and extracts its
operands; `decode` then asks that the row is available on the variant, which `Instr.wellFormed` says. -/

/-- `op` 0000011: integer loads. -/
def decodeLoad (w : InstrWord) : Option Instr :=
  match funct3Of w with
  | 0b000#3 => some (.lb (rdOf w) (rs1Of w) (immIOf w))
  | 0b001#3 => some (.lh (rdOf w) (rs1Of w) (immIOf w))
  | 0b010#3 => some (.lw (rdOf w) (rs1Of w) (immIOf w))
  | 0b011#3 => some (.ld (rdOf w) (rs1Of w) (immIOf w))
  | 0b100#3 => some (.lbu (rdOf w) (rs1Of w) (immIOf w))
  | 0b101#3 => some (.lhu (rdOf w) (rs1Of w) (immIOf w))
  | 0b110#3 => some (.lwu (rdOf w) (rs1Of w) (immIOf w))
  | _ => none

/-- `op` 0000111: floating-point loads. -/
def decodeFpLoad (w : InstrWord) : Option Instr :=
  match funct3Of w with
  | 0b010#3 => some (.flw (rdOf w) (rs1Of w) (immIOf w))
  | 0b011#3 => some (.fld (rdOf w) (rs1Of w) (immIOf w))
  | _ => none

/-- `op` 0010011: integer register-immediate. -/
def decodeOpImm (w : InstrWord) : Option Instr :=
  match funct3Of w with
  | 0b000#3 => some (.addi (rdOf w) (rs1Of w) (immIOf w))
  | 0b001#3 =>
    match funct6Of w with
    | 0b000000#6 => some (.slli (rdOf w) (rs1Of w) (shamtOf w))
    | _ => none
  | 0b010#3 => some (.slti (rdOf w) (rs1Of w) (immIOf w))
  | 0b011#3 => some (.sltiu (rdOf w) (rs1Of w) (immIOf w))
  | 0b100#3 => some (.xori (rdOf w) (rs1Of w) (immIOf w))
  | 0b101#3 =>
    match funct6Of w with
    | 0b000000#6 => some (.srli (rdOf w) (rs1Of w) (shamtOf w))
    | 0b010000#6 => some (.srai (rdOf w) (rs1Of w) (shamtOf w))
    | _ => none
  | 0b110#3 => some (.ori (rdOf w) (rs1Of w) (immIOf w))
  | 0b111#3 => some (.andi (rdOf w) (rs1Of w) (immIOf w))
  | _ => none

/-- `op` 0011011: word register-immediate. -/
def decodeOpImm32 (w : InstrWord) : Option Instr :=
  match funct3Of w with
  | 0b000#3 => some (.addiw (rdOf w) (rs1Of w) (immIOf w))
  | 0b001#3 =>
    match funct7Of w with
    | 0b0000000#7 => some (.slliw (rdOf w) (rs1Of w) (rs2Of w))
    | _ => none
  | 0b101#3 =>
    match funct7Of w with
    | 0b0000000#7 => some (.srliw (rdOf w) (rs1Of w) (rs2Of w))
    | 0b0100000#7 => some (.sraiw (rdOf w) (rs1Of w) (rs2Of w))
    | _ => none
  | _ => none

/-- `op` 0100011: integer stores. -/
def decodeStore (w : InstrWord) : Option Instr :=
  match funct3Of w with
  | 0b000#3 => some (.sb (rs2Of w) (rs1Of w) (immSOf w))
  | 0b001#3 => some (.sh (rs2Of w) (rs1Of w) (immSOf w))
  | 0b010#3 => some (.sw (rs2Of w) (rs1Of w) (immSOf w))
  | 0b011#3 => some (.sd (rs2Of w) (rs1Of w) (immSOf w))
  | _ => none

/-- `op` 0100111: floating-point stores. -/
def decodeFpStore (w : InstrWord) : Option Instr :=
  match funct3Of w with
  | 0b010#3 => some (.fsw (rs2Of w) (rs1Of w) (immSOf w))
  | 0b011#3 => some (.fsd (rs2Of w) (rs1Of w) (immSOf w))
  | _ => none

/-- `op` 0110011: integer register-register. -/
def decodeOp (w : InstrWord) : Option Instr :=
  match funct7Of w with
  | 0b0000000#7 =>
    match funct3Of w with
    | 0b000#3 => some (.add (rdOf w) (rs1Of w) (rs2Of w))
    | 0b001#3 => some (.sll (rdOf w) (rs1Of w) (rs2Of w))
    | 0b010#3 => some (.slt (rdOf w) (rs1Of w) (rs2Of w))
    | 0b011#3 => some (.sltu (rdOf w) (rs1Of w) (rs2Of w))
    | 0b100#3 => some (.xor (rdOf w) (rs1Of w) (rs2Of w))
    | 0b101#3 => some (.srl (rdOf w) (rs1Of w) (rs2Of w))
    | 0b110#3 => some (.or (rdOf w) (rs1Of w) (rs2Of w))
    | 0b111#3 => some (.and (rdOf w) (rs1Of w) (rs2Of w))
    | _ => none
  | 0b0100000#7 =>
    match funct3Of w with
    | 0b000#3 => some (.sub (rdOf w) (rs1Of w) (rs2Of w))
    | 0b101#3 => some (.sra (rdOf w) (rs1Of w) (rs2Of w))
    | _ => none
  | _ => none

/-- `op` 0111011: word register-register. -/
def decodeOp32 (w : InstrWord) : Option Instr :=
  match funct7Of w with
  | 0b0000000#7 =>
    match funct3Of w with
    | 0b000#3 => some (.addw (rdOf w) (rs1Of w) (rs2Of w))
    | 0b001#3 => some (.sllw (rdOf w) (rs1Of w) (rs2Of w))
    | 0b101#3 => some (.srlw (rdOf w) (rs1Of w) (rs2Of w))
    | _ => none
  | 0b0100000#7 =>
    match funct3Of w with
    | 0b000#3 => some (.subw (rdOf w) (rs1Of w) (rs2Of w))
    | 0b101#3 => some (.sraw (rdOf w) (rs1Of w) (rs2Of w))
    | _ => none
  | _ => none

/-- `op` 1100011: conditional branches. -/
def decodeBranch (w : InstrWord) : Option Instr :=
  match funct3Of w with
  | 0b000#3 => some (.beq (rs1Of w) (rs2Of w) (immBOf w))
  | 0b001#3 => some (.bne (rs1Of w) (rs2Of w) (immBOf w))
  | 0b100#3 => some (.blt (rs1Of w) (rs2Of w) (immBOf w))
  | 0b101#3 => some (.bge (rs1Of w) (rs2Of w) (immBOf w))
  | 0b110#3 => some (.bltu (rs1Of w) (rs2Of w) (immBOf w))
  | 0b111#3 => some (.bgeu (rs1Of w) (rs2Of w) (immBOf w))
  | _ => none

/-- `op` 1100111: `jalr`. -/
def decodeJalr (w : InstrWord) : Option Instr :=
  match funct3Of w with
  | 0b000#3 => some (.jalr (rdOf w) (rs1Of w) (immIOf w))
  | _ => none

/-- The four R4-type opcodes: `fmt` selects the single or the double form, `funct3` is `rm` (R58, R61, R62). -/
def decodeFma (w : InstrWord) (single double : RegIdx → RegIdx → RegIdx → RegIdx → RmField → Instr) : Option Instr :=
  match RmField.ofBits (funct3Of w) with
  | none => none
  | some rm =>
    match funct2Of w with
    | 0b00#2 => some (single (rdOf w) (rs1Of w) (rs2Of w) (rs3Of w) rm)
    | 0b01#2 => some (double (rdOf w) (rs1Of w) (rs2Of w) (rs3Of w) rm)
    | _ => none

/-- A row of `op` 1010011 whose funct3 cell is `rm` (R62). -/
def withRm (w : InstrWord) (row : RmField → Instr) : Option Instr :=
  match RmField.ofBits (funct3Of w) with
  | none => none
  | some rm => some (row rm)

/-- `op` 1010011, funct7 0010000 or 0010001: sign injection. -/
def decodeSgnj (w : InstrWord) (j n x : RegIdx → RegIdx → RegIdx → Instr) : Option Instr :=
  match funct3Of w with
  | 0b000#3 => some (j (rdOf w) (rs1Of w) (rs2Of w))
  | 0b001#3 => some (n (rdOf w) (rs1Of w) (rs2Of w))
  | 0b010#3 => some (x (rdOf w) (rs1Of w) (rs2Of w))
  | _ => none

/-- `op` 1010011, funct7 0010100 or 0010101: minimum and maximum. -/
def decodeMinMax (w : InstrWord) (mn mx : RegIdx → RegIdx → RegIdx → Instr) : Option Instr :=
  match funct3Of w with
  | 0b000#3 => some (mn (rdOf w) (rs1Of w) (rs2Of w))
  | 0b001#3 => some (mx (rdOf w) (rs1Of w) (rs2Of w))
  | _ => none

/-- `op` 1010011, funct7 1010000 or 1010001: comparisons. -/
def decodeCompare (w : InstrWord) (le lt eq : RegIdx → RegIdx → RegIdx → Instr) : Option Instr :=
  match funct3Of w with
  | 0b000#3 => some (le (rdOf w) (rs1Of w) (rs2Of w))
  | 0b001#3 => some (lt (rdOf w) (rs1Of w) (rs2Of w))
  | 0b010#3 => some (eq (rdOf w) (rs1Of w) (rs2Of w))
  | _ => none

/-- `op` 1010011: all other floating-point operations, by funct7 (a 5-bit function code and `fmt`, R52, R61). -/
def decodeFp (w : InstrWord) : Option Instr :=
  match funct7Of w with
  | 0b0000000#7 => withRm w (.faddS (rdOf w) (rs1Of w) (rs2Of w))
  | 0b0000001#7 => withRm w (.faddD (rdOf w) (rs1Of w) (rs2Of w))
  | 0b0000100#7 => withRm w (.fsubS (rdOf w) (rs1Of w) (rs2Of w))
  | 0b0000101#7 => withRm w (.fsubD (rdOf w) (rs1Of w) (rs2Of w))
  | 0b0001000#7 => withRm w (.fmulS (rdOf w) (rs1Of w) (rs2Of w))
  | 0b0001001#7 => withRm w (.fmulD (rdOf w) (rs1Of w) (rs2Of w))
  | 0b0001100#7 => withRm w (.fdivS (rdOf w) (rs1Of w) (rs2Of w))
  | 0b0001101#7 => withRm w (.fdivD (rdOf w) (rs1Of w) (rs2Of w))
  | 0b0101100#7 =>
    match rs2Of w with
    | 0b00000#5 => withRm w (.fsqrtS (rdOf w) (rs1Of w))
    | _ => none
  | 0b0101101#7 =>
    match rs2Of w with
    | 0b00000#5 => withRm w (.fsqrtD (rdOf w) (rs1Of w))
    | _ => none
  | 0b0010000#7 => decodeSgnj w .fsgnjS .fsgnjnS .fsgnjxS
  | 0b0010001#7 => decodeSgnj w .fsgnjD .fsgnjnD .fsgnjxD
  | 0b0010100#7 => decodeMinMax w .fminS .fmaxS
  | 0b0010101#7 => decodeMinMax w .fminD .fmaxD
  | 0b1010000#7 => decodeCompare w .fleS .fltS .feqS
  | 0b1010001#7 => decodeCompare w .fleD .fltD .feqD
  | 0b0100000#7 =>
    match rs2Of w with
    | 0b00001#5 => withRm w (.fcvtSD (rdOf w) (rs1Of w))
    | _ => none
  | 0b0100001#7 =>
    match rs2Of w with
    | 0b00000#5 => withRm w (.fcvtDS (rdOf w) (rs1Of w))
    | _ => none
  | 0b1100000#7 =>
    match rs2Of w with
    | 0b00000#5 => withRm w (.fcvtWS (rdOf w) (rs1Of w))
    | 0b00001#5 => withRm w (.fcvtWuS (rdOf w) (rs1Of w))
    | _ => none
  | 0b1100001#7 =>
    match rs2Of w with
    | 0b00000#5 => withRm w (.fcvtWD (rdOf w) (rs1Of w))
    | 0b00001#5 => withRm w (.fcvtWuD (rdOf w) (rs1Of w))
    | _ => none
  | 0b1101000#7 =>
    match rs2Of w with
    | 0b00000#5 => withRm w (.fcvtSW (rdOf w) (rs1Of w))
    | 0b00001#5 => withRm w (.fcvtSWu (rdOf w) (rs1Of w))
    | _ => none
  | 0b1101001#7 =>
    match rs2Of w with
    | 0b00000#5 => withRm w (.fcvtDW (rdOf w) (rs1Of w))
    | 0b00001#5 => withRm w (.fcvtDWu (rdOf w) (rs1Of w))
    | _ => none
  | 0b1110000#7 =>
    match rs2Of w with
    | 0b00000#5 =>
      match funct3Of w with
      | 0b000#3 => some (.fmvXW (rdOf w) (rs1Of w))
      | 0b001#3 => some (.fclassS (rdOf w) (rs1Of w))
      | _ => none
    | _ => none
  | 0b1110001#7 =>
    match rs2Of w with
    | 0b00000#5 =>
      match funct3Of w with
      | 0b001#3 => some (.fclassD (rdOf w) (rs1Of w))
      | _ => none
    | _ => none
  | 0b1111000#7 =>
    match rs2Of w with
    | 0b00000#5 =>
      match funct3Of w with
      | 0b000#3 => some (.fmvWX (rdOf w) (rs1Of w))
      | _ => none
    | _ => none
  | _ => none

/-- The row of R63 that the word's fixed bits select, with its operands. -/
def decodeRow (w : InstrWord) : Option Instr :=
  match opOf w with
  | 0b0000011#7 => decodeLoad w
  | 0b0000111#7 => decodeFpLoad w
  | 0b0010011#7 => decodeOpImm w
  | 0b0010111#7 => some (.auipc (rdOf w) (upimmOf w))
  | 0b0011011#7 => decodeOpImm32 w
  | 0b0100011#7 => decodeStore w
  | 0b0100111#7 => decodeFpStore w
  | 0b0110011#7 => decodeOp w
  | 0b0110111#7 => some (.lui (rdOf w) (upimmOf w))
  | 0b0111011#7 => decodeOp32 w
  | 0b1000011#7 => decodeFma w .fmaddS .fmaddD
  | 0b1000111#7 => decodeFma w .fmsubS .fmsubD
  | 0b1001011#7 => decodeFma w .fnmsubS .fnmsubD
  | 0b1001111#7 => decodeFma w .fnmaddS .fnmaddD
  | 0b1010011#7 => decodeFp w
  | 0b1100011#7 => decodeBranch w
  | 0b1100111#7 => decodeJalr w
  | 0b1101111#7 => some (.jal (rdOf w) (immJOf w))
  | _ => none

/-- Why bytes decode to no instruction. -/
inductive DecodeError where
  /-- The word selects no row of the variant, or fails a secondary check (30_encoding.md R64, R66, R67). -/
  | unlisted (w : InstrWord)
  /-- Fewer than the 4 bytes of an instruction (30_encoding.md R50). -/
  | truncated (bytes : Nat)
  deriving DecidableEq, Repr

/-- Decode is a total function of the word and the variant (30_encoding.md R64, R65). -/
def decode (v : Variant) (w : InstrWord) : Except DecodeError Instr :=
  match decodeRow w with
  | none => .error (.unlisted w)
  | some i => if i.wellFormed v then .ok i else .error (.unlisted w)

/-- Decoding of any bytes: the instruction of the first four, little-endian (20_memory.md R36), and the bytes after it. -/
def decodeBytes (v : Variant) : List Byte → Except DecodeError (Instr × List Byte)
  | b0 :: b1 :: b2 :: b3 :: rest =>
    match decode v (BitVec.ofNat 32 (leNat [b0, b1, b2, b3])) with
    | .ok i => .ok (i, rest)
    | .error e => .error e
  | short => .error (.truncated short.length)

/-! ## Encoding (30_encoding.md R52 to R60, R63) -/

/-- R-type (R52). -/
def encR (f7 : BitVec 7) (rs2 rs1 : RegIdx) (f3 : BitVec 3) (rd : RegIdx) (op : BitVec 7) : InstrWord :=
  f7 ++ rs2 ++ rs1 ++ f3 ++ rd ++ op
/-- I-type (R53). -/
def encI (imm : BitVec 12) (rs1 : RegIdx) (f3 : BitVec 3) (rd : RegIdx) (op : BitVec 7) : InstrWord :=
  imm ++ rs1 ++ f3 ++ rd ++ op
/-- I-type with a 6-bit function code and a 6-bit shift amount (R59). -/
def encShift (f6 shamt : BitVec 6) (rs1 : RegIdx) (f3 : BitVec 3) (rd : RegIdx) (op : BitVec 7) : InstrWord :=
  f6 ++ shamt ++ rs1 ++ f3 ++ rd ++ op
/-- S-type (R54). -/
def encS (imm : BitVec 12) (rs2 rs1 : RegIdx) (f3 : BitVec 3) (op : BitVec 7) : InstrWord :=
  imm.extractLsb' 5 7 ++ rs2 ++ rs1 ++ f3 ++ imm.extractLsb' 0 5 ++ op
/-- B-type (R55). -/
def encB (offset : BitVec 13) (rs2 rs1 : RegIdx) (f3 : BitVec 3) (op : BitVec 7) : InstrWord :=
  offset.extractLsb' 12 1 ++ offset.extractLsb' 5 6 ++ rs2 ++ rs1 ++ f3 ++ offset.extractLsb' 1 4 ++
    offset.extractLsb' 11 1 ++ op
/-- U-type (R56). -/
def encU (upimm : BitVec 20) (rd : RegIdx) (op : BitVec 7) : InstrWord := upimm ++ rd ++ op
/-- J-type (R57). -/
def encJ (offset : BitVec 21) (rd : RegIdx) (op : BitVec 7) : InstrWord :=
  offset.extractLsb' 20 1 ++ offset.extractLsb' 1 10 ++ offset.extractLsb' 11 1 ++ offset.extractLsb' 12 8 ++ rd ++ op
/-- R4-type (R58). -/
def encR4 (fs3 : RegIdx) (f2 : BitVec 2) (fs2 fs1 : RegIdx) (f3 : BitVec 3) (fd : RegIdx) (op : BitVec 7) : InstrWord :=
  fs3 ++ f2 ++ fs2 ++ fs1 ++ f3 ++ fd ++ op

/-- The word of an instruction, by the rows of R63. -/
def encode : Instr → InstrWord
  | .lb rd rs1 imm => encI imm rs1 0b000#3 rd 0b0000011#7
  | .lh rd rs1 imm => encI imm rs1 0b001#3 rd 0b0000011#7
  | .lw rd rs1 imm => encI imm rs1 0b010#3 rd 0b0000011#7
  | .lbu rd rs1 imm => encI imm rs1 0b100#3 rd 0b0000011#7
  | .lhu rd rs1 imm => encI imm rs1 0b101#3 rd 0b0000011#7
  | .addi rd rs1 imm => encI imm rs1 0b000#3 rd 0b0010011#7
  | .slli rd rs1 shamt => encShift 0b000000#6 shamt rs1 0b001#3 rd 0b0010011#7
  | .slti rd rs1 imm => encI imm rs1 0b010#3 rd 0b0010011#7
  | .sltiu rd rs1 imm => encI imm rs1 0b011#3 rd 0b0010011#7
  | .xori rd rs1 imm => encI imm rs1 0b100#3 rd 0b0010011#7
  | .srli rd rs1 shamt => encShift 0b000000#6 shamt rs1 0b101#3 rd 0b0010011#7
  | .srai rd rs1 shamt => encShift 0b010000#6 shamt rs1 0b101#3 rd 0b0010011#7
  | .ori rd rs1 imm => encI imm rs1 0b110#3 rd 0b0010011#7
  | .andi rd rs1 imm => encI imm rs1 0b111#3 rd 0b0010011#7
  | .auipc rd upimm => encU upimm rd 0b0010111#7
  | .sb rs2 rs1 imm => encS imm rs2 rs1 0b000#3 0b0100011#7
  | .sh rs2 rs1 imm => encS imm rs2 rs1 0b001#3 0b0100011#7
  | .sw rs2 rs1 imm => encS imm rs2 rs1 0b010#3 0b0100011#7
  | .add rd rs1 rs2 => encR 0b0000000#7 rs2 rs1 0b000#3 rd 0b0110011#7
  | .sub rd rs1 rs2 => encR 0b0100000#7 rs2 rs1 0b000#3 rd 0b0110011#7
  | .sll rd rs1 rs2 => encR 0b0000000#7 rs2 rs1 0b001#3 rd 0b0110011#7
  | .slt rd rs1 rs2 => encR 0b0000000#7 rs2 rs1 0b010#3 rd 0b0110011#7
  | .sltu rd rs1 rs2 => encR 0b0000000#7 rs2 rs1 0b011#3 rd 0b0110011#7
  | .xor rd rs1 rs2 => encR 0b0000000#7 rs2 rs1 0b100#3 rd 0b0110011#7
  | .srl rd rs1 rs2 => encR 0b0000000#7 rs2 rs1 0b101#3 rd 0b0110011#7
  | .sra rd rs1 rs2 => encR 0b0100000#7 rs2 rs1 0b101#3 rd 0b0110011#7
  | .or rd rs1 rs2 => encR 0b0000000#7 rs2 rs1 0b110#3 rd 0b0110011#7
  | .and rd rs1 rs2 => encR 0b0000000#7 rs2 rs1 0b111#3 rd 0b0110011#7
  | .lui rd upimm => encU upimm rd 0b0110111#7
  | .beq rs1 rs2 offset => encB offset rs2 rs1 0b000#3 0b1100011#7
  | .bne rs1 rs2 offset => encB offset rs2 rs1 0b001#3 0b1100011#7
  | .blt rs1 rs2 offset => encB offset rs2 rs1 0b100#3 0b1100011#7
  | .bge rs1 rs2 offset => encB offset rs2 rs1 0b101#3 0b1100011#7
  | .bltu rs1 rs2 offset => encB offset rs2 rs1 0b110#3 0b1100011#7
  | .bgeu rs1 rs2 offset => encB offset rs2 rs1 0b111#3 0b1100011#7
  | .jalr rd rs1 imm => encI imm rs1 0b000#3 rd 0b1100111#7
  | .jal rd offset => encJ offset rd 0b1101111#7
  | .ld rd rs1 imm => encI imm rs1 0b011#3 rd 0b0000011#7
  | .lwu rd rs1 imm => encI imm rs1 0b110#3 rd 0b0000011#7
  | .addiw rd rs1 imm => encI imm rs1 0b000#3 rd 0b0011011#7
  | .slliw rd rs1 shamt => encR 0b0000000#7 shamt rs1 0b001#3 rd 0b0011011#7
  | .srliw rd rs1 shamt => encR 0b0000000#7 shamt rs1 0b101#3 rd 0b0011011#7
  | .sraiw rd rs1 shamt => encR 0b0100000#7 shamt rs1 0b101#3 rd 0b0011011#7
  | .sd rs2 rs1 imm => encS imm rs2 rs1 0b011#3 0b0100011#7
  | .addw rd rs1 rs2 => encR 0b0000000#7 rs2 rs1 0b000#3 rd 0b0111011#7
  | .subw rd rs1 rs2 => encR 0b0100000#7 rs2 rs1 0b000#3 rd 0b0111011#7
  | .sllw rd rs1 rs2 => encR 0b0000000#7 rs2 rs1 0b001#3 rd 0b0111011#7
  | .srlw rd rs1 rs2 => encR 0b0000000#7 rs2 rs1 0b101#3 rd 0b0111011#7
  | .sraw rd rs1 rs2 => encR 0b0100000#7 rs2 rs1 0b101#3 rd 0b0111011#7
  | .fmaddS fd fs1 fs2 fs3 rm => encR4 fs3 0b00#2 fs2 fs1 rm.toBits fd 0b1000011#7
  | .fmaddD fd fs1 fs2 fs3 rm => encR4 fs3 0b01#2 fs2 fs1 rm.toBits fd 0b1000011#7
  | .fmsubS fd fs1 fs2 fs3 rm => encR4 fs3 0b00#2 fs2 fs1 rm.toBits fd 0b1000111#7
  | .fmsubD fd fs1 fs2 fs3 rm => encR4 fs3 0b01#2 fs2 fs1 rm.toBits fd 0b1000111#7
  | .fnmsubS fd fs1 fs2 fs3 rm => encR4 fs3 0b00#2 fs2 fs1 rm.toBits fd 0b1001011#7
  | .fnmsubD fd fs1 fs2 fs3 rm => encR4 fs3 0b01#2 fs2 fs1 rm.toBits fd 0b1001011#7
  | .fnmaddS fd fs1 fs2 fs3 rm => encR4 fs3 0b00#2 fs2 fs1 rm.toBits fd 0b1001111#7
  | .fnmaddD fd fs1 fs2 fs3 rm => encR4 fs3 0b01#2 fs2 fs1 rm.toBits fd 0b1001111#7
  | .faddS fd fs1 fs2 rm => encR 0b0000000#7 fs2 fs1 rm.toBits fd 0b1010011#7
  | .faddD fd fs1 fs2 rm => encR 0b0000001#7 fs2 fs1 rm.toBits fd 0b1010011#7
  | .fsubS fd fs1 fs2 rm => encR 0b0000100#7 fs2 fs1 rm.toBits fd 0b1010011#7
  | .fsubD fd fs1 fs2 rm => encR 0b0000101#7 fs2 fs1 rm.toBits fd 0b1010011#7
  | .fmulS fd fs1 fs2 rm => encR 0b0001000#7 fs2 fs1 rm.toBits fd 0b1010011#7
  | .fmulD fd fs1 fs2 rm => encR 0b0001001#7 fs2 fs1 rm.toBits fd 0b1010011#7
  | .fdivS fd fs1 fs2 rm => encR 0b0001100#7 fs2 fs1 rm.toBits fd 0b1010011#7
  | .fdivD fd fs1 fs2 rm => encR 0b0001101#7 fs2 fs1 rm.toBits fd 0b1010011#7
  | .fsqrtS fd fs1 rm => encR 0b0101100#7 0b00000#5 fs1 rm.toBits fd 0b1010011#7
  | .fsqrtD fd fs1 rm => encR 0b0101101#7 0b00000#5 fs1 rm.toBits fd 0b1010011#7
  | .fsgnjS fd fs1 fs2 => encR 0b0010000#7 fs2 fs1 0b000#3 fd 0b1010011#7
  | .fsgnjD fd fs1 fs2 => encR 0b0010001#7 fs2 fs1 0b000#3 fd 0b1010011#7
  | .fsgnjnS fd fs1 fs2 => encR 0b0010000#7 fs2 fs1 0b001#3 fd 0b1010011#7
  | .fsgnjnD fd fs1 fs2 => encR 0b0010001#7 fs2 fs1 0b001#3 fd 0b1010011#7
  | .fsgnjxS fd fs1 fs2 => encR 0b0010000#7 fs2 fs1 0b010#3 fd 0b1010011#7
  | .fsgnjxD fd fs1 fs2 => encR 0b0010001#7 fs2 fs1 0b010#3 fd 0b1010011#7
  | .fminS fd fs1 fs2 => encR 0b0010100#7 fs2 fs1 0b000#3 fd 0b1010011#7
  | .fminD fd fs1 fs2 => encR 0b0010101#7 fs2 fs1 0b000#3 fd 0b1010011#7
  | .fmaxS fd fs1 fs2 => encR 0b0010100#7 fs2 fs1 0b001#3 fd 0b1010011#7
  | .fmaxD fd fs1 fs2 => encR 0b0010101#7 fs2 fs1 0b001#3 fd 0b1010011#7
  | .feqS rd fs1 fs2 => encR 0b1010000#7 fs2 fs1 0b010#3 rd 0b1010011#7
  | .feqD rd fs1 fs2 => encR 0b1010001#7 fs2 fs1 0b010#3 rd 0b1010011#7
  | .fltS rd fs1 fs2 => encR 0b1010000#7 fs2 fs1 0b001#3 rd 0b1010011#7
  | .fltD rd fs1 fs2 => encR 0b1010001#7 fs2 fs1 0b001#3 rd 0b1010011#7
  | .fleS rd fs1 fs2 => encR 0b1010000#7 fs2 fs1 0b000#3 rd 0b1010011#7
  | .fleD rd fs1 fs2 => encR 0b1010001#7 fs2 fs1 0b000#3 rd 0b1010011#7
  | .fclassS rd fs1 => encR 0b1110000#7 0b00000#5 fs1 0b001#3 rd 0b1010011#7
  | .fclassD rd fs1 => encR 0b1110001#7 0b00000#5 fs1 0b001#3 rd 0b1010011#7
  | .flw fd rs1 imm => encI imm rs1 0b010#3 fd 0b0000111#7
  | .fsw fs2 rs1 imm => encS imm fs2 rs1 0b010#3 0b0100111#7
  | .fcvtWS rd fs1 rm => encR 0b1100000#7 0b00000#5 fs1 rm.toBits rd 0b1010011#7
  | .fcvtWuS rd fs1 rm => encR 0b1100000#7 0b00001#5 fs1 rm.toBits rd 0b1010011#7
  | .fcvtSW fd rs1 rm => encR 0b1101000#7 0b00000#5 rs1 rm.toBits fd 0b1010011#7
  | .fcvtSWu fd rs1 rm => encR 0b1101000#7 0b00001#5 rs1 rm.toBits fd 0b1010011#7
  | .fmvXW rd fs1 => encR 0b1110000#7 0b00000#5 fs1 0b000#3 rd 0b1010011#7
  | .fmvWX fd rs1 => encR 0b1111000#7 0b00000#5 rs1 0b000#3 fd 0b1010011#7
  | .fld fd rs1 imm => encI imm rs1 0b011#3 fd 0b0000111#7
  | .fsd fs2 rs1 imm => encS imm fs2 rs1 0b011#3 0b0100111#7
  | .fcvtWD rd fs1 rm => encR 0b1100001#7 0b00000#5 fs1 rm.toBits rd 0b1010011#7
  | .fcvtWuD rd fs1 rm => encR 0b1100001#7 0b00001#5 fs1 rm.toBits rd 0b1010011#7
  | .fcvtDW fd rs1 rm => encR 0b1101001#7 0b00000#5 rs1 rm.toBits fd 0b1010011#7
  | .fcvtDWu fd rs1 rm => encR 0b1101001#7 0b00001#5 rs1 rm.toBits fd 0b1010011#7
  | .fcvtSD fd fs1 rm => encR 0b0100000#7 0b00001#5 fs1 rm.toBits fd 0b1010011#7
  | .fcvtDS fd fs1 rm => encR 0b0100001#7 0b00000#5 fs1 rm.toBits fd 0b1010011#7
/-! ## The opcode table (30_encoding.md R63): `match` and `mask` of each row, as spec/opcode_table.json gives them -/

/-- The mask of `slli`, `srli`, `srai`: one row for each `XLEN` (R63). -/
def shiftMask (v : Variant) : InstrWord :=
  match v.xlen with
  | .rv32 => 0xfe00707f#32
  | .rv64 => 0xfc00707f#32

/-- The `match` column of the instruction's row (R63). -/
def Instr.rowMatch : Instr → InstrWord
  | .lb .. => 0x00000003#32
  | .lh .. => 0x00001003#32
  | .lw .. => 0x00002003#32
  | .lbu .. => 0x00004003#32
  | .lhu .. => 0x00005003#32
  | .addi .. => 0x00000013#32
  | .slli .. => 0x00001013#32
  | .slti .. => 0x00002013#32
  | .sltiu .. => 0x00003013#32
  | .xori .. => 0x00004013#32
  | .srli .. => 0x00005013#32
  | .srai .. => 0x40005013#32
  | .ori .. => 0x00006013#32
  | .andi .. => 0x00007013#32
  | .auipc .. => 0x00000017#32
  | .sb .. => 0x00000023#32
  | .sh .. => 0x00001023#32
  | .sw .. => 0x00002023#32
  | .add .. => 0x00000033#32
  | .sub .. => 0x40000033#32
  | .sll .. => 0x00001033#32
  | .slt .. => 0x00002033#32
  | .sltu .. => 0x00003033#32
  | .xor .. => 0x00004033#32
  | .srl .. => 0x00005033#32
  | .sra .. => 0x40005033#32
  | .or .. => 0x00006033#32
  | .and .. => 0x00007033#32
  | .lui .. => 0x00000037#32
  | .beq .. => 0x00000063#32
  | .bne .. => 0x00001063#32
  | .blt .. => 0x00004063#32
  | .bge .. => 0x00005063#32
  | .bltu .. => 0x00006063#32
  | .bgeu .. => 0x00007063#32
  | .jalr .. => 0x00000067#32
  | .jal .. => 0x0000006f#32
  | .ld .. => 0x00003003#32
  | .lwu .. => 0x00006003#32
  | .addiw .. => 0x0000001b#32
  | .slliw .. => 0x0000101b#32
  | .srliw .. => 0x0000501b#32
  | .sraiw .. => 0x4000501b#32
  | .sd .. => 0x00003023#32
  | .addw .. => 0x0000003b#32
  | .subw .. => 0x4000003b#32
  | .sllw .. => 0x0000103b#32
  | .srlw .. => 0x0000503b#32
  | .sraw .. => 0x4000503b#32
  | .fmaddS .. => 0x00000043#32
  | .fmaddD .. => 0x02000043#32
  | .fmsubS .. => 0x00000047#32
  | .fmsubD .. => 0x02000047#32
  | .fnmsubS .. => 0x0000004b#32
  | .fnmsubD .. => 0x0200004b#32
  | .fnmaddS .. => 0x0000004f#32
  | .fnmaddD .. => 0x0200004f#32
  | .faddS .. => 0x00000053#32
  | .faddD .. => 0x02000053#32
  | .fsubS .. => 0x08000053#32
  | .fsubD .. => 0x0a000053#32
  | .fmulS .. => 0x10000053#32
  | .fmulD .. => 0x12000053#32
  | .fdivS .. => 0x18000053#32
  | .fdivD .. => 0x1a000053#32
  | .fsqrtS .. => 0x58000053#32
  | .fsqrtD .. => 0x5a000053#32
  | .fsgnjS .. => 0x20000053#32
  | .fsgnjD .. => 0x22000053#32
  | .fsgnjnS .. => 0x20001053#32
  | .fsgnjnD .. => 0x22001053#32
  | .fsgnjxS .. => 0x20002053#32
  | .fsgnjxD .. => 0x22002053#32
  | .fminS .. => 0x28000053#32
  | .fminD .. => 0x2a000053#32
  | .fmaxS .. => 0x28001053#32
  | .fmaxD .. => 0x2a001053#32
  | .feqS .. => 0xa0002053#32
  | .feqD .. => 0xa2002053#32
  | .fltS .. => 0xa0001053#32
  | .fltD .. => 0xa2001053#32
  | .fleS .. => 0xa0000053#32
  | .fleD .. => 0xa2000053#32
  | .fclassS .. => 0xe0001053#32
  | .fclassD .. => 0xe2001053#32
  | .flw .. => 0x00002007#32
  | .fsw .. => 0x00002027#32
  | .fcvtWS .. => 0xc0000053#32
  | .fcvtWuS .. => 0xc0100053#32
  | .fcvtSW .. => 0xd0000053#32
  | .fcvtSWu .. => 0xd0100053#32
  | .fmvXW .. => 0xe0000053#32
  | .fmvWX .. => 0xf0000053#32
  | .fld .. => 0x00003007#32
  | .fsd .. => 0x00003027#32
  | .fcvtWD .. => 0xc2000053#32
  | .fcvtWuD .. => 0xc2100053#32
  | .fcvtDW .. => 0xd2000053#32
  | .fcvtDWu .. => 0xd2100053#32
  | .fcvtSD .. => 0x40100053#32
  | .fcvtDS .. => 0x42000053#32

/-- The `mask` column of the instruction's row on the variant (R63). -/
def Instr.rowMask (v : Variant) : Instr → InstrWord
  | .lb .. | .lh .. | .lw .. | .lbu .. | .lhu .. | .addi .. | .slti .. | .sltiu .. | .xori .. | .ori .. | .andi ..
  | .sb .. | .sh .. | .sw .. | .beq .. | .bne .. | .blt .. | .bge .. | .bltu .. | .bgeu .. | .jalr .. | .ld ..
  | .lwu .. | .addiw .. | .sd .. | .flw .. | .fsw .. | .fld .. | .fsd .. => 0x0000707f#32
  | .slli .. | .srli .. | .srai .. => shiftMask v
  | .auipc .. | .lui .. | .jal .. => 0x0000007f#32
  | .add .. | .sub .. | .sll .. | .slt .. | .sltu .. | .xor .. | .srl .. | .sra .. | .or .. | .and .. | .slliw ..
  | .srliw .. | .sraiw .. | .addw .. | .subw .. | .sllw .. | .srlw .. | .sraw .. | .fsgnjS .. | .fsgnjD ..
  | .fsgnjnS .. | .fsgnjnD .. | .fsgnjxS .. | .fsgnjxD .. | .fminS .. | .fminD .. | .fmaxS .. | .fmaxD ..
  | .feqS .. | .feqD .. | .fltS .. | .fltD .. | .fleS .. | .fleD .. => 0xfe00707f#32
  | .fmaddS .. | .fmaddD .. | .fmsubS .. | .fmsubD .. | .fnmsubS .. | .fnmsubD .. | .fnmaddS .. | .fnmaddD .. => 0x0600007f#32
  | .faddS .. | .faddD .. | .fsubS .. | .fsubD .. | .fmulS .. | .fmulD .. | .fdivS .. | .fdivD .. => 0xfe00007f#32
  | .fsqrtS .. | .fsqrtD .. | .fcvtWS .. | .fcvtWuS .. | .fcvtSW .. | .fcvtSWu .. | .fcvtWD .. | .fcvtWuD ..
  | .fcvtDW .. | .fcvtDWu .. | .fcvtSD .. | .fcvtDS .. => 0xfff0007f#32
  | .fclassS .. | .fclassD .. | .fmvXW .. | .fmvWX .. => 0xfff0707f#32

/-- The instruction that the decoder, on the variant of State.reset's launch, reads from the bytes of a table word: bit 0
of `w` is the least significant bit of the word, `nbits` of its bits are given and the bits above are 0. -/
def decodeTableWord (nbits w : Nat) : Option Instr :=
  match decodeBytes Launch.atReset.variant (leBytes 4 (w % 2 ^ nbits)) with
  | .ok (i, _) => some i
  | .error _ => none

end Sys2Proof
end

