-- ==== Sys2Proof/Machine/State.lean ====
section
/-! DEFINITION. The machine's state (10_state.md), the faults and refusals a step can end in (60_exceptions.md R240, R241),
and the state after reset (10_state.md R22). -/

namespace Sys2Proof.Machine

/-- Memory: (address, byte) pairs in strictly rising address order, no entry equal to what an unlisted address reads as. -/
abbrev Memory := List Host.Cell

/-- What an address that no entry lists reads as. The spec gives no contents for memory outside the launch image
(10_state.md R22). DESIGN CHOICE, unsafe: notes/assumptions/6.md. -/
def Memory.unlistedByte : Byte := 0x00#8

/-- Every entry's address is at least `lo`, addresses rise strictly, and no entry holds the unlisted byte. -/
def Memory.wfFrom : Nat → Memory → Bool
  | _, [] => true
  | lo, (a, b) :: m => decide (lo ≤ a) && decide (b ≠ Memory.unlistedByte) && Memory.wfFrom (a + 1) m

/-- The canonical form of a memory: equal memories are equal lists. -/
def Memory.wf (m : Memory) : Bool := Memory.wfFrom 0 m

/-- How a step can stop the machine. The six exceptions of 60_exceptions.md R241 carry the address the rule gives as their
information, zero-extended to 64 bits; each leaves the state unchanged (R243). -/
inductive Fault where
  /-- Raised by a taken branch, `jal` or `jalr` whose target is not a multiple of 4 (R150). Safe: hardware would trap. -/
  | instructionAddressMisaligned (target : XWord)
  /-- Raised by fetch when a byte of `pc .. pc+3` is not in `EXEC` (R36). Safe: hardware would trap. -/
  | instructionAccessFault (pc : XWord)
  /-- Raised by a load whose address is not a multiple of its size, under `MISALIGNED_DATA = fault` (R33). Safe: a chip
  that supports the access only does more (R35). -/
  | loadAddressMisaligned (addr : XWord)
  /-- Raised by a load of a byte that is not in `READ` (R33). Safe: hardware would trap. -/
  | loadAccessFault (addr : XWord)
  /-- Raised by a store whose address is not a multiple of its size, under `MISALIGNED_DATA = fault` (R34). Safe. -/
  | storeAddressMisaligned (addr : XWord)
  /-- Raised by a store to a byte that is not in `WRITE` (R34). Safe: hardware would trap. -/
  | storeAccessFault (addr : XWord)
  /-- Not an exception: the stuck state at `END_PC`, answered by the step when `pc = END_PC`. "Nothing is fetched there",
  the run has ended normally and the state is final (70_reset_and_hazards.md R262). Safe: notes/assumptions/8.md. -/
  | runEnded
  deriving DecidableEq, Repr

/-- Why a step has no meaning. -/
inductive Refusal where
  /-- The word decodes to no instruction of the variant (30_encoding.md R66, R67), or is a dynamic-rounding word while
  `frm` > 4. Raised by the step, and by a meaning whose instruction the variant does not have. Safe: the spec's choice. -/
  | unlistedEncoding (instr : InstrWord)
  /-- A store touches a byte of `EXEC` (20_memory.md R34, R43). Safe: the spec's choice. -/
  | storeToProgramText (addr : XWord)
  /-- No meaning has been written for the instruction. Raised only by an arm of exec; no arm raises it now. Safe. -/
  | notModelled (mnemonic : String)
  deriving DecidableEq, Repr

/-- The state of the machine: the record at the top of 10_state.md, and the launch's parameters, which no step changes. -/
structure State where
  /-- The parameters of the launch (00_scope.md R3). The model's own field: notes/assumptions/1.md. -/
  launch : Launch
  /-- The integer registers (R10); entry 0 is never read (R11). -/
  x : Vector XWord 32
  /-- The program counter (R12). -/
  pc : XWord
  /-- The floating-point registers (R15). -/
  f : Vector XWord 32
  /-- The dynamic rounding mode (R16). -/
  frm : BitVec 3
  /-- The accrued exception flags NV DZ OF UF NX, bits 4 to 0 (R17). -/
  fflags : BitVec 5
  /-- Memory (R20). -/
  mem : Memory
  deriving DecidableEq, Repr

/-- What a step answers. -/
abbrev Result := Host.Outcome State Fault Refusal

/-- `XLEN` of the machine. -/
abbrev State.bits (s : State) : Nat := s.launch.variant.xlen.bits

/-- The state after reset (10_state.md R22; 70_reset_and_hazards.md R260) of the launch `Launch.atReset` with an empty image.
The registers R22 leaves unspecified hold zero: DESIGN CHOICE, unsafe: notes/assumptions/3.md and 4.md. -/
def State.reset : State where
  launch := Launch.atReset
  x := Vector.replicate 32 0#64
  pc := Launch.atReset.resetPc
  f := Vector.replicate 32 0#64
  frm := Launch.atReset.frmReset
  fflags := 0#5
  mem := []

end Sys2Proof.Machine
end

