-- ==== Sys2Proof/Machine/Ops.lean ====
section
/-! DEFINITION. The named operations over registers, memory and outcomes that every meaning is written with: raising a fault
(60_exceptions.md R243), the register file (10_state.md R10 to R13), the memory primitives (20_memory.md R30 to R38) and
fetch (R36). -/

namespace Sys2Proof.Machine

/-! ## Taking an exception

The spec's whole description of exception entry is R243: the instruction has no effect, the outcome records the fault's name
and its information, nothing is saved, no mode changes, no vector is fetched, and the run is over. There is no return from
an exception (R244). -/

/-- Raising an exception: the step ends in the fault, and the instruction has had no effect (60_exceptions.md R243). -/
def raise (e : Fault) : Result := .fault e

/-- Refusing: the step ends in the refusal, and the instruction has had no effect (60_exceptions.md R240, R243). -/
def refuse (r : Refusal) : Result := .refused r

/-- An instruction executes only on a variant that has it; elsewhere its word is unlisted (30_encoding.md R64 to R67). The
decoder lets no such word through: the check makes exec say so of the instruction's term too. -/
def State.listed (s : State) (i : Instr) (k : Result) : Result :=
  if i.wellFormed s.launch.variant then k else refuse (.unlistedEncoding (encode i))

/-! ## Integer registers and the program counter -/

/-- The container of integer register `i`; register 0 reads as zero (10_state.md R11). -/
def State.gpr (s : State) (i : RegIdx) : XWord := if i = 0#5 then 0#64 else s.x[i.toNat]

/-- `x[i]`, an XLEN-bit vector (10_state.md R10, R11). -/
def State.readX (s : State) (i : RegIdx) : BitVec s.bits := (s.gpr i).setWidth s.bits

/-- `x[i] <- v`; a write to register 0 is discarded (10_state.md R11). -/
def State.writeX (s : State) (i : RegIdx) (v : BitVec s.bits) : State :=
  if i = 0#5 then s else { s with x := s.x.set i.toNat (v.setWidth 64) }

/-- `pc`, an XLEN-bit vector (10_state.md R12). -/
def State.pcX (s : State) : BitVec s.bits := s.pc.setWidth s.bits

/-- `pc + 4` modulo `2^XLEN`: the next instruction, and the link value of `jal` and `jalr` (10_state.md R12, R13). -/
def State.nextPc (s : State) : BitVec s.bits := s.pcX + 4#s.bits

/-- `pc <- target`. -/
def State.setPc (s : State) (target : XWord) : State := { s with pc := target }

/-- `pc <- pc + 4`, the end of every instruction that does not transfer control (10_state.md R13). -/
def State.advance (s : State) : State := s.setPc (s.nextPc.setWidth 64)

/-- `x[rd] <- v; pc <- pc + 4`. -/
def State.retireX (s : State) (rd : RegIdx) (v : BitVec s.bits) : Result := .next (s.writeX rd v).advance

/-- A comparison's value: 1 if true, 0 if false, in XLEN bits (00_scope.md section 5.3 `bool_to_bits`). -/
def State.boolBits (s : State) (c : Bool) : BitVec s.bits := if c then 1#s.bits else 0#s.bits

/-! ## Control transfer (44_rv32i_control.md R150) -/

/-- A taken transfer to `target`: it faults if the target is not a multiple of 4, and otherwise `s'` (the state with the link
register written, if there is one) continues at the target. -/
def State.transfer (s : State) (target : BitVec s.bits) (s' : State) : Result :=
  if target.toNat % 4 ≠ 0 then raise (.instructionAddressMisaligned (target.setWidth 64))
  else .next (s'.setPc (target.setWidth 64))

/-! ## Memory -/

/-- The byte at an address. -/
def Memory.byte : Memory → Nat → Byte
  | [], _ => Memory.unlistedByte
  | (a, b) :: m, k => if a = k then b else Memory.byte m k

/-- Memory with one byte written, kept in canonical form. -/
def Memory.set : Memory → Nat → Byte → Memory
  | [], k, v => if v = Memory.unlistedByte then [] else [(k, v)]
  | (a, b) :: m, k, v =>
    if k < a then (if v = Memory.unlistedByte then (a, b) :: m else (k, v) :: (a, b) :: m)
    else if k = a then (if v = Memory.unlistedByte then m else (k, v) :: m)
    else (a, b) :: Memory.set m k v

/-- Memory with a list of bytes written at a list of addresses, in order. -/
def Memory.setAll : Memory → List Nat → List Byte → Memory
  | m, a :: as, b :: bs => Memory.setAll (m.set a b) as bs
  | m, _, _ => m

/-- The addresses an `n`-byte access at `addr` touches, each modulo `2^XLEN` (20_memory.md R30). -/
def State.accessAddrs (s : State) (addr : BitVec s.bits) (n : Nat) : List Nat :=
  (List.range n).map fun i => (addr + BitVec.ofNat s.bits i).toNat

/-- The address is not a multiple of the size and `MISALIGNED_DATA = fault` (20_memory.md R33 (1), R34 (1), R35). -/
def State.misaligned (s : State) (addr : BitVec s.bits) (n : Nat) : Bool :=
  match s.launch.misaligned with
  | .fault => decide (addr.toNat % n ≠ 0)
  | .split => false

/-- The bytes at the addresses, the first one least significant (20_memory.md R32). -/
def State.loadBits (s : State) (addr : BitVec s.bits) (n : Nat) : BitVec (8 * n) :=
  BitVec.ofNat (8 * n) (leNat ((s.accessAddrs addr n).map s.mem.byte))

/-- Memory after an `n`-byte value is written, the least significant byte at the lowest address (20_memory.md R32, R34 (4)). -/
def State.storeBits (s : State) (addr : BitVec s.bits) (n : Nat) (v : BitVec (8 * n)) : Memory :=
  s.mem.setAll (s.accessAddrs addr n) (leBytes n v.toNat)

/-- `MemRead(addr, n)` (20_memory.md R33). -/
def State.memRead (s : State) (addr : BitVec s.bits) (n : Nat) : Except Fault (BitVec (8 * n)) :=
  if s.misaligned addr n then .error (.loadAddressMisaligned (addr.setWidth 64))
  else if (s.accessAddrs addr n).all (inRegions s.launch.memMap.read) then .ok (s.loadBits addr n)
  else .error (.loadAccessFault (addr.setWidth 64))

/-- `MemWrite(addr, n, v)` (20_memory.md R34). -/
def State.memWrite (s : State) (addr : BitVec s.bits) (n : Nat) (v : BitVec (8 * n)) : Result :=
  if s.misaligned addr n then raise (.storeAddressMisaligned (addr.setWidth 64))
  else if !(s.accessAddrs addr n).all (inRegions s.launch.memMap.write) then raise (.storeAccessFault (addr.setWidth 64))
  else if (s.accessAddrs addr n).any (inRegions s.launch.memMap.exec) then
    refuse (.storeToProgramText (addr.setWidth 64))
  else .next { s with mem := s.storeBits addr n v }

/-- The common step of every load: read, then continue with the data (40_rv32i_loads.md R100). -/
def State.load (s : State) (addr : BitVec s.bits) (n : Nat) (k : BitVec (8 * n) → Result) : Result :=
  match s.memRead addr n with
  | .error e => raise e
  | .ok data => k data

/-- The common step of every store: write, then `pc <- pc + 4` (42_rv32i_stores.md R120). -/
def State.store (s : State) (addr : BitVec s.bits) (n : Nat) (v : BitVec (8 * n)) : Result :=
  match s.memWrite addr n v with
  | .next t => .next t.advance
  | .fault e => raise e
  | .refused r => refuse r

/-! ## Fetch -/

/-- The machine is at `END_PC` (70_reset_and_hazards.md R262). -/
def State.atEnd (s : State) : Bool := decide (s.pcX = s.launch.endPc.setWidth s.bits)

/-- `Fetch(pc)`: the 32-bit word at `pc`, if its four bytes are in `EXEC` (20_memory.md R36). -/
def State.fetch (s : State) : Except Fault InstrWord :=
  if (s.accessAddrs s.pcX 4).all (inRegions s.launch.memMap.exec) then .ok (s.loadBits s.pcX 4)
  else .error (.instructionAccessFault (s.pcX.setWidth 64))

end Sys2Proof.Machine
end

