-- ==== Sys2Proof/Machine/Flags.lean ====
section
/-! DEFINITION. The accrued floating-point exception flags (10_state.md R17; 46_rvfd_compute.md R184). There are no integer
condition codes (10_state.md R18). -/

namespace Sys2Proof.Machine

/-- A set of flags, laid out as R17: NV DZ OF UF NX, bits 4 to 0. -/
abbrev FpFlags := BitVec 5

/-- No flag. -/
def flagNone : FpFlags := 0b00000#5
/-- NV, invalid operation. -/
def flagNV : FpFlags := 0b10000#5
/-- DZ, divide by zero. -/
def flagDZ : FpFlags := 0b01000#5
/-- OF, overflow. -/
def flagOF : FpFlags := 0b00100#5
/-- UF, underflow. -/
def flagUF : FpFlags := 0b00010#5
/-- NX, inexact. -/
def flagNX : FpFlags := 0b00001#5

/-- The flag if the condition holds. -/
def flagIf (c : Bool) (fl : FpFlags) : FpFlags := if c then fl else flagNone

/-- `fflags <- fflags or fl` (46_rvfd_compute.md R184). -/
def State.accrue (s : State) (fl : FpFlags) : State := { s with fflags := s.fflags ||| fl }

end Sys2Proof.Machine
end

