-- ==== Sys2Proof/Machine/Float.lean ====
section
/-! DEFINITION. The numerics record `FP` of 46_rvfd_compute.md R180, at its recommended value (items 1 to 7): IEEE 754
binary32 and binary64 with RISC-V's NaN and flag conventions. Taking that value is DESIGN CHOICE (notes/assumptions/9.md);
what R180 leaves to IEEE 754 is PRESUMED (notes/assumptions/10.md). Every operation unpacks its operands, computes exactly
in `Nat` and `Int`, and rounds once (`roundPack`). -/

namespace Sys2Proof

/-! ## Formats (R180 item 1) -/

/-- The number of fraction bits. -/
def Prec.fracBits : Prec → Nat
  | .s => 23
  | .d => 52

/-- The number of exponent bits. -/
def Prec.expBits : Prec → Nat
  | .s => 8
  | .d => 11

/-- The exponent bias. -/
def Prec.bias : Prec → Nat
  | .s => 127
  | .d => 1023

/-- The exponent of the last place of a subnormal: `2 ^ Prec.minExp` is the smallest positive value. -/
def Prec.minExp (F : Prec) : Int := 1 - (F.bias : Int) - (F.fracBits : Int)

/-- The exponent field of infinities and NaNs: all ones. -/
def Prec.maxBiased (F : Prec) : Nat := 2 ^ F.expBits - 1

/-- The magnitude bits of infinity, which is also one more than those of the largest finite value. -/
def Prec.infMag (F : Prec) : Nat := F.maxBiased * 2 ^ F.fracBits

/-- A pattern from its sign and its other bits. -/
def Prec.pattern (F : Prec) (neg : Bool) (mag : Nat) : BitVec F.width :=
  BitVec.ofNat F.width (mag + if neg then 2 ^ (F.width - 1) else 0)

/-- The canonical NaN (R180 item 2): `7fc00000` or `7ff8000000000000`. -/
def Prec.canonicalNaN (F : Prec) : BitVec F.width :=
  F.pattern false (F.infMag + 2 ^ (F.fracBits - 1))

/-- An infinity. -/
def Prec.infinity (F : Prec) (neg : Bool) : BitVec F.width := F.pattern neg (F.infMag)

/-- A zero. -/
def Prec.zero (F : Prec) (neg : Bool) : BitVec F.width := F.pattern neg 0

end Sys2Proof

namespace Sys2Proof.Machine

/-- `sign(F, a)` = `a[w-1]` (R180). -/
def FP.sign (F : Prec) (a : BitVec F.width) : Bool := a.getLsbD (F.width - 1)

/-- `neg(F, a)` = `a` with bit `w-1` inverted (R180). -/
def FP.neg (F : Prec) (a : BitVec F.width) : BitVec F.width := a ^^^ BitVec.ofNat F.width (2 ^ (F.width - 1))

/-- The magnitude bits of a pattern: all but the sign. -/
def FP.mag (F : Prec) (a : BitVec F.width) : Nat := a.toNat % 2 ^ (F.width - 1)

/-- The exponent field. -/
def FP.biased (F : Prec) (a : BitVec F.width) : Nat := FP.mag F a / 2 ^ F.fracBits

/-- The fraction field. -/
def FP.frac (F : Prec) (a : BitVec F.width) : Nat := FP.mag F a % 2 ^ F.fracBits

/-- Exponent all ones and fraction not 0. -/
def FP.isNaN (F : Prec) (a : BitVec F.width) : Bool := decide (F.infMag < FP.mag F a)

/-- A NaN whose top fraction bit is 0. -/
def FP.isSNaN (F : Prec) (a : BitVec F.width) : Bool :=
  FP.isNaN F a && decide (FP.frac F a < 2 ^ (F.fracBits - 1))

/-- Exponent all ones and fraction 0. -/
def FP.isInf (F : Prec) (a : BitVec F.width) : Bool := decide (FP.mag F a = F.infMag)

/-- A zero of either sign. -/
def FP.isZero (F : Prec) (a : BitVec F.width) : Bool := decide (FP.mag F a = 0)

/-- The significand of a finite pattern, as an integer. -/
def FP.sig (F : Prec) (a : BitVec F.width) : Nat :=
  if FP.biased F a = 0 then FP.frac F a else FP.frac F a + 2 ^ F.fracBits

/-- The exponent of a finite pattern: its value is `± sig * 2 ^ exp`. -/
def FP.exp (F : Prec) (a : BitVec F.width) : Int :=
  if FP.biased F a = 0 then F.minExp else (FP.biased F a : Int) - 1 + F.minExp

/-! ## Rounding (R180 items 2 and 3, R181) -/

/-- Whether the magnitude `n + rem / 2^sh`, of the given sign, is rounded up to `n + 1` (R181). -/
def roundsUp (rm : RoundMode) (neg : Bool) (n rem sh : Nat) : Bool :=
  match rm with
  | .rne => decide (2 ^ sh < 2 * rem) || (decide (2 * rem = 2 ^ sh) && decide (n % 2 = 1))
  | .rtz => false
  | .rdn => neg && decide (rem ≠ 0)
  | .rup => !neg && decide (rem ≠ 0)
  | .rmm => decide (2 ^ sh ≤ 2 * rem)

/-- The integer `n` nearest to `m / 2^sh` under `rm`, and whether it differs from it. -/
def roundShift (rm : RoundMode) (neg : Bool) (m sh : Nat) : Nat × Bool :=
  (m / 2 ^ sh + (if roundsUp rm neg (m / 2 ^ sh) (m % 2 ^ sh) sh then 1 else 0), decide (m % 2 ^ sh ≠ 0))

/-- The multiple of `2^q` nearest to `m * 2^e` under `rm`, in units of `2^q`, and whether it differs from it. -/
def roundTo (rm : RoundMode) (neg : Bool) (m : Nat) (e q : Int) : Nat × Bool :=
  if q ≤ e then (m * 2 ^ (e - q).toNat, false) else roundShift rm neg m (q - e).toNat

/-- What an overflow delivers: infinity or the largest finite value, by `rm` and the sign (R180 item 3). -/
def overflowsToInf (rm : RoundMode) (neg : Bool) : Bool :=
  match rm with
  | .rne => true
  | .rtz => false
  | .rdn => neg
  | .rup => !neg
  | .rmm => true

/-- The exact value `± m * 2^e` rounded once to the format, with its flags: OF and NX, UF and NX (tiny after rounding and
inexact), or NX (R180 items 2, 3). -/
def roundPack (F : Prec) (rm : RoundMode) (neg : Bool) (m : Nat) (e : Int) : BitVec F.width × FpFlags :=
  if m = 0 then (F.zero neg, flagNone)
  else
    let p := F.fracBits + 1
    let unbounded := e + (Nat.log2 m : Int) + 1 - (p : Int)
    let q := max unbounded (F.minExp)
    let (n, inexact) := roundTo rm neg m e q
    let mag := if n < 2 ^ F.fracBits then n
      else (q - F.minExp).toNat * 2 ^ F.fracBits + n
    if F.infMag ≤ mag then
      (if overflowsToInf rm neg then F.infinity neg else F.pattern neg (F.infMag - 1), flagOF ||| flagNX)
    else
      let tiny := decide (unbounded < F.minExp) &&
        !(decide (unbounded + 1 = F.minExp) && decide ((roundTo rm neg m e unbounded).1 = 2 ^ p))
      (F.pattern neg mag, flagIf inexact flagNX ||| flagIf (inexact && tiny) flagUF)

/-- An invalid operation's result: the canonical NaN with NV (R180 items 2, 3). -/
def invalid (F : Prec) : BitVec F.width × FpFlags := (F.canonicalNaN, flagNV)

/-- The result of an operation one of whose operands is a NaN: NV if one of them is signaling (R180 items 2, 3). -/
def nanResult (F : Prec) (signaling : Bool) : BitVec F.width × FpFlags :=
  (F.canonicalNaN, flagIf signaling flagNV)

/-- An integer with a sign, from a sign and a magnitude. -/
def signedNat (neg : Bool) (m : Nat) : Int := if neg then -(m : Int) else (m : Int)

/-- The exact sum of two values `± m * 2^e`, rounded once. An exact zero sum has the operands' common sign, or is `+0`, and
`-0` under `RDN` (R189's corner cases). -/
def addExact (F : Prec) (rm : RoundMode) (n1 : Bool) (m1 : Nat) (e1 : Int) (n2 : Bool) (m2 : Nat) (e2 : Int) :
    BitVec F.width × FpFlags :=
  let e := min e1 e2
  let total := signedNat n1 (m1 * 2 ^ (e1 - e).toNat) + signedNat n2 (m2 * 2 ^ (e2 - e).toNat)
  if total = 0 then
    (F.zero (if n1 = n2 then n1 else decide (rm = .rdn)), flagNone)
  else roundPack F rm (decide (total < 0)) total.natAbs e

/-! ## The functions of the record (R180) -/

/-- `FP.fma`: `a * b + c`, rounded once. -/
def FP.fma (F : Prec) (rm : RoundMode) (a b c : BitVec F.width) : BitVec F.width × FpFlags :=
  let np := FP.sign F a != FP.sign F b
  let zeroTimesInf := (FP.isZero F a && FP.isInf F b) || (FP.isInf F a && FP.isZero F b)
  if FP.isNaN F a || FP.isNaN F b || FP.isNaN F c then
    nanResult F (FP.isSNaN F a || FP.isSNaN F b || FP.isSNaN F c || zeroTimesInf)
  else if zeroTimesInf then invalid F
  else if FP.isInf F a || FP.isInf F b then
    if FP.isInf F c && (FP.sign F c != np) then invalid F else (F.infinity np, flagNone)
  else if FP.isInf F c then (c, flagNone)
  else addExact F rm np (FP.sig F a * FP.sig F b) (FP.exp F a + FP.exp F b) (FP.sign F c) (FP.sig F c) (FP.exp F c)

/-- `FP.add`: `a + b`. -/
def FP.add (F : Prec) (rm : RoundMode) (a b : BitVec F.width) : BitVec F.width × FpFlags :=
  if FP.isNaN F a || FP.isNaN F b then nanResult F (FP.isSNaN F a || FP.isSNaN F b)
  else if FP.isInf F a then
    if FP.isInf F b && (FP.sign F a != FP.sign F b) then invalid F else (a, flagNone)
  else if FP.isInf F b then (b, flagNone)
  else addExact F rm (FP.sign F a) (FP.sig F a) (FP.exp F a) (FP.sign F b) (FP.sig F b) (FP.exp F b)

/-- `FP.sub`: `a - b`, the sum of `a` and `b` with its sign inverted. -/
def FP.sub (F : Prec) (rm : RoundMode) (a b : BitVec F.width) : BitVec F.width × FpFlags := FP.add F rm a (FP.neg F b)

/-- `FP.mul`: `a * b`. -/
def FP.mul (F : Prec) (rm : RoundMode) (a b : BitVec F.width) : BitVec F.width × FpFlags :=
  let np := FP.sign F a != FP.sign F b
  if FP.isNaN F a || FP.isNaN F b then nanResult F (FP.isSNaN F a || FP.isSNaN F b)
  else if (FP.isZero F a && FP.isInf F b) || (FP.isInf F a && FP.isZero F b) then invalid F
  else if FP.isInf F a || FP.isInf F b then (F.infinity np, flagNone)
  else roundPack F rm np (FP.sig F a * FP.sig F b) (FP.exp F a + FP.exp F b)

/-- An exact quotient or root that was cut off below its last place: one more bit says whether anything was lost. -/
def withSticky (q : Nat) (lost : Bool) : Nat := 2 * q + if lost then 1 else 0

/-- `FP.div`: `a / b`. -/
def FP.div (F : Prec) (rm : RoundMode) (a b : BitVec F.width) : BitVec F.width × FpFlags :=
  let np := FP.sign F a != FP.sign F b
  if FP.isNaN F a || FP.isNaN F b then nanResult F (FP.isSNaN F a || FP.isSNaN F b)
  else if (FP.isInf F a && FP.isInf F b) || (FP.isZero F a && FP.isZero F b) then invalid F
  else if FP.isInf F a then (F.infinity np, flagNone)
  else if FP.isInf F b then (F.zero np, flagNone)
  else if FP.isZero F b then (F.infinity np, flagDZ)
  else
    let k := 2 * F.fracBits + 4
    let num := FP.sig F a * 2 ^ k
    roundPack F rm np (withSticky (num / FP.sig F b) (decide (num % FP.sig F b ≠ 0)))
      (FP.exp F a - FP.exp F b - (k : Int) - 1)

/-- The largest integer below `2^k * (r/2^k + 1)` whose square is at most `n`, found bit by bit from bit `k - 1` down. -/
def sqrtBits (n : Nat) : Nat → Nat → Nat
  | 0, r => r
  | k + 1, r => sqrtBits n k (if (r + 2 ^ k) * (r + 2 ^ k) ≤ n then r + 2 ^ k else r)

/-- The integer square root of a number below `2^192`. -/
def natSqrt (n : Nat) : Nat := sqrtBits n 96 0

/-- `FP.sqrt`. -/
def FP.sqrt (F : Prec) (rm : RoundMode) (a : BitVec F.width) : BitVec F.width × FpFlags :=
  if FP.isNaN F a then nanResult F (FP.isSNaN F a)
  else if FP.isZero F a then (a, flagNone)
  else if FP.sign F a then invalid F
  else if FP.isInf F a then (a, flagNone)
  else
    let odd := decide (FP.exp F a % 2 ≠ 0)
    let m := if odd then 2 * FP.sig F a else FP.sig F a
    let e := if odd then FP.exp F a - 1 else FP.exp F a
    let k := F.fracBits + 3
    let n := m * 2 ^ (2 * k)
    let r := natSqrt n
    roundPack F rm false (withSticky r (decide (r * r ≠ n))) (e / 2 - (k : Int) - 1)

/-- A non-NaN pattern's place in the order of values: `+0` and `-0` share the place 0. -/
def FP.key (F : Prec) (a : BitVec F.width) : Int := signedNat (FP.sign F a) (FP.mag F a)

/-- `FP.min` (R180 item 5). -/
def FP.min (F : Prec) (a b : BitVec F.width) : BitVec F.width × FpFlags :=
  let fl := flagIf (FP.isSNaN F a || FP.isSNaN F b) flagNV
  if FP.isNaN F a && FP.isNaN F b then (F.canonicalNaN, fl)
  else if FP.isNaN F a then (b, fl)
  else if FP.isNaN F b then (a, fl)
  else if FP.key F a < FP.key F b then (a, fl)
  else if FP.key F b < FP.key F a then (b, fl)
  else (if FP.sign F a then a else b, fl)

/-- `FP.max` (R180 item 5). -/
def FP.max (F : Prec) (a b : BitVec F.width) : BitVec F.width × FpFlags :=
  let fl := flagIf (FP.isSNaN F a || FP.isSNaN F b) flagNV
  if FP.isNaN F a && FP.isNaN F b then (F.canonicalNaN, fl)
  else if FP.isNaN F a then (b, fl)
  else if FP.isNaN F b then (a, fl)
  else if FP.key F a < FP.key F b then (b, fl)
  else if FP.key F b < FP.key F a then (a, fl)
  else (if FP.sign F a then b else a, fl)

/-- `FP.eq`: quiet, NV for a signaling NaN only (R180 items 3, 4). -/
def FP.eq (F : Prec) (a b : BitVec F.width) : Bool × FpFlags :=
  if FP.isNaN F a || FP.isNaN F b then (false, flagIf (FP.isSNaN F a || FP.isSNaN F b) flagNV)
  else (decide (FP.key F a = FP.key F b), flagNone)

/-- `FP.lt`: NV for any NaN (R180 items 3, 4). -/
def FP.lt (F : Prec) (a b : BitVec F.width) : Bool × FpFlags :=
  if FP.isNaN F a || FP.isNaN F b then (false, flagNV)
  else (decide (FP.key F a < FP.key F b), flagNone)

/-- `FP.le`: NV for any NaN (R180 items 3, 4). -/
def FP.le (F : Prec) (a b : BitVec F.width) : Bool × FpFlags :=
  if FP.isNaN F a || FP.isNaN F b then (false, flagNV)
  else (decide (FP.key F a ≤ FP.key F b), flagNone)

/-- `FP.classify` (R180 item 7). -/
def FP.classify (F : Prec) (a : BitVec F.width) : BitVec 10 :=
  let neg := FP.sign F a
  if FP.isNaN F a then (if FP.isSNaN F a then 0x100#10 else 0x200#10)
  else if FP.isInf F a then (if neg then 0x001#10 else 0x080#10)
  else if FP.isZero F a then (if neg then 0x008#10 else 0x010#10)
  else if FP.biased F a = 0 then (if neg then 0x004#10 else 0x020#10)
  else (if neg then 0x002#10 else 0x040#10)

/-- The least 32-bit integer of a signedness. -/
def intMin (signed : Bool) : Int := if signed then -(2 ^ 31) else 0

/-- The greatest 32-bit integer of a signedness. -/
def intMax (signed : Bool) : Int := if signed then 2 ^ 31 - 1 else 2 ^ 32 - 1

/-- `FP.to_int` (R180 item 6). DESIGN CHOICE (notes/assumptions/25.md): a value strictly between -1 and 0 rounds to -1 under RDN, so
as an unsigned integer it is 0 with NV, by item 6's general clauses and R213; the item's example, "-0.4 under any mode", says NX. -/
def FP.toInt (F : Prec) (rm : RoundMode) (signed : Bool) (a : BitVec F.width) : BitVec 32 × FpFlags :=
  let neg := FP.sign F a
  let top := (BitVec.ofInt 32 (intMax signed), flagNV)
  let bottom := (BitVec.ofInt 32 (intMin signed), flagNV)
  if FP.isNaN F a then top
  else if FP.isInf F a then (if neg then bottom else top)
  else
    let (n, inexact) := roundTo rm neg (FP.sig F a) (FP.exp F a) 0
    let v := signedNat neg n
    if intMax signed < v then top
    else if v < intMin signed then bottom
    else (BitVec.ofInt 32 v, flagIf inexact flagNX)

/-- `FP.from_int` (R180 item 2). -/
def FP.fromInt (F : Prec) (rm : RoundMode) (signed : Bool) (v : BitVec 32) : BitVec F.width × FpFlags :=
  let i := if signed then v.toInt else (v.toNat : Int)
  roundPack F rm (decide (i < 0)) i.natAbs 0

/-- `FP.narrow`: double to single. -/
def FP.narrow (rm : RoundMode) (a : BitVec 64) : BitVec 32 × FpFlags :=
  if FP.isNaN .d a then nanResult .s (FP.isSNaN .d a)
  else if FP.isInf .d a then (Prec.infinity .s (FP.sign .d a), flagNone)
  else roundPack .s rm (FP.sign .d a) (FP.sig .d a) (FP.exp .d a)

/-- `FP.widen`: single to double; every single is exactly a double (48_rvd_only.md R227), so no rounding mode enters. -/
def FP.widen (a : BitVec 32) : BitVec 64 × FpFlags :=
  if FP.isNaN .s a then nanResult .d (FP.isSNaN .s a)
  else if FP.isInf .s a then (Prec.infinity .d (FP.sign .s a), flagNone)
  else roundPack .d .rtz (FP.sign .s a) (FP.sig .s a) (FP.exp .s a)

end Sys2Proof.Machine
end

