-- ==== Sys2Proof/Machine/Operands.lean ====
section
/-! DEFINITION. Operand forms: immediates extended to XLEN (30_encoding.md R60), effective addresses (20_memory.md R30), shift
amounts (R59, 43_rv32i_reg_arith.md R132), words of the "w" instructions (45_rv64i.md R160), floating-point registers and
rounding modes (46_rvfd_compute.md R181 to R183), and the common steps of the instruction families. -/

namespace Sys2Proof.Machine

/-! ## Integer operands -/

/-- `sext_XLEN(v)`: a signed immediate, or a 32-bit result, at the register width (30_encoding.md R60). -/
def State.sext (s : State) {n : Nat} (v : BitVec n) : BitVec s.bits := v.signExtend s.bits

/-- `zext_XLEN(v)`. -/
def State.zext (s : State) {n : Nat} (v : BitVec n) : BitVec s.bits := v.setWidth s.bits

/-- `immU`: `upimm ++ 0^12`, sign-extended when `XLEN` = 64 (30_encoding.md R60). -/
def State.upperImm (s : State) (upimm : BitVec 20) : BitVec s.bits := s.sext (upimm ++ 0#12)

/-- The effective address of a load or a store (20_memory.md R30). -/
def State.effAddr (s : State) (rs1 : RegIdx) (imm : BitVec 12) : BitVec s.bits := s.readX rs1 + s.sext imm

/-- The shift amount in a register: `x[rs2][4:0]` for `XLEN` = 32, `x[rs2][5:0]` for `XLEN` = 64 (43 R132). -/
def State.shiftAmount (s : State) (rs2 : RegIdx) : Nat :=
  match s.launch.variant.xlen with
  | .rv32 => ((s.readX rs2).extractLsb' 0 5).toNat
  | .rv64 => ((s.readX rs2).extractLsb' 0 6).toNat

/-- `x[i][31:0]`, the operand of a "w" instruction (45_rv64i.md R160). -/
def State.low32 (s : State) (i : RegIdx) : BitVec 32 := (s.readX i).setWidth 32

/-- The shift amount of a "w" register shift, `x[rs2][4:0]` (45_rv64i.md R170). -/
def State.shiftAmountW (s : State) (rs2 : RegIdx) : Nat := ((s.readX rs2).extractLsb' 0 5).toNat

/-! ## Common steps of the integer families -/

/-- `x[rd] <- x[rs1] op sext_XLEN(imm); pc <- pc + 4` (41_rv32i_imm_arith.md R109). -/
def State.immOp (s : State) (rd rs1 : RegIdx) (imm : BitVec 12) (op : BitVec s.bits → BitVec s.bits → BitVec s.bits) :
    Result :=
  s.retireX rd (op (s.readX rs1) (s.sext imm))

/-- `x[rd] <- x[rs1] op x[rs2]; pc <- pc + 4` (43_rv32i_reg_arith.md R129). -/
def State.regOp (s : State) (rd rs1 rs2 : RegIdx) (op : BitVec s.bits → BitVec s.bits → BitVec s.bits) : Result :=
  s.retireX rd (op (s.readX rs1) (s.readX rs2))

/-- `x[rd] <- sext_XLEN(w); pc <- pc + 4`, the end of a "w" instruction (45_rv64i.md R160). -/
def State.retireW (s : State) (rd : RegIdx) (w : BitVec 32) : Result := s.retireX rd (s.sext w)

/-- The common step of the six conditional branches (44_rv32i_control.md R159). -/
def State.branch (s : State) (taken : Bool) (offset : BitVec 13) : Result :=
  if taken then s.transfer (s.pcX + s.sext offset) s else .next s.advance

/-- A jump that links: `x[rd] <- pc + 4; pc <- target`, or the misaligned-target fault (44_rv32i_control.md R157, R158). -/
def State.jump (s : State) (rd : RegIdx) (target : BitVec s.bits) : Result :=
  s.transfer target (s.writeX rd s.nextPc)

/-! ## Floating-point registers (46_rvfd_compute.md R182, R183) -/

/-- `unbox32(v)`: the low half of a properly boxed register, the canonical NaN otherwise (R182). -/
def unbox32 (v : BitVec 64) : BitVec 32 :=
  if v.extractLsb' 32 32 = BitVec.allOnes 32 then v.setWidth 32 else Prec.canonicalNaN .s

/-- `box32(v)` = `1^32 ++ v` (R183). -/
def box32 (v : BitVec 32) : BitVec 64 := BitVec.allOnes 32 ++ v

/-- The container of floating-point register `i` (10_state.md R15). -/
def State.fpr (s : State) (i : RegIdx) : XWord := s.f[i.toNat]

/-- `f[i][31:0]`, without unboxing (R182: `fsw` and `fmv.x.w`). -/
def State.fLow32 (s : State) (i : RegIdx) : BitVec 32 := (s.fpr i).setWidth 32

/-- `fget(S, i)` (R182). -/
def State.fgetS (s : State) (i : RegIdx) : BitVec 32 :=
  match s.launch.variant.fp with
  | .fd => unbox32 (s.fpr i)
  | .f => s.fLow32 i
  | .none => s.fLow32 i

/-- `fget(F, i)`, an operand of precision `F` (R182). -/
def State.fget (s : State) : (F : Prec) → RegIdx → BitVec F.width
  | .s, i => s.fgetS i
  | .d, i => s.fpr i

/-- The container of a single-precision result: boxed when `FLEN` = 64 (R183). -/
def State.singleBits (s : State) (v : BitVec 32) : XWord :=
  match s.launch.variant.fp with
  | .fd => box32 v
  | .f => v.setWidth 64
  | .none => v.setWidth 64

/-- The container of a result of precision `F` (R183). -/
def State.resultBits (s : State) : (F : Prec) → BitVec F.width → XWord
  | .s, v => s.singleBits v
  | .d, v => v

/-- `fput(F, i, v)` (R183). No floating-point register is hardwired (10_state.md R15). -/
def State.fput (s : State) (F : Prec) (i : RegIdx) (v : BitVec F.width) : State :=
  { s with f := s.f.set i.toNat (s.resultBits F v) }

/-! ## Rounding mode (46_rvfd_compute.md R181) -/

/-- The mode that three bits encode; 5, 6 and 7 encode none. -/
def roundModeOfBits : BitVec 3 → Option RoundMode
  | 0b000#3 => some .rne
  | 0b001#3 => some .rtz
  | 0b010#3 => some .rdn
  | 0b011#3 => some .rup
  | 0b100#3 => some .rmm
  | _ => none

/-- `rm_eff`: the mode the `rm` field names, or the mode `frm` holds (R181). -/
def State.effectiveRm (s : State) : RmField → Option RoundMode
  | .rne => some .rne
  | .rtz => some .rtz
  | .rdn => some .rdn
  | .rup => some .rup
  | .rmm => some .rmm
  | .dyn => roundModeOfBits s.frm

/-- An instruction with a rounding mode: its word is unlisted when `rm` is dynamic and `frm` > 4 (30_encoding.md R67). -/
def State.withRounding (s : State) (i : Instr) (rm : RmField) (k : RoundMode → Result) : Result :=
  match s.effectiveRm rm with
  | none => refuse (.unlistedEncoding (encode i))
  | some r => k r

/-! ## Common steps of the floating-point families (46_rvfd_compute.md R184) -/

/-- `fput(F, fd, r); fflags <- fflags or fl; pc <- pc + 4`. -/
def State.retireF (s : State) (F : Prec) (fd : RegIdx) (r : BitVec F.width × FpFlags) : Result :=
  .next ((s.fput F fd r.1).accrue r.2).advance

/-- `x[rd] <- v; fflags <- fflags or fl; pc <- pc + 4`. -/
def State.retireXF (s : State) (rd : RegIdx) (v : BitVec s.bits) (fl : FpFlags) : Result :=
  .next ((s.writeX rd v).accrue fl).advance

/-- A listed instruction that rounds and writes a floating-point register. -/
def State.roundedF (s : State) (i : Instr) (rm : RmField) (F : Prec) (fd : RegIdx)
    (op : RoundMode → BitVec F.width × FpFlags) : Result :=
  s.listed i (s.withRounding i rm fun r => s.retireF F fd (op r))

/-- A listed instruction that rounds to a 32-bit integer, sign-extended into an integer register (47_rvf_only.md R212). -/
def State.roundedX (s : State) (i : Instr) (rm : RmField) (rd : RegIdx) (op : RoundMode → BitVec 32 × FpFlags) : Result :=
  s.listed i (s.withRounding i rm fun r => s.retireXF rd (s.sext (op r).1) (op r).2)

/-- A listed comparison: 1 or 0 into an integer register, with its flags (46_rvfd_compute.md R199). -/
def State.compareF (s : State) (i : Instr) (rd : RegIdx) (c : Bool × FpFlags) : Result :=
  s.listed i (s.retireXF rd (s.boolBits c.1) c.2)

/-- `fs1` with the given sign (46_rvfd_compute.md R194 to R196): `sign ++ a[w-2:0]`. -/
def withSign (F : Prec) (a : BitVec F.width) (neg : Bool) : BitVec F.width := F.pattern neg (FP.mag F a)

/-- `-t`, unless `t` is a NaN (46_rvfd_compute.md R187, R188, `FNM_CONVENTION = source`). -/
def negResult (F : Prec) (t : BitVec F.width × FpFlags) : BitVec F.width × FpFlags :=
  (if FP.isNaN F t.1 then t.1 else FP.neg F t.1, t.2)

/-- What `fnmsub` computes under the launch's `FNM_CONVENTION` (46_rvfd_compute.md R187). -/
def State.fnmsub (s : State) (F : Prec) (r : RoundMode) (a b c : BitVec F.width) : BitVec F.width × FpFlags :=
  match s.launch.fnm with
  | .source => negResult F (FP.fma F r a b c)
  | .ratified => FP.fma F r (FP.neg F a) b c

/-- What `fnmadd` computes under the launch's `FNM_CONVENTION` (46_rvfd_compute.md R188). -/
def State.fnmadd (s : State) (F : Prec) (r : RoundMode) (a b c : BitVec F.width) : BitVec F.width × FpFlags :=
  match s.launch.fnm with
  | .source => negResult F (FP.fma F r a b (FP.neg F c))
  | .ratified => FP.fma F r (FP.neg F a) b (FP.neg F c)

end Sys2Proof.Machine
end

