-- ==== Sys2Proof/Machine/Control.lean ====
section
/-! DEFINITION. Meanings: branches and jumps (44_rv32i_control.md R150 to R159). -/

namespace Sys2Proof.Machine

/-- `beq`: branch if equal (R151). -/
def execBeq (rs1 rs2 : RegIdx) (offset : BitVec 13) (s : State) : Result :=
  s.branch (decide (s.readX rs1 = s.readX rs2)) offset

/-- `bne`: branch if not equal (R152). -/
def execBne (rs1 rs2 : RegIdx) (offset : BitVec 13) (s : State) : Result :=
  s.branch (decide (s.readX rs1 ≠ s.readX rs2)) offset

/-- `blt`: branch if less than (R153). -/
def execBlt (rs1 rs2 : RegIdx) (offset : BitVec 13) (s : State) : Result :=
  s.branch ((s.readX rs1).slt (s.readX rs2)) offset

/-- `bge`: branch if greater or equal (R154). -/
def execBge (rs1 rs2 : RegIdx) (offset : BitVec 13) (s : State) : Result :=
  s.branch (!(s.readX rs1).slt (s.readX rs2)) offset

/-- `bltu`: branch if less than unsigned (R155). -/
def execBltu (rs1 rs2 : RegIdx) (offset : BitVec 13) (s : State) : Result :=
  s.branch ((s.readX rs1).ult (s.readX rs2)) offset

/-- `bgeu`: branch if greater or equal unsigned (R156). -/
def execBgeu (rs1 rs2 : RegIdx) (offset : BitVec 13) (s : State) : Result :=
  s.branch (!(s.readX rs1).ult (s.readX rs2)) offset

/-- `jalr`: jump and link register (R157). -/
def execJalr (rd rs1 : RegIdx) (imm : BitVec 12) (s : State) : Result :=
  s.jump rd ((s.readX rs1 + s.sext imm) &&& ~~~1#s.bits)

/-- `jal`: jump and link (R158). -/
def execJal (rd : RegIdx) (offset : BitVec 21) (s : State) : Result :=
  s.jump rd (s.pcX + s.sext offset)

end Sys2Proof.Machine
end

