-- ==== Sys2Proof/Machine/FpCompute.lean ====
section
/-! DEFINITION. Meanings: the floating-point instructions generic in precision (46_rvfd_compute.md R180 to R203). -/

namespace Sys2Proof.Machine

/-- `fmadd.s`: multiply-add, single precision (R185). -/
def execFmaddS (fd fs1 fs2 fs3 : RegIdx) (rm : RmField) (s : State) : Result :=
  s.roundedF (.fmaddS fd fs1 fs2 fs3 rm) rm .s fd fun r =>
    FP.fma .s r (s.fget .s fs1) (s.fget .s fs2) (s.fget .s fs3)

/-- `fmadd.d`: multiply-add, double precision (R185). -/
def execFmaddD (fd fs1 fs2 fs3 : RegIdx) (rm : RmField) (s : State) : Result :=
  s.roundedF (.fmaddD fd fs1 fs2 fs3 rm) rm .d fd fun r =>
    FP.fma .d r (s.fget .d fs1) (s.fget .d fs2) (s.fget .d fs3)

/-- `fmsub.s`: multiply-subtract, single precision (R186). -/
def execFmsubS (fd fs1 fs2 fs3 : RegIdx) (rm : RmField) (s : State) : Result :=
  s.roundedF (.fmsubS fd fs1 fs2 fs3 rm) rm .s fd fun r =>
    FP.fma .s r (s.fget .s fs1) (s.fget .s fs2) (FP.neg .s (s.fget .s fs3))

/-- `fmsub.d`: multiply-subtract, double precision (R186). -/
def execFmsubD (fd fs1 fs2 fs3 : RegIdx) (rm : RmField) (s : State) : Result :=
  s.roundedF (.fmsubD fd fs1 fs2 fs3 rm) rm .d fd fun r =>
    FP.fma .d r (s.fget .d fs1) (s.fget .d fs2) (FP.neg .d (s.fget .d fs3))

/-- `fnmsub.s`: negate multiply-add, single precision (R187). -/
def execFnmsubS (fd fs1 fs2 fs3 : RegIdx) (rm : RmField) (s : State) : Result :=
  s.roundedF (.fnmsubS fd fs1 fs2 fs3 rm) rm .s fd fun r =>
    s.fnmsub .s r (s.fget .s fs1) (s.fget .s fs2) (s.fget .s fs3)

/-- `fnmsub.d`: negate multiply-add, double precision (R187). -/
def execFnmsubD (fd fs1 fs2 fs3 : RegIdx) (rm : RmField) (s : State) : Result :=
  s.roundedF (.fnmsubD fd fs1 fs2 fs3 rm) rm .d fd fun r =>
    s.fnmsub .d r (s.fget .d fs1) (s.fget .d fs2) (s.fget .d fs3)

/-- `fnmadd.s`: negate multiply-subtract, single precision (R188). -/
def execFnmaddS (fd fs1 fs2 fs3 : RegIdx) (rm : RmField) (s : State) : Result :=
  s.roundedF (.fnmaddS fd fs1 fs2 fs3 rm) rm .s fd fun r =>
    s.fnmadd .s r (s.fget .s fs1) (s.fget .s fs2) (s.fget .s fs3)

/-- `fnmadd.d`: negate multiply-subtract, double precision (R188). -/
def execFnmaddD (fd fs1 fs2 fs3 : RegIdx) (rm : RmField) (s : State) : Result :=
  s.roundedF (.fnmaddD fd fs1 fs2 fs3 rm) rm .d fd fun r =>
    s.fnmadd .d r (s.fget .d fs1) (s.fget .d fs2) (s.fget .d fs3)

/-- `fadd.s`: add, single precision (R189). -/
def execFaddS (fd fs1 fs2 : RegIdx) (rm : RmField) (s : State) : Result :=
  s.roundedF (.faddS fd fs1 fs2 rm) rm .s fd fun r =>
    FP.add .s r (s.fget .s fs1) (s.fget .s fs2)

/-- `fadd.d`: add, double precision (R189). -/
def execFaddD (fd fs1 fs2 : RegIdx) (rm : RmField) (s : State) : Result :=
  s.roundedF (.faddD fd fs1 fs2 rm) rm .d fd fun r =>
    FP.add .d r (s.fget .d fs1) (s.fget .d fs2)

/-- `fsub.s`: subtract, single precision (R190). -/
def execFsubS (fd fs1 fs2 : RegIdx) (rm : RmField) (s : State) : Result :=
  s.roundedF (.fsubS fd fs1 fs2 rm) rm .s fd fun r =>
    FP.sub .s r (s.fget .s fs1) (s.fget .s fs2)

/-- `fsub.d`: subtract, double precision (R190). -/
def execFsubD (fd fs1 fs2 : RegIdx) (rm : RmField) (s : State) : Result :=
  s.roundedF (.fsubD fd fs1 fs2 rm) rm .d fd fun r =>
    FP.sub .d r (s.fget .d fs1) (s.fget .d fs2)

/-- `fmul.s`: multiply, single precision (R191). -/
def execFmulS (fd fs1 fs2 : RegIdx) (rm : RmField) (s : State) : Result :=
  s.roundedF (.fmulS fd fs1 fs2 rm) rm .s fd fun r =>
    FP.mul .s r (s.fget .s fs1) (s.fget .s fs2)

/-- `fmul.d`: multiply, double precision (R191). -/
def execFmulD (fd fs1 fs2 : RegIdx) (rm : RmField) (s : State) : Result :=
  s.roundedF (.fmulD fd fs1 fs2 rm) rm .d fd fun r =>
    FP.mul .d r (s.fget .d fs1) (s.fget .d fs2)

/-- `fdiv.s`: divide, single precision (R192). -/
def execFdivS (fd fs1 fs2 : RegIdx) (rm : RmField) (s : State) : Result :=
  s.roundedF (.fdivS fd fs1 fs2 rm) rm .s fd fun r =>
    FP.div .s r (s.fget .s fs1) (s.fget .s fs2)

/-- `fdiv.d`: divide, double precision (R192). -/
def execFdivD (fd fs1 fs2 : RegIdx) (rm : RmField) (s : State) : Result :=
  s.roundedF (.fdivD fd fs1 fs2 rm) rm .d fd fun r =>
    FP.div .d r (s.fget .d fs1) (s.fget .d fs2)

/-- `fsqrt.s`: square root, single precision (R193). -/
def execFsqrtS (fd fs1 : RegIdx) (rm : RmField) (s : State) : Result :=
  s.roundedF (.fsqrtS fd fs1 rm) rm .s fd fun r =>
    FP.sqrt .s r (s.fget .s fs1)

/-- `fsqrt.d`: square root, double precision (R193). -/
def execFsqrtD (fd fs1 : RegIdx) (rm : RmField) (s : State) : Result :=
  s.roundedF (.fsqrtD fd fs1 rm) rm .d fd fun r =>
    FP.sqrt .d r (s.fget .d fs1)

/-- `fsgnj.s`: sign injection, single precision (R194). -/
def execFsgnjS (fd fs1 fs2 : RegIdx) (s : State) : Result :=
  s.listed (.fsgnjS fd fs1 fs2)
    (.next (s.fput .s fd (withSign .s (s.fget .s fs1) (FP.sign .s (s.fget .s fs2)))).advance)

/-- `fsgnj.d`: sign injection, double precision (R194). -/
def execFsgnjD (fd fs1 fs2 : RegIdx) (s : State) : Result :=
  s.listed (.fsgnjD fd fs1 fs2)
    (.next (s.fput .d fd (withSign .d (s.fget .d fs1) (FP.sign .d (s.fget .d fs2)))).advance)

/-- `fsgnjn.s`: negate sign injection, single precision (R195). -/
def execFsgnjnS (fd fs1 fs2 : RegIdx) (s : State) : Result :=
  s.listed (.fsgnjnS fd fs1 fs2)
    (.next (s.fput .s fd (withSign .s (s.fget .s fs1) (!FP.sign .s (s.fget .s fs2)))).advance)

/-- `fsgnjn.d`: negate sign injection, double precision (R195). -/
def execFsgnjnD (fd fs1 fs2 : RegIdx) (s : State) : Result :=
  s.listed (.fsgnjnD fd fs1 fs2)
    (.next (s.fput .d fd (withSign .d (s.fget .d fs1) (!FP.sign .d (s.fget .d fs2)))).advance)

/-- `fsgnjx.s`: xor sign injection, single precision (R196). -/
def execFsgnjxS (fd fs1 fs2 : RegIdx) (s : State) : Result :=
  s.listed (.fsgnjxS fd fs1 fs2)
    (.next (s.fput .s fd (withSign .s (s.fget .s fs1) (FP.sign .s (s.fget .s fs1) ^^ FP.sign .s (s.fget .s fs2)))).advance)

/-- `fsgnjx.d`: xor sign injection, double precision (R196). -/
def execFsgnjxD (fd fs1 fs2 : RegIdx) (s : State) : Result :=
  s.listed (.fsgnjxD fd fs1 fs2)
    (.next (s.fput .d fd (withSign .d (s.fget .d fs1) (FP.sign .d (s.fget .d fs1) ^^ FP.sign .d (s.fget .d fs2)))).advance)

/-- `fmin.s`: minimum, single precision (R197). -/
def execFminS (fd fs1 fs2 : RegIdx) (s : State) : Result :=
  s.listed (.fminS fd fs1 fs2) (s.retireF .s fd (FP.min .s (s.fget .s fs1) (s.fget .s fs2)))

/-- `fmin.d`: minimum, double precision (R197). -/
def execFminD (fd fs1 fs2 : RegIdx) (s : State) : Result :=
  s.listed (.fminD fd fs1 fs2) (s.retireF .d fd (FP.min .d (s.fget .d fs1) (s.fget .d fs2)))

/-- `fmax.s`: maximum, single precision (R198). -/
def execFmaxS (fd fs1 fs2 : RegIdx) (s : State) : Result :=
  s.listed (.fmaxS fd fs1 fs2) (s.retireF .s fd (FP.max .s (s.fget .s fs1) (s.fget .s fs2)))

/-- `fmax.d`: maximum, double precision (R198). -/
def execFmaxD (fd fs1 fs2 : RegIdx) (s : State) : Result :=
  s.listed (.fmaxD fd fs1 fs2) (s.retireF .d fd (FP.max .d (s.fget .d fs1) (s.fget .d fs2)))

/-- `feq.s`: compare equal, single precision (R199). -/
def execFeqS (rd fs1 fs2 : RegIdx) (s : State) : Result :=
  s.compareF (.feqS rd fs1 fs2) rd (FP.eq .s (s.fget .s fs1) (s.fget .s fs2))

/-- `feq.d`: compare equal, double precision (R199). -/
def execFeqD (rd fs1 fs2 : RegIdx) (s : State) : Result :=
  s.compareF (.feqD rd fs1 fs2) rd (FP.eq .d (s.fget .d fs1) (s.fget .d fs2))

/-- `flt.s`: compare less, single precision (R200). -/
def execFltS (rd fs1 fs2 : RegIdx) (s : State) : Result :=
  s.compareF (.fltS rd fs1 fs2) rd (FP.lt .s (s.fget .s fs1) (s.fget .s fs2))

/-- `flt.d`: compare less, double precision (R200). -/
def execFltD (rd fs1 fs2 : RegIdx) (s : State) : Result :=
  s.compareF (.fltD rd fs1 fs2) rd (FP.lt .d (s.fget .d fs1) (s.fget .d fs2))

/-- `fle.s`: compare less or equal, single precision (R201). -/
def execFleS (rd fs1 fs2 : RegIdx) (s : State) : Result :=
  s.compareF (.fleS rd fs1 fs2) rd (FP.le .s (s.fget .s fs1) (s.fget .s fs2))

/-- `fle.d`: compare less or equal, double precision (R201). -/
def execFleD (rd fs1 fs2 : RegIdx) (s : State) : Result :=
  s.compareF (.fleD rd fs1 fs2) rd (FP.le .d (s.fget .d fs1) (s.fget .d fs2))

/-- `fclass.s`: classify, single precision (R202). -/
def execFclassS (rd fs1 : RegIdx) (s : State) : Result :=
  s.listed (.fclassS rd fs1) (s.retireX rd (s.zext (FP.classify .s (s.fget .s fs1))))

/-- `fclass.d`: classify, double precision (R202). -/
def execFclassD (rd fs1 : RegIdx) (s : State) : Result :=
  s.listed (.fclassD rd fs1) (s.retireX rd (s.zext (FP.classify .d (s.fget .d fs1))))

end Sys2Proof.Machine
end

