-- ==== Sys2Proof/Machine/FpDouble.lean ====
section
/-! DEFINITION. Meanings: the RVD-only instructions (48_rvd_only.md R220 to R227). -/

namespace Sys2Proof.Machine

/-- `fld`: load double (R220). -/
def execFld (fd rs1 : RegIdx) (imm : BitVec 12) (s : State) : Result :=
  s.listed (.fld fd rs1 imm)
    (s.load (s.effAddr rs1 imm) 8 fun data => .next (s.fput .d fd data).advance)

/-- `fsd`: store double (R221). -/
def execFsd (fs2 rs1 : RegIdx) (imm : BitVec 12) (s : State) : Result :=
  s.listed (.fsd fs2 rs1 imm) (s.store (s.effAddr rs1 imm) 8 (s.fpr fs2))

/-- `fcvt.w.d`: convert double to signed integer (R222). -/
def execFcvtWD (rd fs1 : RegIdx) (rm : RmField) (s : State) : Result :=
  s.roundedX (.fcvtWD rd fs1 rm) rm rd fun r => FP.toInt .d r true (s.fget .d fs1)

/-- `fcvt.wu.d`: convert double to unsigned integer (R223). -/
def execFcvtWuD (rd fs1 : RegIdx) (rm : RmField) (s : State) : Result :=
  s.roundedX (.fcvtWuD rd fs1 rm) rm rd fun r => FP.toInt .d r false (s.fget .d fs1)

/-- `fcvt.d.w`: convert signed integer to double (R224). -/
def execFcvtDW (fd rs1 : RegIdx) (rm : RmField) (s : State) : Result :=
  s.roundedF (.fcvtDW fd rs1 rm) rm .d fd fun r => ((FP.fromInt .d r true (s.low32 rs1)).1, flagNone)

/-- `fcvt.d.wu`: convert unsigned integer to double (R225). -/
def execFcvtDWu (fd rs1 : RegIdx) (rm : RmField) (s : State) : Result :=
  s.roundedF (.fcvtDWu fd rs1 rm) rm .d fd fun r => ((FP.fromInt .d r false (s.low32 rs1)).1, flagNone)

/-- `fcvt.s.d`: convert double to single (R226). -/
def execFcvtSD (fd fs1 : RegIdx) (rm : RmField) (s : State) : Result :=
  s.roundedF (.fcvtSD fd fs1 rm) rm .s fd fun r => FP.narrow r (s.fget .d fs1)

/-- `fcvt.d.s`: convert single to double (R227). -/
def execFcvtDS (fd fs1 : RegIdx) (rm : RmField) (s : State) : Result :=
  s.roundedF (.fcvtDS fd fs1 rm) rm .d fd fun _ => FP.widen (s.fget .s fs1)

end Sys2Proof.Machine
end

