-- ==== Sys2Proof/Machine/FpSingle.lean ====
section
/-! DEFINITION. Meanings: the RVF-only instructions (47_rvf_only.md R210 to R217). -/

namespace Sys2Proof.Machine

/-- `flw`: load float (R210). -/
def execFlw (fd rs1 : RegIdx) (imm : BitVec 12) (s : State) : Result :=
  s.listed (.flw fd rs1 imm)
    (s.load (s.effAddr rs1 imm) 4 fun data => .next (s.fput .s fd data).advance)

/-- `fsw`: store float (R211). -/
def execFsw (fs2 rs1 : RegIdx) (imm : BitVec 12) (s : State) : Result :=
  s.listed (.fsw fs2 rs1 imm) (s.store (s.effAddr rs1 imm) 4 (s.fLow32 fs2))

/-- `fcvt.w.s`: convert single to signed integer (R212). -/
def execFcvtWS (rd fs1 : RegIdx) (rm : RmField) (s : State) : Result :=
  s.roundedX (.fcvtWS rd fs1 rm) rm rd fun r => FP.toInt .s r true (s.fget .s fs1)

/-- `fcvt.wu.s`: convert single to unsigned integer (R213). -/
def execFcvtWuS (rd fs1 : RegIdx) (rm : RmField) (s : State) : Result :=
  s.roundedX (.fcvtWuS rd fs1 rm) rm rd fun r => FP.toInt .s r false (s.fget .s fs1)

/-- `fcvt.s.w`: convert signed integer to single (R214). -/
def execFcvtSW (fd rs1 : RegIdx) (rm : RmField) (s : State) : Result :=
  s.roundedF (.fcvtSW fd rs1 rm) rm .s fd fun r => FP.fromInt .s r true (s.low32 rs1)

/-- `fcvt.s.wu`: convert unsigned integer to single (R215). -/
def execFcvtSWu (fd rs1 : RegIdx) (rm : RmField) (s : State) : Result :=
  s.roundedF (.fcvtSWu fd rs1 rm) rm .s fd fun r => FP.fromInt .s r false (s.low32 rs1)

/-- `fmv.x.w`: move bits to an integer register (R216). -/
def execFmvXW (rd fs1 : RegIdx) (s : State) : Result :=
  s.listed (.fmvXW rd fs1) (s.retireX rd (s.sext (s.fLow32 fs1)))

/-- `fmv.w.x`: move bits to a floating-point register (R217). -/
def execFmvWX (fd rs1 : RegIdx) (s : State) : Result :=
  s.listed (.fmvWX fd rs1) (.next (s.fput .s fd (s.low32 rs1)).advance)

end Sys2Proof.Machine
end

