-- ==== Sys2Proof/Machine/ImmArith.lean ====
section
/-! DEFINITION. Meanings: register-immediate arithmetic and `auipc` (41_rv32i_imm_arith.md R109 to R119). -/

namespace Sys2Proof.Machine

/-- `addi`: add immediate (R110). -/
def execAddi (rd rs1 : RegIdx) (imm : BitVec 12) (s : State) : Result :=
  s.immOp rd rs1 imm (fun a b => a + b)

/-- `slli`: shift left logical immediate (R111). -/
def execSlli (rd rs1 : RegIdx) (shamt : BitVec 6) (s : State) : Result :=
  s.listed (.slli rd rs1 shamt) (s.retireX rd (s.readX rs1 <<< shamt.toNat))

/-- `slti`: set less than immediate (R112). -/
def execSlti (rd rs1 : RegIdx) (imm : BitVec 12) (s : State) : Result :=
  s.immOp rd rs1 imm (fun a b => s.boolBits (a.slt b))

/-- `sltiu`: set less than immediate unsigned (R113). -/
def execSltiu (rd rs1 : RegIdx) (imm : BitVec 12) (s : State) : Result :=
  s.immOp rd rs1 imm (fun a b => s.boolBits (a.ult b))

/-- `xori`: xor immediate (R114). -/
def execXori (rd rs1 : RegIdx) (imm : BitVec 12) (s : State) : Result :=
  s.immOp rd rs1 imm (fun a b => a ^^^ b)

/-- `srli`: shift right logical immediate (R115). -/
def execSrli (rd rs1 : RegIdx) (shamt : BitVec 6) (s : State) : Result :=
  s.listed (.srli rd rs1 shamt) (s.retireX rd (s.readX rs1 >>> shamt.toNat))

/-- `srai`: shift right arithmetic immediate (R116). -/
def execSrai (rd rs1 : RegIdx) (shamt : BitVec 6) (s : State) : Result :=
  s.listed (.srai rd rs1 shamt) (s.retireX rd ((s.readX rs1).sshiftRight shamt.toNat))

/-- `ori`: or immediate (R117). -/
def execOri (rd rs1 : RegIdx) (imm : BitVec 12) (s : State) : Result :=
  s.immOp rd rs1 imm (fun a b => a ||| b)

/-- `andi`: and immediate (R118). -/
def execAndi (rd rs1 : RegIdx) (imm : BitVec 12) (s : State) : Result :=
  s.immOp rd rs1 imm (fun a b => a &&& b)

/-- `auipc`: add upper immediate to pc (R119). -/
def execAuipc (rd : RegIdx) (upimm : BitVec 20) (s : State) : Result :=
  s.retireX rd (s.pcX + s.upperImm upimm)

end Sys2Proof.Machine
end

