-- ==== Sys2Proof/Machine/Loads.lean ====
section
/-! DEFINITION. Meanings: the integer loads of Table B.1 (40_rv32i_loads.md R100 to R105). -/

namespace Sys2Proof.Machine

/-- `lb`: load byte (R101). -/
def execLb (rd rs1 : RegIdx) (imm : BitVec 12) (s : State) : Result :=
  s.load (s.effAddr rs1 imm) 1 fun data => s.retireX rd (s.sext data)

/-- `lh`: load half (R102). -/
def execLh (rd rs1 : RegIdx) (imm : BitVec 12) (s : State) : Result :=
  s.load (s.effAddr rs1 imm) 2 fun data => s.retireX rd (s.sext data)

/-- `lw`: load word (R103). -/
def execLw (rd rs1 : RegIdx) (imm : BitVec 12) (s : State) : Result :=
  s.load (s.effAddr rs1 imm) 4 fun data => s.retireX rd (s.sext data)

/-- `lbu`: load byte unsigned (R104). -/
def execLbu (rd rs1 : RegIdx) (imm : BitVec 12) (s : State) : Result :=
  s.load (s.effAddr rs1 imm) 1 fun data => s.retireX rd (s.zext data)

/-- `lhu`: load half unsigned (R105). -/
def execLhu (rd rs1 : RegIdx) (imm : BitVec 12) (s : State) : Result :=
  s.load (s.effAddr rs1 imm) 2 fun data => s.retireX rd (s.zext data)

end Sys2Proof.Machine
end

