-- ==== Sys2Proof/Machine/RegArith.lean ====
section
/-! DEFINITION. Meanings: register-register arithmetic and `lui` (43_rv32i_reg_arith.md R129 to R140). -/

namespace Sys2Proof.Machine

/-- `add`: add (R130). -/
def execAdd (rd rs1 rs2 : RegIdx) (s : State) : Result :=
  s.regOp rd rs1 rs2 (fun a b => a + b)

/-- `sub`: subtract (R131). -/
def execSub (rd rs1 rs2 : RegIdx) (s : State) : Result :=
  s.regOp rd rs1 rs2 (fun a b => a - b)

/-- `sll`: shift left logical (R132). -/
def execSll (rd rs1 rs2 : RegIdx) (s : State) : Result :=
  s.retireX rd (s.readX rs1 <<< s.shiftAmount rs2)

/-- `slt`: set less than (R133). -/
def execSlt (rd rs1 rs2 : RegIdx) (s : State) : Result :=
  s.regOp rd rs1 rs2 (fun a b => s.boolBits (a.slt b))

/-- `sltu`: set less than unsigned (R134). -/
def execSltu (rd rs1 rs2 : RegIdx) (s : State) : Result :=
  s.regOp rd rs1 rs2 (fun a b => s.boolBits (a.ult b))

/-- `xor`: xor (R135). -/
def execXor (rd rs1 rs2 : RegIdx) (s : State) : Result :=
  s.regOp rd rs1 rs2 (fun a b => a ^^^ b)

/-- `srl`: shift right logical (R136). -/
def execSrl (rd rs1 rs2 : RegIdx) (s : State) : Result :=
  s.retireX rd (s.readX rs1 >>> s.shiftAmount rs2)

/-- `sra`: shift right arithmetic (R137). -/
def execSra (rd rs1 rs2 : RegIdx) (s : State) : Result :=
  s.retireX rd ((s.readX rs1).sshiftRight (s.shiftAmount rs2))

/-- `or`: or (R138). -/
def execOr (rd rs1 rs2 : RegIdx) (s : State) : Result :=
  s.regOp rd rs1 rs2 (fun a b => a ||| b)

/-- `and`: and (R139). -/
def execAnd (rd rs1 rs2 : RegIdx) (s : State) : Result :=
  s.regOp rd rs1 rs2 (fun a b => a &&& b)

/-- `lui`: load upper immediate (R140). -/
def execLui (rd : RegIdx) (upimm : BitVec 20) (s : State) : Result :=
  s.retireX rd (s.upperImm upimm)

end Sys2Proof.Machine
end

