-- ==== Sys2Proof/Machine/Rv64.lean ====
section
/-! DEFINITION. Meanings: the RV64I extra integer instructions (45_rv64i.md R160 to R172). -/

namespace Sys2Proof.Machine

/-- `ld`: load double word (R161). -/
def execLd (rd rs1 : RegIdx) (imm : BitVec 12) (s : State) : Result :=
  s.listed (.ld rd rs1 imm) (s.load (s.effAddr rs1 imm) 8 fun data => s.retireX rd (s.sext data))

/-- `lwu`: load word unsigned (R162). -/
def execLwu (rd rs1 : RegIdx) (imm : BitVec 12) (s : State) : Result :=
  s.listed (.lwu rd rs1 imm) (s.load (s.effAddr rs1 imm) 4 fun data => s.retireX rd (s.zext data))

/-- `addiw`: add immediate word (R163). -/
def execAddiw (rd rs1 : RegIdx) (imm : BitVec 12) (s : State) : Result :=
  s.listed (.addiw rd rs1 imm) (s.retireW rd ((s.readX rs1 + s.sext imm).setWidth 32))

/-- `slliw`: shift left logical immediate word (R164). -/
def execSlliw (rd rs1 : RegIdx) (shamt : BitVec 5) (s : State) : Result :=
  s.listed (.slliw rd rs1 shamt) (s.retireW rd (s.low32 rs1 <<< shamt.toNat))

/-- `srliw`: shift right logical immediate word (R165). -/
def execSrliw (rd rs1 : RegIdx) (shamt : BitVec 5) (s : State) : Result :=
  s.listed (.srliw rd rs1 shamt) (s.retireW rd (s.low32 rs1 >>> shamt.toNat))

/-- `sraiw`: shift right arithmetic immediate word (R166). -/
def execSraiw (rd rs1 : RegIdx) (shamt : BitVec 5) (s : State) : Result :=
  s.listed (.sraiw rd rs1 shamt) (s.retireW rd ((s.low32 rs1).sshiftRight shamt.toNat))

/-- `sd`: store double word (R167). -/
def execSd (rs2 rs1 : RegIdx) (imm : BitVec 12) (s : State) : Result :=
  s.listed (.sd rs2 rs1 imm) (s.store (s.effAddr rs1 imm) 8 ((s.readX rs2).setWidth 64))

/-- `addw`: add word (R168). -/
def execAddw (rd rs1 rs2 : RegIdx) (s : State) : Result :=
  s.listed (.addw rd rs1 rs2) (s.retireW rd ((s.readX rs1 + s.readX rs2).setWidth 32))

/-- `subw`: subtract word (R169). -/
def execSubw (rd rs1 rs2 : RegIdx) (s : State) : Result :=
  s.listed (.subw rd rs1 rs2) (s.retireW rd ((s.readX rs1 - s.readX rs2).setWidth 32))

/-- `sllw`: shift left logical word (R170). -/
def execSllw (rd rs1 rs2 : RegIdx) (s : State) : Result :=
  s.listed (.sllw rd rs1 rs2) (s.retireW rd (s.low32 rs1 <<< s.shiftAmountW rs2))

/-- `srlw`: shift right logical word (R171). -/
def execSrlw (rd rs1 rs2 : RegIdx) (s : State) : Result :=
  s.listed (.srlw rd rs1 rs2) (s.retireW rd (s.low32 rs1 >>> s.shiftAmountW rs2))

/-- `sraw`: shift right arithmetic word (R172). -/
def execSraw (rd rs1 rs2 : RegIdx) (s : State) : Result :=
  s.listed (.sraw rd rs1 rs2) (s.retireW rd ((s.low32 rs1).sshiftRight (s.shiftAmountW rs2)))

end Sys2Proof.Machine
end

