-- ==== Sys2Proof/Machine/Stores.lean ====
section
/-! DEFINITION. Meanings: the integer stores of Table B.1 (42_rv32i_stores.md R120 to R123). -/

namespace Sys2Proof.Machine

/-- `sb`: store byte (R121). -/
def execSb (rs2 rs1 : RegIdx) (imm : BitVec 12) (s : State) : Result :=
  s.store (s.effAddr rs1 imm) 1 ((s.readX rs2).setWidth 8)

/-- `sh`: store half (R122). -/
def execSh (rs2 rs1 : RegIdx) (imm : BitVec 12) (s : State) : Result :=
  s.store (s.effAddr rs1 imm) 2 ((s.readX rs2).setWidth 16)

/-- `sw`: store word (R123). -/
def execSw (rs2 rs1 : RegIdx) (imm : BitVec 12) (s : State) : Result :=
  s.store (s.effAddr rs1 imm) 4 ((s.readX rs2).setWidth 32)

end Sys2Proof.Machine
end

