-- ==== Sys2Proof/Machine/Dispatch.lean ====
section
/-! DEFINITION. exec: each instruction's arm calls its meaning. -/

namespace Sys2Proof.Machine

/-- The execution of one decoded instruction (20_memory.md R40). -/
def exec (i : Instr) (s : State) : Host.Outcome State Fault Refusal :=
  match i with
  | .lb rd rs1 imm => Sys2Proof.Machine.execLb rd rs1 imm s
  | .lh rd rs1 imm => Sys2Proof.Machine.execLh rd rs1 imm s
  | .lw rd rs1 imm => Sys2Proof.Machine.execLw rd rs1 imm s
  | .lbu rd rs1 imm => Sys2Proof.Machine.execLbu rd rs1 imm s
  | .lhu rd rs1 imm => Sys2Proof.Machine.execLhu rd rs1 imm s
  | .addi rd rs1 imm => Sys2Proof.Machine.execAddi rd rs1 imm s
  | .slli rd rs1 shamt => Sys2Proof.Machine.execSlli rd rs1 shamt s
  | .slti rd rs1 imm => Sys2Proof.Machine.execSlti rd rs1 imm s
  | .sltiu rd rs1 imm => Sys2Proof.Machine.execSltiu rd rs1 imm s
  | .xori rd rs1 imm => Sys2Proof.Machine.execXori rd rs1 imm s
  | .srli rd rs1 shamt => Sys2Proof.Machine.execSrli rd rs1 shamt s
  | .srai rd rs1 shamt => Sys2Proof.Machine.execSrai rd rs1 shamt s
  | .ori rd rs1 imm => Sys2Proof.Machine.execOri rd rs1 imm s
  | .andi rd rs1 imm => Sys2Proof.Machine.execAndi rd rs1 imm s
  | .auipc rd upimm => Sys2Proof.Machine.execAuipc rd upimm s
  | .sb rs2 rs1 imm => Sys2Proof.Machine.execSb rs2 rs1 imm s
  | .sh rs2 rs1 imm => Sys2Proof.Machine.execSh rs2 rs1 imm s
  | .sw rs2 rs1 imm => Sys2Proof.Machine.execSw rs2 rs1 imm s
  | .add rd rs1 rs2 => Sys2Proof.Machine.execAdd rd rs1 rs2 s
  | .sub rd rs1 rs2 => Sys2Proof.Machine.execSub rd rs1 rs2 s
  | .sll rd rs1 rs2 => Sys2Proof.Machine.execSll rd rs1 rs2 s
  | .slt rd rs1 rs2 => Sys2Proof.Machine.execSlt rd rs1 rs2 s
  | .sltu rd rs1 rs2 => Sys2Proof.Machine.execSltu rd rs1 rs2 s
  | .xor rd rs1 rs2 => Sys2Proof.Machine.execXor rd rs1 rs2 s
  | .srl rd rs1 rs2 => Sys2Proof.Machine.execSrl rd rs1 rs2 s
  | .sra rd rs1 rs2 => Sys2Proof.Machine.execSra rd rs1 rs2 s
  | .or rd rs1 rs2 => Sys2Proof.Machine.execOr rd rs1 rs2 s
  | .and rd rs1 rs2 => Sys2Proof.Machine.execAnd rd rs1 rs2 s
  | .lui rd upimm => Sys2Proof.Machine.execLui rd upimm s
  | .beq rs1 rs2 offset => Sys2Proof.Machine.execBeq rs1 rs2 offset s
  | .bne rs1 rs2 offset => Sys2Proof.Machine.execBne rs1 rs2 offset s
  | .blt rs1 rs2 offset => Sys2Proof.Machine.execBlt rs1 rs2 offset s
  | .bge rs1 rs2 offset => Sys2Proof.Machine.execBge rs1 rs2 offset s
  | .bltu rs1 rs2 offset => Sys2Proof.Machine.execBltu rs1 rs2 offset s
  | .bgeu rs1 rs2 offset => Sys2Proof.Machine.execBgeu rs1 rs2 offset s
  | .jalr rd rs1 imm => Sys2Proof.Machine.execJalr rd rs1 imm s
  | .jal rd offset => Sys2Proof.Machine.execJal rd offset s
  | .ld rd rs1 imm => Sys2Proof.Machine.execLd rd rs1 imm s
  | .lwu rd rs1 imm => Sys2Proof.Machine.execLwu rd rs1 imm s
  | .addiw rd rs1 imm => Sys2Proof.Machine.execAddiw rd rs1 imm s
  | .slliw rd rs1 shamt => Sys2Proof.Machine.execSlliw rd rs1 shamt s
  | .srliw rd rs1 shamt => Sys2Proof.Machine.execSrliw rd rs1 shamt s
  | .sraiw rd rs1 shamt => Sys2Proof.Machine.execSraiw rd rs1 shamt s
  | .sd rs2 rs1 imm => Sys2Proof.Machine.execSd rs2 rs1 imm s
  | .addw rd rs1 rs2 => Sys2Proof.Machine.execAddw rd rs1 rs2 s
  | .subw rd rs1 rs2 => Sys2Proof.Machine.execSubw rd rs1 rs2 s
  | .sllw rd rs1 rs2 => Sys2Proof.Machine.execSllw rd rs1 rs2 s
  | .srlw rd rs1 rs2 => Sys2Proof.Machine.execSrlw rd rs1 rs2 s
  | .sraw rd rs1 rs2 => Sys2Proof.Machine.execSraw rd rs1 rs2 s
  | .fmaddS fd fs1 fs2 fs3 rm => Sys2Proof.Machine.execFmaddS fd fs1 fs2 fs3 rm s
  | .fmaddD fd fs1 fs2 fs3 rm => Sys2Proof.Machine.execFmaddD fd fs1 fs2 fs3 rm s
  | .fmsubS fd fs1 fs2 fs3 rm => Sys2Proof.Machine.execFmsubS fd fs1 fs2 fs3 rm s
  | .fmsubD fd fs1 fs2 fs3 rm => Sys2Proof.Machine.execFmsubD fd fs1 fs2 fs3 rm s
  | .fnmsubS fd fs1 fs2 fs3 rm => Sys2Proof.Machine.execFnmsubS fd fs1 fs2 fs3 rm s
  | .fnmsubD fd fs1 fs2 fs3 rm => Sys2Proof.Machine.execFnmsubD fd fs1 fs2 fs3 rm s
  | .fnmaddS fd fs1 fs2 fs3 rm => Sys2Proof.Machine.execFnmaddS fd fs1 fs2 fs3 rm s
  | .fnmaddD fd fs1 fs2 fs3 rm => Sys2Proof.Machine.execFnmaddD fd fs1 fs2 fs3 rm s
  | .faddS fd fs1 fs2 rm => Sys2Proof.Machine.execFaddS fd fs1 fs2 rm s
  | .faddD fd fs1 fs2 rm => Sys2Proof.Machine.execFaddD fd fs1 fs2 rm s
  | .fsubS fd fs1 fs2 rm => Sys2Proof.Machine.execFsubS fd fs1 fs2 rm s
  | .fsubD fd fs1 fs2 rm => Sys2Proof.Machine.execFsubD fd fs1 fs2 rm s
  | .fmulS fd fs1 fs2 rm => Sys2Proof.Machine.execFmulS fd fs1 fs2 rm s
  | .fmulD fd fs1 fs2 rm => Sys2Proof.Machine.execFmulD fd fs1 fs2 rm s
  | .fdivS fd fs1 fs2 rm => Sys2Proof.Machine.execFdivS fd fs1 fs2 rm s
  | .fdivD fd fs1 fs2 rm => Sys2Proof.Machine.execFdivD fd fs1 fs2 rm s
  | .fsqrtS fd fs1 rm => Sys2Proof.Machine.execFsqrtS fd fs1 rm s
  | .fsqrtD fd fs1 rm => Sys2Proof.Machine.execFsqrtD fd fs1 rm s
  | .fsgnjS fd fs1 fs2 => Sys2Proof.Machine.execFsgnjS fd fs1 fs2 s
  | .fsgnjD fd fs1 fs2 => Sys2Proof.Machine.execFsgnjD fd fs1 fs2 s
  | .fsgnjnS fd fs1 fs2 => Sys2Proof.Machine.execFsgnjnS fd fs1 fs2 s
  | .fsgnjnD fd fs1 fs2 => Sys2Proof.Machine.execFsgnjnD fd fs1 fs2 s
  | .fsgnjxS fd fs1 fs2 => Sys2Proof.Machine.execFsgnjxS fd fs1 fs2 s
  | .fsgnjxD fd fs1 fs2 => Sys2Proof.Machine.execFsgnjxD fd fs1 fs2 s
  | .fminS fd fs1 fs2 => Sys2Proof.Machine.execFminS fd fs1 fs2 s
  | .fminD fd fs1 fs2 => Sys2Proof.Machine.execFminD fd fs1 fs2 s
  | .fmaxS fd fs1 fs2 => Sys2Proof.Machine.execFmaxS fd fs1 fs2 s
  | .fmaxD fd fs1 fs2 => Sys2Proof.Machine.execFmaxD fd fs1 fs2 s
  | .feqS rd fs1 fs2 => Sys2Proof.Machine.execFeqS rd fs1 fs2 s
  | .feqD rd fs1 fs2 => Sys2Proof.Machine.execFeqD rd fs1 fs2 s
  | .fltS rd fs1 fs2 => Sys2Proof.Machine.execFltS rd fs1 fs2 s
  | .fltD rd fs1 fs2 => Sys2Proof.Machine.execFltD rd fs1 fs2 s
  | .fleS rd fs1 fs2 => Sys2Proof.Machine.execFleS rd fs1 fs2 s
  | .fleD rd fs1 fs2 => Sys2Proof.Machine.execFleD rd fs1 fs2 s
  | .fclassS rd fs1 => Sys2Proof.Machine.execFclassS rd fs1 s
  | .fclassD rd fs1 => Sys2Proof.Machine.execFclassD rd fs1 s
  | .flw fd rs1 imm => Sys2Proof.Machine.execFlw fd rs1 imm s
  | .fsw fs2 rs1 imm => Sys2Proof.Machine.execFsw fs2 rs1 imm s
  | .fcvtWS rd fs1 rm => Sys2Proof.Machine.execFcvtWS rd fs1 rm s
  | .fcvtWuS rd fs1 rm => Sys2Proof.Machine.execFcvtWuS rd fs1 rm s
  | .fcvtSW fd rs1 rm => Sys2Proof.Machine.execFcvtSW fd rs1 rm s
  | .fcvtSWu fd rs1 rm => Sys2Proof.Machine.execFcvtSWu fd rs1 rm s
  | .fmvXW rd fs1 => Sys2Proof.Machine.execFmvXW rd fs1 s
  | .fmvWX fd rs1 => Sys2Proof.Machine.execFmvWX fd rs1 s
  | .fld fd rs1 imm => Sys2Proof.Machine.execFld fd rs1 imm s
  | .fsd fs2 rs1 imm => Sys2Proof.Machine.execFsd fs2 rs1 imm s
  | .fcvtWD rd fs1 rm => Sys2Proof.Machine.execFcvtWD rd fs1 rm s
  | .fcvtWuD rd fs1 rm => Sys2Proof.Machine.execFcvtWuD rd fs1 rm s
  | .fcvtDW fd rs1 rm => Sys2Proof.Machine.execFcvtDW fd rs1 rm s
  | .fcvtDWu fd rs1 rm => Sys2Proof.Machine.execFcvtDWu fd rs1 rm s
  | .fcvtSD fd fs1 rm => Sys2Proof.Machine.execFcvtSD fd fs1 rm s
  | .fcvtDS fd fs1 rm => Sys2Proof.Machine.execFcvtDS fd fs1 rm s

end Sys2Proof.Machine
end

