-- ==== Sys2Proof/Machine/Step.lean ====
section
/-! DEFINITION. One step of the machine (60_exceptions.md R240), and the loading of one instruction at the pc. -/

namespace Sys2Proof.Machine

/-- One step: at `END_PC` the run has ended (70_reset_and_hazards.md R262); otherwise fetch (20_memory.md R36), decode
(30_encoding.md R64) and execute. -/
def step (s : State) : Host.Outcome State Fault Refusal :=
  if s.atEnd then raise .runEnded
  else
    match s.fetch with
    | .error e => raise e
    | .ok w =>
      match decode s.launch.variant w with
      | .error _ => refuse (.unlistedEncoding w)
      | .ok i => exec i s

/-- The state with the word of `nbits` bits `w` (the bits above are 0) stored, little-endian, at the pc: what the host does
when it builds a launch's image (70_reset_and_hazards.md R261). It is not a store of the machine: it may write `EXEC`. -/
def State.withFetchWord (s : State) (nbits w : Nat) : State :=
  { s with mem := s.mem.setAll (s.accessAddrs s.pcX 4) (leBytes 4 (w % 2 ^ nbits)) }

end Sys2Proof.Machine
end

