-- ==== Sys2Proof/Safety.lean ====
section
/-! DEFINITION. What claims are stated with: families of instructions, the invariant of the state, final states and runs. -/

namespace Sys2Proof

/-- The instructions that read data memory (60_exceptions.md R241). -/
def Instr.isLoad : Instr → Bool
  | .lb .. | .lh .. | .lw .. | .lbu .. | .lhu .. | .ld .. | .lwu .. | .flw .. | .fld .. => true
  | _ => false

/-- The instructions that write memory (60_exceptions.md R241). -/
def Instr.isStore : Instr → Bool
  | .sb .. | .sh .. | .sw .. | .sd .. | .fsw .. | .fsd .. => true
  | _ => false

/-- The instructions that may set the pc to anything but `pc + 4` (10_state.md R13). -/
def Instr.isTransfer : Instr → Bool
  | .beq .. | .bne .. | .blt .. | .bge .. | .bltu .. | .bgeu .. | .jal .. | .jalr .. => true
  | _ => false

/-- The instructions of Table B.3, the only ones that touch floating-point state (30_encoding.md R65). -/
def Instr.isFloat : Instr → Bool
  | .fmaddS .. | .fmaddD .. | .fmsubS .. | .fmsubD .. | .fnmsubS .. | .fnmsubD .. | .fnmaddS .. | .fnmaddD .. => true
  | .faddS .. | .faddD .. | .fsubS .. | .fsubD .. | .fmulS .. | .fmulD .. | .fdivS .. | .fdivD .. => true
  | .fsqrtS .. | .fsqrtD .. | .fsgnjS .. | .fsgnjD .. | .fsgnjnS .. | .fsgnjnD .. | .fsgnjxS .. | .fsgnjxD .. => true
  | .fminS .. | .fminD .. | .fmaxS .. | .fmaxD .. | .feqS .. | .feqD .. | .fltS .. | .fltD .. => true
  | .fleS .. | .fleD .. | .fclassS .. | .fclassD .. | .flw .. | .fsw .. | .fld .. | .fsd .. => true
  | .fcvtWS .. | .fcvtWuS .. | .fcvtSW .. | .fcvtSWu .. | .fmvXW .. | .fmvWX .. => true
  | .fcvtWD .. | .fcvtWuD .. | .fcvtDW .. | .fcvtDWu .. | .fcvtSD .. | .fcvtDS .. => true
  | _ => false

/-- The bytes, the base register and the immediate of a load or a store (20_memory.md R30, R37). -/
def Instr.memOperand : Instr → Option (Nat × RegIdx × BitVec 12)
  | .lb _ rs1 imm | .lbu _ rs1 imm | .sb _ rs1 imm => some (1, rs1, imm)
  | .lh _ rs1 imm | .lhu _ rs1 imm | .sh _ rs1 imm => some (2, rs1, imm)
  | .lw _ rs1 imm | .lwu _ rs1 imm | .sw _ rs1 imm | .flw _ rs1 imm | .fsw _ rs1 imm => some (4, rs1, imm)
  | .ld _ rs1 imm | .sd _ rs1 imm | .fld _ rs1 imm | .fsd _ rs1 imm => some (8, rs1, imm)
  | _ => none

/-- The integer register an instruction writes: the last table of 10_state.md section 1 ("write `x[rd]`"). -/
def Instr.destX : Instr → Option RegIdx
  | .lb rd _ _ | .lh rd _ _ | .lw rd _ _ | .lbu rd _ _ | .lhu rd _ _ | .ld rd _ _ | .lwu rd _ _ => some rd
  | .addi rd _ _ | .slti rd _ _ | .sltiu rd _ _ | .xori rd _ _ | .ori rd _ _ | .andi rd _ _ | .addiw rd _ _ => some rd
  | .slli rd _ _ | .srli rd _ _ | .srai rd _ _ | .slliw rd _ _ | .srliw rd _ _ | .sraiw rd _ _ => some rd
  | .auipc rd _ | .lui rd _ | .jal rd _ | .jalr rd _ _ => some rd
  | .add rd _ _ | .sub rd _ _ | .sll rd _ _ | .slt rd _ _ | .sltu rd _ _ | .xor rd _ _ | .srl rd _ _ => some rd
  | .sra rd _ _ | .or rd _ _ | .and rd _ _ | .addw rd _ _ | .subw rd _ _ | .sllw rd _ _ | .srlw rd _ _ => some rd
  | .sraw rd _ _ | .feqS rd _ _ | .feqD rd _ _ | .fltS rd _ _ | .fltD rd _ _ | .fleS rd _ _ | .fleD rd _ _ => some rd
  | .fclassS rd _ | .fclassD rd _ | .fmvXW rd _ => some rd
  | .fcvtWS rd _ _ | .fcvtWuS rd _ _ | .fcvtWD rd _ _ | .fcvtWuD rd _ _ => some rd
  | _ => none

/-- The floating-point register an instruction writes: the table of 10_state.md section 3 ("write `f[rd]`"). -/
def Instr.destF : Instr → Option RegIdx
  | .fmaddS fd _ _ _ _ | .fmaddD fd _ _ _ _ | .fmsubS fd _ _ _ _ | .fmsubD fd _ _ _ _ => some fd
  | .fnmsubS fd _ _ _ _ | .fnmsubD fd _ _ _ _ | .fnmaddS fd _ _ _ _ | .fnmaddD fd _ _ _ _ => some fd
  | .faddS fd _ _ _ | .faddD fd _ _ _ | .fsubS fd _ _ _ | .fsubD fd _ _ _ => some fd
  | .fmulS fd _ _ _ | .fmulD fd _ _ _ | .fdivS fd _ _ _ | .fdivD fd _ _ _ => some fd
  | .fsqrtS fd _ _ | .fsqrtD fd _ _ | .fsgnjS fd _ _ | .fsgnjD fd _ _ | .fsgnjnS fd _ _ | .fsgnjnD fd _ _ => some fd
  | .fsgnjxS fd _ _ | .fsgnjxD fd _ _ | .fminS fd _ _ | .fminD fd _ _ | .fmaxS fd _ _ | .fmaxD fd _ _ => some fd
  | .flw fd _ _ | .fld fd _ _ | .fcvtSW fd _ _ | .fcvtSWu fd _ _ | .fcvtDW fd _ _ | .fcvtDWu fd _ _ => some fd
  | .fcvtSD fd _ _ | .fcvtDS fd _ _ | .fmvWX fd _ => some fd
  | _ => none

/-- The `rm` field of the rows whose funct3 cell is `rm` (30_encoding.md R62). -/
def Instr.rmField : Instr → Option RmField
  | .fmaddS _ _ _ _ rm | .fmaddD _ _ _ _ rm | .fmsubS _ _ _ _ rm | .fmsubD _ _ _ _ rm => some rm
  | .fnmsubS _ _ _ _ rm | .fnmsubD _ _ _ _ rm | .fnmaddS _ _ _ _ rm | .fnmaddD _ _ _ _ rm => some rm
  | .faddS _ _ _ rm | .faddD _ _ _ rm | .fsubS _ _ _ rm | .fsubD _ _ _ rm => some rm
  | .fmulS _ _ _ rm | .fmulD _ _ _ rm | .fdivS _ _ _ rm | .fdivD _ _ _ rm => some rm
  | .fsqrtS _ _ rm | .fsqrtD _ _ rm | .fcvtWS _ _ rm | .fcvtWuS _ _ rm | .fcvtSW _ _ rm | .fcvtSWu _ _ rm => some rm
  | .fcvtWD _ _ rm | .fcvtWuD _ _ rm | .fcvtDW _ _ rm | .fcvtDWu _ _ rm | .fcvtSD _ _ rm | .fcvtDS _ _ rm => some rm
  | _ => none

end Sys2Proof

namespace Sys2Proof.Machine

/-- Every listed address is below the bound. -/
def Memory.below (bound : Nat) (m : Memory) : Bool := m.all fun c => decide (c.1 < bound)

/-- What holds at reset and is kept by every step: the launch is one R261 allows, `pc` is an XLEN-bit multiple of 4
(10_state.md R14), register containers hold XLEN-bit and FLEN-bit values and register 0 holds zero (R10, R11, R15), `frm` is
its reset value (R16), and memory is canonical and inside the address space (R20). -/
structure Inv (s : State) : Prop where
  launch_wf : s.launch.wf = true
  pc_lt : s.pc.toNat < 2 ^ s.bits
  pc_aligned : s.pc.toNat % 4 = 0
  x_lt : ∀ i : Fin 32, (s.x[i]).toNat < 2 ^ s.bits
  x_zero : s.x[0] = 0#64
  f_lt : ∀ i : Fin 32, (s.f[i]).toNat < 2 ^ s.launch.variant.flen
  frm_reset : s.frm = s.launch.frmReset
  mem_wf : s.mem.wf = true
  mem_below : s.mem.below (2 ^ s.bits) = true

/-- `t` is reached from `s` by steps that each answer a next state. -/
inductive Reaches : State → State → Prop where
  | refl (s : State) : Reaches s s
  | tail {s t u : State} : Reaches s t → step t = .next u → Reaches s u

/-- The run from `s` ends normally in the final state `t` (70_reset_and_hazards.md R262). -/
def EndsIn (s t : State) : Prop := Reaches s t ∧ t.atEnd = true

/-- The executor under fuel (70_reset_and_hazards.md R262): the final state, if it is reached within the fuel. -/
def runToEnd : Nat → State → Option State
  | 0, s => if s.atEnd then some s else none
  | n + 1, s =>
    if s.atEnd then some s
    else
      match step s with
      | .next t => runToEnd n t
      | .fault _ => none
      | .refused _ => none

/-! ## What an instruction did

The numbers a claim speaks of, and the three ways an instruction changes the state: it writes an integer register, it writes
a floating-point register, or it writes memory. Each says everything that does not change. -/

/-- `unsigned(x[i])`. -/
def State.ux (s : State) (i : RegIdx) : Int := (s.readX i).toNat

/-- `signed(x[i])`. -/
def State.sx (s : State) (i : RegIdx) : Int := (s.readX i).toInt

/-- The pc as a number. -/
def State.upc (s : State) : Int := s.pcX.toNat

/-- `2^XLEN`. -/
def State.modulus (s : State) : Int := 2 ^ s.bits

/-- `n` bytes from `addr`: aligned if the launch asks for it, and every byte in the set of regions (20_memory.md R33, R34). -/
def State.Accessible (s : State) (regions : List Region) (addr : BitVec s.bits) (n : Nat) : Prop :=
  (s.launch.misaligned = .split ∨ addr.toNat % n = 0) ∧ ∀ a ∈ s.accessAddrs addr n, inRegions regions a = true

/-- No general register, no floating-point state, no byte of memory and no parameter differs. -/
structure SameButPc (s t : State) : Prop where
  launch : t.launch = s.launch
  gpr : ∀ j, t.gpr j = s.gpr j
  fpr : ∀ j, t.fpr j = s.fpr j
  frm : t.frm = s.frm
  fflags : t.fflags = s.fflags
  bytes : ∀ a, t.mem.byte a = s.mem.byte a

/-- Nothing but the bytes of memory differs. -/
structure SameExceptBytes (s t : State) : Prop where
  launch : t.launch = s.launch
  gpr : ∀ j, t.gpr j = s.gpr j
  fpr : ∀ j, t.fpr j = s.fpr j
  frm : t.frm = s.frm
  fflags : t.fflags = s.fflags
  pc : t.pc = s.pc

/-- `t` is `s` with `x[rd]` holding `z` modulo `2^XLEN` (nothing, if `rd` is 0), the flags `fl` accrued and the pc at `pc'`
modulo `2^XLEN`. -/
structure WroteX (s t : State) (rd : RegIdx) (z : Int) (fl : FpFlags) (pc' : Int) : Prop where
  launch : t.launch = s.launch
  dest : rd ≠ 0#5 → ((t.gpr rd).toNat : Int) = z % s.modulus
  zero : t.gpr 0#5 = 0#64
  others : ∀ j, j ≠ rd → t.gpr j = s.gpr j
  fpr : ∀ j, t.fpr j = s.fpr j
  frm : t.frm = s.frm
  fflags : t.fflags = s.fflags ||| fl
  bytes : ∀ a, t.mem.byte a = s.mem.byte a
  pc : (t.pc.toNat : Int) = pc' % s.modulus

/-- `t` is `s` with the container of `f[fd]` holding `c`, the flags `fl` accrued and the pc advanced by 4. -/
structure WroteF (s t : State) (fd : RegIdx) (c : XWord) (fl : FpFlags) : Prop where
  launch : t.launch = s.launch
  dest : t.fpr fd = c
  others : ∀ j, j ≠ fd → t.fpr j = s.fpr j
  gpr : ∀ j, t.gpr j = s.gpr j
  frm : t.frm = s.frm
  fflags : t.fflags = s.fflags ||| fl
  bytes : ∀ a, t.mem.byte a = s.mem.byte a
  pc : (t.pc.toNat : Int) = (s.upc + 4) % s.modulus

/-- `t` is `s` with the `n` bytes of `v` stored from `addr`, the least significant first, and the pc advanced by 4. -/
structure Stored (s t : State) (addr : BitVec s.bits) (n : Nat) (v : Nat) : Prop where
  launch : t.launch = s.launch
  gpr : ∀ j, t.gpr j = s.gpr j
  fpr : ∀ j, t.fpr j = s.fpr j
  frm : t.frm = s.frm
  fflags : t.fflags = s.fflags
  stored : ∀ k, k < n → t.mem.byte (addr + BitVec.ofNat s.bits k).toNat = BitVec.ofNat 8 (v / 256 ^ k)
  bytes : ∀ a, a ∉ s.accessAddrs addr n → t.mem.byte a = s.mem.byte a
  wf : t.mem.wf = true
  pc : (t.pc.toNat : Int) = (s.upc + 4) % s.modulus

/-- The instruction completes, leaving `x[rd]` at `z` modulo `2^XLEN`, accruing `fl`, and continuing at `pc + 4`. -/
def CompletesX (i : Instr) (s : State) (rd : RegIdx) (z : Int) (fl : FpFlags) : Prop :=
  ∃ t, exec i s = .next t ∧ WroteX s t rd z fl (s.upc + 4)

/-- The instruction completes, leaving a result of precision `F` in `f[fd]` (boxed by R183) and accruing its flags. -/
def CompletesF (i : Instr) (s : State) (F : Prec) (fd : RegIdx) (r : BitVec F.width × FpFlags) : Prop :=
  ∃ t, exec i s = .next t ∧ WroteF s t fd (s.resultBits F r.1) r.2

/-- The instruction completes, storing the `n` low-order bytes of `v` from `addr`. -/
def CompletesStore (i : Instr) (s : State) (addr : BitVec s.bits) (n : Nat) (v : Nat) : Prop :=
  ∃ t, exec i s = .next t ∧ Stored s t addr n v

/-- The instruction completes, changing the pc alone. -/
def CompletesJump (i : Instr) (s : State) (pc' : Int) : Prop :=
  ∃ t, exec i s = .next t ∧ SameButPc s t ∧ (t.pc.toNat : Int) = pc' % s.modulus

/-- The condition of a conditional branch (44_rv32i_control.md R151 to R156); none for any other instruction. -/
def State.branchCondition (s : State) : Instr → Option (Bool × BitVec 13)
  | .beq rs1 rs2 offset => some (decide (s.ux rs1 = s.ux rs2), offset)
  | .bne rs1 rs2 offset => some (decide (s.ux rs1 ≠ s.ux rs2), offset)
  | .blt rs1 rs2 offset => some (decide (s.sx rs1 < s.sx rs2), offset)
  | .bge rs1 rs2 offset => some (decide (s.sx rs2 ≤ s.sx rs1), offset)
  | .bltu rs1 rs2 offset => some (decide (s.ux rs1 < s.ux rs2), offset)
  | .bgeu rs1 rs2 offset => some (decide (s.ux rs2 ≤ s.ux rs1), offset)
  | _ => none

/-- Where an instruction that completes leaves the pc, before the reduction modulo `2^XLEN` (10_state.md R13): `BTA` of a taken
branch, `JTA` of `jal`, the register target of `jalr` with bit 0 cleared (44_rv32i_control.md R157, R158), else `pc + 4`. -/
def State.successor (s : State) (i : Instr) : Int :=
  match i with
  | .jal _ offset => s.upc + offset.toInt
  | .jalr _ rs1 imm => (s.ux rs1 + imm.toInt) % s.modulus / 2 * 2
  | i =>
    match s.branchCondition i with
    | some (true, offset) => s.upc + offset.toInt
    | some (false, _) => s.upc + 4
    | none => s.upc + 4

/-! ## The values of floating-point patterns (46_rvfd_compute.md R180) -/

/-- Neither an infinity nor a NaN. -/
def FP.isFinite (F : Prec) (a : BitVec F.width) : Bool := decide (FP.mag F a < F.infMag)

/-- The number a finite pattern stands for. -/
def FP.value (F : Prec) (a : BitVec F.width) : ℚ :=
  (if FP.sign F a then -1 else 1) * (FP.sig F a : ℚ) * (2 : ℚ) ^ FP.exp F a

/-- The order's place of a pattern that is not a NaN: the infinities stand outside the numbers, and the zeros share a place. -/
def FP.place (F : Prec) (a : BitVec F.width) : WithBot (WithTop ℚ) :=
  if FP.isInf F a then (if FP.sign F a then ⊥ else ((⊤ : WithTop ℚ) : WithBot (WithTop ℚ)))
  else ((FP.value F a : WithTop ℚ) : WithBot (WithTop ℚ))

/-- The largest finite value of a format: all of its significand's bits are ones, at the largest exponent. -/
def FP.maxFinite (F : Prec) : ℚ := (2 - 2 ^ (-(F.fracBits : Int))) * 2 ^ F.bias

/-- The exact value `x` overflows under `rm`: rounded with an unbounded exponent, it is larger than the largest finite value
(R180 item 3). To nearest, that starts half a last place above it; away from zero, right above it; toward zero, at the next
value. -/
def FP.Overflows (F : Prec) (rm : RoundMode) (x : ℝ) : Prop :=
  let next : ℝ := 2 ^ (F.bias + 1)
  match rm with
  | .rne | .rmm => (FP.maxFinite F + next) / 2 ≤ |x|
  | .rtz => next ≤ |x|
  | .rdn => next ≤ x ∨ x < -FP.maxFinite F
  | .rup => (FP.maxFinite F : ℝ) < x ∨ x ≤ -next

/-- What an overflow of the given sign delivers: infinity, or the largest finite value where `rm` rounds toward zero there, with
OF and NX (R180 item 3; notes/assumptions/10.md). -/
def FP.Overflowed (F : Prec) (rm : RoundMode) (neg : Bool) (r : BitVec F.width × FpFlags) : Prop :=
  r.2 = flagOF ||| flagNX ∧
  r.1 = if rm = .rtz ∨ (rm = .rdn ∧ neg = false) ∨ (rm = .rup ∧ neg = true) then F.pattern neg (F.infMag - 1)
    else F.infinity neg

/-- The exact value `x` is tiny under `rm`: rounded with an unbounded exponent, it is below the least normal value (R180 item 3:
"detected after rounding"; notes/assumptions/10.md). With an unbounded exponent the next value below the least normal one is
`2 ^ (minExp - 1)` less: to nearest, tiny ends half of that below it; away from zero, at that value; toward zero, at it. -/
def FP.Tiny (F : Prec) (rm : RoundMode) (x : ℝ) : Prop :=
  let normal : ℝ := 2 ^ (1 - (F.bias : Int))
  let last : ℝ := 2 ^ (F.minExp - 1)
  match rm with
  | .rne | .rmm => |x| < normal - last / 2
  | .rtz => |x| < normal
  | .rdn => last - normal ≤ x ∧ x < normal
  | .rup => -normal < x ∧ x ≤ normal - last

/-- `r` is the exact value `x` rounded once to a finite value of the format under `rm`, with the flags that go with it: none for
an exact result, NX for an inexact one, and UF with it for a tiny one (R180 items 2 and 3; R181). -/
structure FP.RoundedOnce (F : Prec) (rm : RoundMode) (x : ℝ) (r : BitVec F.width × FpFlags) : Prop where
  finite : FP.isFinite F r.1 = true
  sign : x ≠ 0 → (FP.sign F r.1 = true ↔ x < 0)
  noneBelow : ∀ c, FP.isFinite F c = true → ¬ ((FP.value F r.1 : ℝ) < FP.value F c ∧ FP.value F c ≤ x)
  noneAbove : ∀ c, FP.isFinite F c = true → ¬ (x ≤ FP.value F c ∧ (FP.value F c : ℝ) < FP.value F r.1)
  down : rm = .rdn → FP.value F r.1 ≤ x
  up : rm = .rup → x ≤ FP.value F r.1
  towardZero : rm = .rtz → |(FP.value F r.1 : ℝ)| ≤ |x|
  nearest : rm = .rne ∨ rm = .rmm → ∀ c, FP.isFinite F c = true → |FP.value F r.1 - x| ≤ |FP.value F c - x|
  tieToEven : rm = .rne → ∀ c, FP.isFinite F c = true → FP.value F c ≠ FP.value F r.1 →
    |FP.value F c - x| = |FP.value F r.1 - x| → r.1.getLsbD 0 = false
  tieAway : rm = .rmm → ∀ c, FP.isFinite F c = true → |FP.value F c - x| = |FP.value F r.1 - x| →
    |FP.value F c| ≤ |FP.value F r.1|
  flags : (FP.value F r.1 = x ∧ r.2 = 0#5) ∨
    (FP.value F r.1 ≠ x ∧ r.2 = flagNX ∧ ¬ FP.Tiny F rm x) ∨
    (FP.value F r.1 ≠ x ∧ r.2 = flagUF ||| flagNX ∧ FP.Tiny F rm x)

/-- `r` is the exact value `x` rounded once to the format under `rm`, an overflow included. -/
def FP.RoundsTo (F : Prec) (rm : RoundMode) (x : ℝ) (r : BitVec F.width × FpFlags) : Prop :=
  (FP.Overflows F rm x → FP.Overflowed F rm (decide (x < 0)) r) ∧ (¬ FP.Overflows F rm x → FP.RoundedOnce F rm x r)

/-- `r` is the smaller (or the larger) of two operands, and its flags (R180 items 3 and 5). -/
structure FP.Selects (F : Prec) (smaller : Bool) (a b : BitVec F.width) (r : BitVec F.width × FpFlags) : Prop where
  flags : r.2 = if FP.isSNaN F a = true ∨ FP.isSNaN F b = true then flagNV else flagNone
  bothNaN : FP.isNaN F a = true → FP.isNaN F b = true → r.1 = F.canonicalNaN
  leftNaN : FP.isNaN F a = true → FP.isNaN F b = false → r.1 = b
  rightNaN : FP.isNaN F a = false → FP.isNaN F b = true → r.1 = a
  operand : FP.isNaN F a = false → FP.isNaN F b = false → r.1 = a ∨ r.1 = b
  ordered : FP.isNaN F a = false → FP.isNaN F b = false →
    FP.place F r.1 = if smaller then Min.min (FP.place F a) (FP.place F b) else Max.max (FP.place F a) (FP.place F b)
  zeros : FP.isNaN F a = false → FP.isNaN F b = false → FP.place F a = FP.place F b →
    FP.sign F r.1 = if smaller then FP.sign F a || FP.sign F b else FP.sign F a && FP.sign F b

/-- `z` is `x` rounded to an integer under `rm` (R181). -/
def RoundsToInt (rm : RoundMode) (x : ℚ) (z : Int) : Prop :=
  match rm with
  | .rne => |(z : ℚ) - x| ≤ 1 / 2 ∧ (|(z : ℚ) - x| = 1 / 2 → z % 2 = 0)
  | .rtz => z = if 0 ≤ x then ⌊x⌋ else ⌈x⌉
  | .rdn => z = ⌊x⌋
  | .rup => z = ⌈x⌉
  | .rmm => |(z : ℚ) - x| ≤ 1 / 2 ∧ (|(z : ℚ) - x| = 1 / 2 → |x| < |(z : ℚ)|)

/-- `r` is `a` converted to a 32-bit integer (R180 item 6): rounded under `rm`, and then the nearest bound, with NV and without NX,
for what is out of range, for an infinity and, as the greatest value, for a NaN. A negative value that rounds to a nonzero
integer is out of the unsigned range under every mode, -0.4 under `RDN` too (R213; notes/assumptions/25.md). -/
structure FP.Converts (F : Prec) (rm : RoundMode) (signed : Bool) (a : BitVec F.width) (r : BitVec 32 × FpFlags) : Prop where
  nan : FP.isNaN F a = true → r = (if signed then 0x7fffffff#32 else 0xffffffff#32, flagNV)
  posInf : FP.isInf F a = true → FP.sign F a = false → r = (if signed then 0x7fffffff#32 else 0xffffffff#32, flagNV)
  negInf : FP.isInf F a = true → FP.sign F a = true → r = (if signed then 0x80000000#32 else 0#32, flagNV)
  number : FP.isFinite F a = true → ∃ z, RoundsToInt rm (FP.value F a) z ∧
    r = if (if signed then 2 ^ 31 else 2 ^ 32) ≤ z then (if signed then 0x7fffffff#32 else 0xffffffff#32, flagNV)
      else if z < (if signed then -(2 ^ 31) else 0) then (if signed then 0x80000000#32 else 0#32, flagNV)
      else (BitVec.ofInt 32 z, if (z : ℚ) = FP.value F a then flagNone else flagNX)

/-- A step that stops with one of the six exceptions or a refusal: the run is over and not final (60_exceptions.md R240). -/
def StopsAbnormally (s : State) : Prop := s.atEnd = false ∧ ∀ t, step s ≠ .next t

end Sys2Proof.Machine
end

