-- ==== Sys2Proof/Certificates/Slice0/Obligations.lean ====
section
/-! DEFINITION. The statements for the provers. Families: decoding, one step, memory, each instruction's result with its
frame, where instructions fault or are refused, rules of the whole machine, and the arithmetic of floating point. A
statement about an instruction holds for every variant that has it (30_encoding.md R65) and for every value of the other
parameters of the launch. -/

section

open Sys2Proof Sys2Proof.Machine

/-! ## Decoding (30_encoding.md) -/

/-- A few words, written out from the spec's encodings, decode to the instructions they stand for (R52 to R63). -/
def Obligations.KnownWordsDecode : Prop :=
  let v : Variant := { xlen := .rv64, fp := .fd }
  decode v 0b111111111111_00110_000_00101_0000011#32 = .ok (.lb 5#5 6#5 0xfff#12) ∧
  decode v 0b0100000_00111_00110_000_00101_0110011#32 = .ok (.sub 5#5 6#5 7#5) ∧
  decode v 0b1000000_00111_00110_000_00000_0100011#32 = .ok (.sb 7#5 6#5 0x800#12) ∧
  decode v 0b1111111_00111_00110_001_10001_1100011#32 = .ok (.bne 6#5 7#5 0x1ff0#13) ∧
  decode v 0b11111111110111111111_00001_1101111#32 = .ok (.jal 1#5 0x1ffffc#21) ∧
  decode v 0b010000_111111_00110_101_00101_0010011#32 = .ok (.srai 5#5 6#5 63#6) ∧
  decode v 0b00011_01_00010_00001_111_00100_1000011#32 = .ok (.fmaddD 4#5 1#5 2#5 3#5 .dyn) ∧
  decode v 0b1100000_00001_00001_001_00101_1010011#32 = .ok (.fcvtWuS 5#5 1#5 .rtz)

/-- Decoding the encoding of an instruction of a variant gives it back, whatever its operands. -/
def Obligations.DecodeOfEncode : Prop :=
  ∀ (v : Variant) (i : Instr), i.wellFormed v = true → decode v (encode i) = .ok i

/-- A word decodes to an instruction only if it is that instruction's encoding: no bit of a decoded word is dropped. -/
def Obligations.EncodeOfDecode : Prop :=
  ∀ (v : Variant) (w : InstrWord) (i : Instr), decode v w = .ok i → encode i = w ∧ i.wellFormed v = true

/-- A decoded word matches the row of the opcode table that its instruction stands for (R63, R64). -/
def Obligations.DecodedWordMatchesItsRow : Prop :=
  ∀ (v : Variant) (w : InstrWord) (i : Instr), decode v w = .ok i → w &&& i.rowMask v = i.rowMatch

/-- No two rows of a variant overlap: a word matches the rows of two instructions of the variant only if they are the same
mnemonic, that is, the same constructor of `Instr` (R64). -/
def Obligations.NoTwoRowsOverlap : Prop :=
  ∀ (v : Variant) (i j : Instr) (w : InstrWord), i.wellFormed v = true → j.wellFormed v = true →
    w &&& i.rowMask v = i.rowMatch → w &&& j.rowMask v = j.rowMatch → i.ctorIdx = j.ctorIdx

/-- A word is rejected exactly when it is the encoding of no instruction of the variant, and the error carries the word. -/
def Obligations.RejectedWordsEncodeNothing : Prop :=
  ∀ (v : Variant) (w : InstrWord),
    decode v w = .error (.unlisted w) ↔ ∀ i : Instr, i.wellFormed v = true → encode i ≠ w

/-! ## One step (20_memory.md R36, 60_exceptions.md R240) -/

/-- When the four bytes at the pc are program text and decode to an instruction, and the pc is not `END_PC`, the step is that
instruction's execution, and nothing is added around it. -/
def Obligations.StepRunsTheDecodedInstruction : Prop :=
  ∀ (s : State) (b0 b1 b2 b3 : Byte) (i : Instr),
    s.pcX ≠ s.launch.endPc.setWidth s.bits →
    (∀ k, k < 4 → inRegions s.launch.memMap.exec (s.pcX + BitVec.ofNat s.bits k).toNat = true) →
    s.mem.byte s.pcX.toNat = b0 → s.mem.byte (s.pcX + 1#s.bits).toNat = b1 →
    s.mem.byte (s.pcX + 2#s.bits).toNat = b2 → s.mem.byte (s.pcX + 3#s.bits).toNat = b3 →
    decode s.launch.variant (b3 ++ b2 ++ b1 ++ b0) = .ok i →
    step s = exec i s

/-- Fetch (R36): at `END_PC` there is no next state; elsewhere a byte outside `EXEC` raises `InstructionAccessFault(pc)`, and
otherwise the word fetched is the four bytes at the pc, little-endian, and what it decodes to is executed. -/
def Obligations.FetchRule : Prop :=
  ∀ s : State,
    (s.pcX = s.launch.endPc.setWidth s.bits → ∀ t, step s ≠ .next t) ∧
    (s.pcX ≠ s.launch.endPc.setWidth s.bits →
      ((∃ k, k < 4 ∧ inRegions s.launch.memMap.exec (s.pcX + BitVec.ofNat s.bits k).toNat = false) →
        step s = .fault (.instructionAccessFault (s.pcX.setWidth 64))) ∧
      ((∀ k, k < 4 → inRegions s.launch.memMap.exec (s.pcX + BitVec.ofNat s.bits k).toNat = true) →
        let w : InstrWord := s.mem.byte (s.pcX + 3#s.bits).toNat ++ s.mem.byte (s.pcX + 2#s.bits).toNat ++
          s.mem.byte (s.pcX + 1#s.bits).toNat ++ s.mem.byte s.pcX.toNat
        s.fetch = .ok w ∧ ∀ i, decode s.launch.variant w = .ok i → step s = exec i s))

/-- A word that decodes to no instruction ends the step with `refuse UnlistedEncoding(instr)` (30_encoding.md R66). -/
def Obligations.UnlistedWordsAreRefused : Prop :=
  ∀ (s : State) (w : InstrWord) (e : DecodeError), s.atEnd = false → s.fetch = .ok w →
    decode s.launch.variant w = .error e → step s = .refused (.unlistedEncoding w)

/-- At `END_PC` the step answers the stuck state `runEnded`, and nowhere else: the model's own answer where the spec has no
step (70_reset_and_hazards.md R262; notes/assumptions/8.md). -/
def Obligations.RunEndedExactlyAtEndPc : Prop :=
  ∀ s : State, step s = .fault .runEnded ↔ s.atEnd = true

/-! ## Memory (20_memory.md) -/

/-- The effective address is `(x[rs1] + sext_XLEN(imm12)) mod 2^XLEN`, and an access of `n` bytes touches the bytes
`addr .. addr+n-1` modulo `2^XLEN` (R30). -/
def Obligations.EffectiveAddress : Prop :=
  ∀ (s : State) (rs1 : RegIdx) (imm : BitVec 12),
    ((s.effAddr rs1 imm).toNat : Int) = (s.ux rs1 + imm.toInt) % s.modulus ∧
    ∀ (n k : Nat), k < n →
      (((s.accessAddrs (s.effAddr rs1 imm) n)[k]?.map fun a => (a : Int)) =
        some ((s.ux rs1 + imm.toInt + k) % s.modulus))

/-- Memory is little-endian for data and for fetch: the byte at `addr + i` holds bits `8i+7 : 8i` of the value (R32). -/
def Obligations.LittleEndian : Prop :=
  ∀ (s : State) (addr : BitVec s.bits) (n : Nat), n = 1 ∨ n = 2 ∨ n = 4 ∨ n = 8 →
    (∀ i, i < n → (s.loadBits addr n).extractLsb' (8 * i) 8 = s.mem.byte (addr + BitVec.ofNat s.bits i).toNat) ∧
    (∀ v : BitVec (8 * n), s.mem.wf = true → ∀ i, i < n →
      (s.storeBits addr n v).byte (addr + BitVec.ofNat s.bits i).toNat = v.extractLsb' (8 * i) 8) ∧
    (∀ w : InstrWord, s.fetch = .ok w → ∀ i, i < 4 →
      w.extractLsb' (8 * i) 8 = s.mem.byte (s.pcX + BitVec.ofNat s.bits i).toNat)

/-- `MemRead(addr, n)`: misaligned, then outside `READ`, then the bytes (R33). -/
def Obligations.MemReadRule : Prop :=
  ∀ (s : State) (addr : BitVec s.bits) (n : Nat), n = 1 ∨ n = 2 ∨ n = 4 ∨ n = 8 →
    if addr.toNat % n ≠ 0 ∧ s.launch.misaligned = .fault then
      s.memRead addr n = .error (.loadAddressMisaligned (addr.setWidth 64))
    else if ∃ k, k < n ∧ inRegions s.launch.memMap.read (addr + BitVec.ofNat s.bits k).toNat = false then
      s.memRead addr n = .error (.loadAccessFault (addr.setWidth 64))
    else
      ∃ d, s.memRead addr n = .ok d ∧
        ∀ i, i < n → d.extractLsb' (8 * i) 8 = s.mem.byte (addr + BitVec.ofNat s.bits i).toNat

/-- `MemWrite(addr, n, v)`: misaligned, then outside `WRITE`, then inside `EXEC`, then the bytes, and only those (R34). -/
def Obligations.MemWriteRule : Prop :=
  ∀ (s : State) (addr : BitVec s.bits) (n : Nat) (v : BitVec (8 * n)), n = 1 ∨ n = 2 ∨ n = 4 ∨ n = 8 →
    s.mem.wf = true →
    if addr.toNat % n ≠ 0 ∧ s.launch.misaligned = .fault then
      s.memWrite addr n v = .fault (.storeAddressMisaligned (addr.setWidth 64))
    else if ∃ k, k < n ∧ inRegions s.launch.memMap.write (addr + BitVec.ofNat s.bits k).toNat = false then
      s.memWrite addr n v = .fault (.storeAccessFault (addr.setWidth 64))
    else if ∃ k, k < n ∧ inRegions s.launch.memMap.exec (addr + BitVec.ofNat s.bits k).toNat = true then
      s.memWrite addr n v = .refused (.storeToProgramText (addr.setWidth 64))
    else
      ∃ t, s.memWrite addr n v = .next t ∧ SameExceptBytes s t ∧
        (∀ i, i < n → t.mem.byte (addr + BitVec.ofNat s.bits i).toNat = v.extractLsb' (8 * i) 8) ∧
        ∀ a, (∀ i, i < n → a ≠ (addr + BitVec.ofNat s.bits i).toNat) → t.mem.byte a = s.mem.byte a

/-! ## Loads and stores (40_rv32i_loads.md, 42_rv32i_stores.md, 45_rv64i.md, 47_rvf_only.md, 48_rvd_only.md) -/

/-- Every integer load completes when its bytes are readable (and aligned, if the launch asks for it), sign- or
zero-extending the data into `x[rd]` (R100 to R105, R161, R162). -/
def Obligations.IntegerLoadsComplete : Prop :=
  ∀ (s : State) (rd rs1 : RegIdx) (imm : BitVec 12),
    let addr := s.effAddr rs1 imm
    let readable := s.Accessible s.launch.memMap.read addr
    (readable 1 → CompletesX (.lb rd rs1 imm) s rd (s.loadBits addr 1).toInt 0#5) ∧
    (readable 2 → CompletesX (.lh rd rs1 imm) s rd (s.loadBits addr 2).toInt 0#5) ∧
    (readable 4 → CompletesX (.lw rd rs1 imm) s rd (s.loadBits addr 4).toInt 0#5) ∧
    (readable 1 → CompletesX (.lbu rd rs1 imm) s rd (s.loadBits addr 1).toNat 0#5) ∧
    (readable 2 → CompletesX (.lhu rd rs1 imm) s rd (s.loadBits addr 2).toNat 0#5) ∧
    (s.launch.variant.is64 = true →
      (readable 8 → CompletesX (.ld rd rs1 imm) s rd (s.loadBits addr 8).toInt 0#5) ∧
      (readable 4 → CompletesX (.lwu rd rs1 imm) s rd (s.loadBits addr 4).toNat 0#5))

/-- `flw` and `fld` complete when their bytes are readable, moving the pattern uninterpreted: boxed when `FLEN` = 64 (R183,
R210, R220). -/
def Obligations.FloatLoadsComplete : Prop :=
  ∀ (s : State) (fd rs1 : RegIdx) (imm : BitVec 12),
    let addr := s.effAddr rs1 imm
    (s.launch.variant.hasF = true → s.Accessible s.launch.memMap.read addr 4 →
      ∃ t, exec (.flw fd rs1 imm) s = .next t ∧
        WroteF s t fd (if s.launch.variant.hasD = true then 0xffffffff#32 ++ s.loadBits addr 4
          else 0#32 ++ s.loadBits addr 4) 0#5) ∧
    (s.launch.variant.hasD = true → s.Accessible s.launch.memMap.read addr 8 →
      ∃ t, exec (.fld fd rs1 imm) s = .next t ∧ WroteF s t fd (s.loadBits addr 8) 0#5)

/-- Every load that its variant has faults on a misaligned address (if the launch asks for alignment), and otherwise on a byte
outside `READ`, with the effective address as the information (R33, R100, R242). -/
def Obligations.LoadsFault : Prop :=
  ∀ (s : State) (i : Instr) (n : Nat) (rs1 : RegIdx) (imm : BitVec 12),
    i.isLoad = true → i.memOperand = some (n, rs1, imm) → i.wellFormed s.launch.variant = true →
    let addr := s.effAddr rs1 imm
    (s.launch.misaligned = .fault → addr.toNat % n ≠ 0 →
      exec i s = .fault (.loadAddressMisaligned (addr.setWidth 64))) ∧
    (s.launch.misaligned = .split ∨ addr.toNat % n = 0 →
      (∃ k, k < n ∧ inRegions s.launch.memMap.read (addr + BitVec.ofNat s.bits k).toNat = false) →
      exec i s = .fault (.loadAccessFault (addr.setWidth 64)))

/-- Every store completes when its bytes are writable (and aligned, if the launch asks for it) and none is program text,
storing the low-order bytes of its register at the effective address and changing no other byte and no register (R34, R120
to R123, R167, R211, R221). -/
def Obligations.StoresComplete : Prop :=
  ∀ (s : State) (rs2 rs1 : RegIdx) (imm : BitVec 12), s.mem.wf = true →
    let addr := s.effAddr rs1 imm
    let writable := fun n : Nat => s.Accessible s.launch.memMap.write addr n ∧
      ∀ a ∈ s.accessAddrs addr n, inRegions s.launch.memMap.exec a = false
    (writable 1 → CompletesStore (.sb rs2 rs1 imm) s addr 1 ((s.readX rs2).toNat % 2 ^ 8)) ∧
    (writable 2 → CompletesStore (.sh rs2 rs1 imm) s addr 2 ((s.readX rs2).toNat % 2 ^ 16)) ∧
    (writable 4 → CompletesStore (.sw rs2 rs1 imm) s addr 4 ((s.readX rs2).toNat % 2 ^ 32)) ∧
    (s.launch.variant.is64 = true → writable 8 → CompletesStore (.sd rs2 rs1 imm) s addr 8 (s.readX rs2).toNat) ∧
    (s.launch.variant.hasF = true → writable 4 →
      CompletesStore (.fsw rs2 rs1 imm) s addr 4 ((s.fpr rs2).toNat % 2 ^ 32)) ∧
    (s.launch.variant.hasD = true → writable 8 → CompletesStore (.fsd rs2 rs1 imm) s addr 8 (s.fpr rs2).toNat)

/-- Every store that its variant has faults on a misaligned address (if the launch asks for alignment), otherwise on a byte
outside `WRITE`, and is otherwise refused on a byte of program text (R34, R43, R120, R242). -/
def Obligations.StoresStop : Prop :=
  ∀ (s : State) (i : Instr) (n : Nat) (rs1 : RegIdx) (imm : BitVec 12),
    i.isStore = true → i.memOperand = some (n, rs1, imm) → i.wellFormed s.launch.variant = true →
    let addr := s.effAddr rs1 imm
    (s.launch.misaligned = .fault → addr.toNat % n ≠ 0 →
      exec i s = .fault (.storeAddressMisaligned (addr.setWidth 64))) ∧
    (s.launch.misaligned = .split ∨ addr.toNat % n = 0 →
      (∃ k, k < n ∧ inRegions s.launch.memMap.write (addr + BitVec.ofNat s.bits k).toNat = false) →
      exec i s = .fault (.storeAccessFault (addr.setWidth 64))) ∧
    (s.Accessible s.launch.memMap.write addr n →
      (∃ k, k < n ∧ inRegions s.launch.memMap.exec (addr + BitVec.ofNat s.bits k).toNat = true) →
      exec i s = .refused (.storeToProgramText (addr.setWidth 64)))

/-- A load of a stored word returns it: after `sw`, `lw` from the same base and immediate gives the low 32 bits of the stored
register, sign-extended (20_memory.md R39, R40). -/
def Obligations.LoadReturnsTheStoredWord : Prop :=
  ∀ (s t u : State) (rs2 rs1 rd : RegIdx) (imm : BitVec 12), s.mem.wf = true → rd ≠ 0#5 →
    exec (.sw rs2 rs1 imm) s = .next t → exec (.lw rd rs1 imm) t = .next u →
    ((u.gpr rd).toNat : Int) = ((s.readX rs2).setWidth 32).toInt % s.modulus

/-- A double stored and loaded back through `fsd` and `fld` is unchanged, whatever pattern it is (10_state.md R15). -/
def Obligations.FloatLoadReturnsTheStoredDouble : Prop :=
  ∀ (s t u : State) (fs2 rs1 fd : RegIdx) (imm : BitVec 12), s.mem.wf = true →
    exec (.fsd fs2 rs1 imm) s = .next t → exec (.fld fd rs1 imm) t = .next u → u.fpr fd = s.fpr fs2

/-! ## Integer arithmetic (41_rv32i_imm_arith.md, 43_rv32i_reg_arith.md, 45_rv64i.md) -/

/-- `addi slti sltiu xori ori andi` complete in every state, with the results of R110, R112, R113, R114, R117, R118. -/
def Obligations.ImmediateArithmetic : Prop :=
  ∀ (s : State) (rd rs1 : RegIdx) (imm : BitVec 12),
    let immBits := (imm.toInt % s.modulus).toNat
    CompletesX (.addi rd rs1 imm) s rd (s.ux rs1 + imm.toInt) 0#5 ∧
    CompletesX (.slti rd rs1 imm) s rd (if s.sx rs1 < imm.toInt then 1 else 0) 0#5 ∧
    CompletesX (.sltiu rd rs1 imm) s rd (if s.ux rs1 < imm.toInt % s.modulus then 1 else 0) 0#5 ∧
    CompletesX (.xori rd rs1 imm) s rd (((s.readX rs1).toNat ^^^ immBits : Nat) : Int) 0#5 ∧
    CompletesX (.ori rd rs1 imm) s rd (((s.readX rs1).toNat ||| immBits : Nat) : Int) 0#5 ∧
    CompletesX (.andi rd rs1 imm) s rd (((s.readX rs1).toNat &&& immBits : Nat) : Int) 0#5

/-- `slli srli srai` complete for every shift amount below `XLEN`, as products and quotients by `2^shamt` (R111, R115, R116). -/
def Obligations.ImmediateShifts : Prop :=
  ∀ (s : State) (rd rs1 : RegIdx) (shamt : BitVec 6), shamt.toNat < s.bits →
    CompletesX (.slli rd rs1 shamt) s rd (s.ux rs1 * 2 ^ shamt.toNat) 0#5 ∧
    CompletesX (.srli rd rs1 shamt) s rd (s.ux rs1 / 2 ^ shamt.toNat) 0#5 ∧
    CompletesX (.srai rd rs1 shamt) s rd (s.sx rs1 / 2 ^ shamt.toNat) 0#5

/-- `lui` and `auipc` complete in every state: the 20 bits times `2^12`, sign-extended from 32 bits, and that plus the pc
(R119, R140). -/
def Obligations.UpperImmediates : Prop :=
  ∀ (s : State) (rd : RegIdx) (upimm : BitVec 20),
    CompletesX (.lui rd upimm) s rd (upimm.toInt * 2 ^ 12) 0#5 ∧
    CompletesX (.auipc rd upimm) s rd (s.upc + upimm.toInt * 2 ^ 12) 0#5

/-- `add sub slt sltu xor or and` complete in every state, with the results of R130, R131, R133, R134, R135, R138, R139. -/
def Obligations.RegisterArithmetic : Prop :=
  ∀ (s : State) (rd rs1 rs2 : RegIdx),
    CompletesX (.add rd rs1 rs2) s rd (s.ux rs1 + s.ux rs2) 0#5 ∧
    CompletesX (.sub rd rs1 rs2) s rd (s.ux rs1 - s.ux rs2) 0#5 ∧
    CompletesX (.slt rd rs1 rs2) s rd (if s.sx rs1 < s.sx rs2 then 1 else 0) 0#5 ∧
    CompletesX (.sltu rd rs1 rs2) s rd (if s.ux rs1 < s.ux rs2 then 1 else 0) 0#5 ∧
    CompletesX (.xor rd rs1 rs2) s rd (((s.readX rs1).toNat ^^^ (s.readX rs2).toNat : Nat) : Int) 0#5 ∧
    CompletesX (.or rd rs1 rs2) s rd (((s.readX rs1).toNat ||| (s.readX rs2).toNat : Nat) : Int) 0#5 ∧
    CompletesX (.and rd rs1 rs2) s rd (((s.readX rs1).toNat &&& (s.readX rs2).toNat : Nat) : Int) 0#5

/-- `sll srl sra` complete in every state, shifting by `x[rs2]` modulo `XLEN` (R132, R136, R137). -/
def Obligations.RegisterShifts : Prop :=
  ∀ (s : State) (rd rs1 rs2 : RegIdx),
    let amount := (s.readX rs2).toNat % s.bits
    CompletesX (.sll rd rs1 rs2) s rd (s.ux rs1 * 2 ^ amount) 0#5 ∧
    CompletesX (.srl rd rs1 rs2) s rd (s.ux rs1 / 2 ^ amount) 0#5 ∧
    CompletesX (.sra rd rs1 rs2) s rd (s.sx rs1 / 2 ^ amount) 0#5

/-- `addiw slliw srliw sraiw` complete whenever `XLEN` = 64: the 32-bit result of the low halves, sign-extended (R160, R163 to
R166). `Int.bmod z (2 ^ 32)` is `z` reduced to the signed 32-bit range. -/
def Obligations.WordImmediateArithmetic : Prop :=
  ∀ (s : State) (rd rs1 : RegIdx) (imm : BitVec 12) (shamt : BitVec 5), s.launch.variant.is64 = true →
    CompletesX (.addiw rd rs1 imm) s rd (Int.bmod (s.ux rs1 + imm.toInt) (2 ^ 32)) 0#5 ∧
    CompletesX (.slliw rd rs1 shamt) s rd (Int.bmod (s.ux rs1 * 2 ^ shamt.toNat) (2 ^ 32)) 0#5 ∧
    CompletesX (.srliw rd rs1 shamt) s rd (Int.bmod (s.ux rs1 % 2 ^ 32 / 2 ^ shamt.toNat) (2 ^ 32)) 0#5 ∧
    CompletesX (.sraiw rd rs1 shamt) s rd (Int.bmod (s.ux rs1) (2 ^ 32) / 2 ^ shamt.toNat) 0#5

/-- `addw subw sllw srlw sraw` complete whenever `XLEN` = 64: the 32-bit result of the low halves, sign-extended, shifts by
`x[rs2]` modulo 32 (R160, R168 to R172). -/
def Obligations.WordRegisterArithmetic : Prop :=
  ∀ (s : State) (rd rs1 rs2 : RegIdx), s.launch.variant.is64 = true →
    let amount := (s.readX rs2).toNat % 32
    CompletesX (.addw rd rs1 rs2) s rd (Int.bmod (s.ux rs1 + s.ux rs2) (2 ^ 32)) 0#5 ∧
    CompletesX (.subw rd rs1 rs2) s rd (Int.bmod (s.ux rs1 - s.ux rs2) (2 ^ 32)) 0#5 ∧
    CompletesX (.sllw rd rs1 rs2) s rd (Int.bmod (s.ux rs1 * 2 ^ amount) (2 ^ 32)) 0#5 ∧
    CompletesX (.srlw rd rs1 rs2) s rd (Int.bmod (s.ux rs1 % 2 ^ 32 / 2 ^ amount) (2 ^ 32)) 0#5 ∧
    CompletesX (.sraw rd rs1 rs2) s rd (Int.bmod (s.ux rs1) (2 ^ 32) / 2 ^ amount) 0#5

/-! ## Control transfer (44_rv32i_control.md) -/

/-- The six branches complete: to an aligned `BTA` if the condition holds, to `pc + 4` if it does not, whatever the offset;
nothing but the pc changes (R150 to R156, R159). -/
def Obligations.BranchesComplete : Prop :=
  ∀ (s : State) (rs1 rs2 : RegIdx) (offset : BitVec 13),
    let branches := fun (i : Instr) (taken : Prop) =>
      (taken → (s.upc + offset.toInt) % s.modulus % 4 = 0 → CompletesJump i s (s.upc + offset.toInt)) ∧
      (¬ taken → CompletesJump i s (s.upc + 4))
    branches (.beq rs1 rs2 offset) (s.ux rs1 = s.ux rs2) ∧
    branches (.bne rs1 rs2 offset) (s.ux rs1 ≠ s.ux rs2) ∧
    branches (.blt rs1 rs2 offset) (s.sx rs1 < s.sx rs2) ∧
    branches (.bge rs1 rs2 offset) (s.sx rs2 ≤ s.sx rs1) ∧
    branches (.bltu rs1 rs2 offset) (s.ux rs1 < s.ux rs2) ∧
    branches (.bgeu rs1 rs2 offset) (s.ux rs2 ≤ s.ux rs1)

/-- `jal` and `jalr` complete when the target is a multiple of 4: the link register holds `pc + 4` and the pc the target, for
`jalr` the sum with bit 0 cleared, computed from the old register (R150, R157, R158). -/
def Obligations.JumpsComplete : Prop :=
  ∀ (s : State) (rd rs1 : RegIdx) (offset : BitVec 21) (imm : BitVec 12),
    ((s.upc + offset.toInt) % s.modulus % 4 = 0 →
      ∃ t, exec (.jal rd offset) s = .next t ∧ WroteX s t rd (s.upc + 4) 0#5 (s.upc + offset.toInt)) ∧
    ((s.ux rs1 + imm.toInt) % s.modulus / 2 * 2 % 4 = 0 →
      ∃ t, exec (.jalr rd rs1 imm) s = .next t ∧
        WroteX s t rd (s.upc + 4) 0#5 ((s.ux rs1 + imm.toInt) % s.modulus / 2 * 2))

/-- A taken branch, a `jal` or a `jalr` whose target is not a multiple of 4 raises `InstructionAddressMisaligned(target)`; a
branch that is not taken never does (R150). -/
def Obligations.MisalignedTargetsFault : Prop :=
  ∀ (s : State) (i : Instr), i.isTransfer = true →
    ((∃ a, exec i s = .fault (.instructionAddressMisaligned a)) ↔
      s.successor i % s.modulus % 4 ≠ 0 ∧ ∀ offset, s.branchCondition i ≠ some (false, offset)) ∧
    (∀ a, exec i s = .fault (.instructionAddressMisaligned a) → (a.toNat : Int) = s.successor i % s.modulus)

/-! ## Floating point: each instruction (46_rvfd_compute.md, 47_rvf_only.md, 48_rvd_only.md) -/

/-- The effective rounding mode: the six listed values of the `rm` field, dynamic reading `frm`, and none when `frm` > 4
(R181). -/
def Obligations.EffectiveRoundingMode : Prop :=
  ∀ s : State,
    s.effectiveRm .rne = some .rne ∧ s.effectiveRm .rtz = some .rtz ∧ s.effectiveRm .rdn = some .rdn ∧
    s.effectiveRm .rup = some .rup ∧ s.effectiveRm .rmm = some .rmm ∧
    s.effectiveRm .dyn =
      (if s.frm = 0#3 then some .rne else if s.frm = 1#3 then some .rtz else if s.frm = 2#3 then some .rdn
        else if s.frm = 3#3 then some .rup else if s.frm = 4#3 then some .rmm else none)

/-- The four fused multiply-adds complete with any rounding mode in effect, with the operand signs of R185 to R188 under both
values of `FNM_CONVENTION`. `neg` inverts the sign bit alone (R180), and the source's convention negates a result that is not
a NaN (R187, R188). -/
def Obligations.FusedMultiplyAddComplete : Prop :=
  (∀ (s : State) (fd fs1 fs2 fs3 : RegIdx) (rm : RmField) (r : RoundMode), s.effectiveRm rm = some r →
    (s.launch.variant.hasF = true →
      let a := s.fget .s fs1; let b := s.fget .s fs2; let c := s.fget .s fs3
      CompletesF (.fmaddS fd fs1 fs2 fs3 rm) s .s fd (FP.fma .s r a b c) ∧
      CompletesF (.fmsubS fd fs1 fs2 fs3 rm) s .s fd (FP.fma .s r a b (FP.neg .s c)) ∧
      (s.launch.fnm = .ratified →
        CompletesF (.fnmsubS fd fs1 fs2 fs3 rm) s .s fd (FP.fma .s r (FP.neg .s a) b c) ∧
        CompletesF (.fnmaddS fd fs1 fs2 fs3 rm) s .s fd (FP.fma .s r (FP.neg .s a) b (FP.neg .s c))) ∧
      (s.launch.fnm = .source →
        CompletesF (.fnmsubS fd fs1 fs2 fs3 rm) s .s fd (negResult .s (FP.fma .s r a b c)) ∧
        CompletesF (.fnmaddS fd fs1 fs2 fs3 rm) s .s fd (negResult .s (FP.fma .s r a b (FP.neg .s c))))) ∧
    (s.launch.variant.hasD = true →
      let a := s.fget .d fs1; let b := s.fget .d fs2; let c := s.fget .d fs3
      CompletesF (.fmaddD fd fs1 fs2 fs3 rm) s .d fd (FP.fma .d r a b c) ∧
      CompletesF (.fmsubD fd fs1 fs2 fs3 rm) s .d fd (FP.fma .d r a b (FP.neg .d c)) ∧
      (s.launch.fnm = .ratified →
        CompletesF (.fnmsubD fd fs1 fs2 fs3 rm) s .d fd (FP.fma .d r (FP.neg .d a) b c) ∧
        CompletesF (.fnmaddD fd fs1 fs2 fs3 rm) s .d fd (FP.fma .d r (FP.neg .d a) b (FP.neg .d c))) ∧
      (s.launch.fnm = .source →
        CompletesF (.fnmsubD fd fs1 fs2 fs3 rm) s .d fd (negResult .d (FP.fma .d r a b c)) ∧
        CompletesF (.fnmaddD fd fs1 fs2 fs3 rm) s .d fd (negResult .d (FP.fma .d r a b (FP.neg .d c)))))) ∧
  (∀ (F : Prec) (a : BitVec F.width) (k : Nat), k < F.width →
    (FP.neg F a).getLsbD k = if k = F.width - 1 then !a.getLsbD k else a.getLsbD k) ∧
  ∀ (F : Prec) (t : BitVec F.width × FpFlags), (negResult F t).2 = t.2 ∧
    (FP.isNaN F t.1 = true → (negResult F t).1 = t.1) ∧ (FP.isNaN F t.1 = false → (negResult F t).1 = FP.neg F t.1)

/-- `fadd fsub fmul fdiv fsqrt` complete with any rounding mode in effect, on any operands (R184, R189 to R193). -/
def Obligations.FloatArithmeticComplete : Prop :=
  ∀ (s : State) (fd fs1 fs2 : RegIdx) (rm : RmField) (r : RoundMode), s.effectiveRm rm = some r →
    (s.launch.variant.hasF = true →
      let a := s.fget .s fs1; let b := s.fget .s fs2
      CompletesF (.faddS fd fs1 fs2 rm) s .s fd (FP.add .s r a b) ∧
      CompletesF (.fsubS fd fs1 fs2 rm) s .s fd (FP.sub .s r a b) ∧
      CompletesF (.fmulS fd fs1 fs2 rm) s .s fd (FP.mul .s r a b) ∧
      CompletesF (.fdivS fd fs1 fs2 rm) s .s fd (FP.div .s r a b) ∧
      CompletesF (.fsqrtS fd fs1 rm) s .s fd (FP.sqrt .s r a)) ∧
    (s.launch.variant.hasD = true →
      let a := s.fget .d fs1; let b := s.fget .d fs2
      CompletesF (.faddD fd fs1 fs2 rm) s .d fd (FP.add .d r a b) ∧
      CompletesF (.fsubD fd fs1 fs2 rm) s .d fd (FP.sub .d r a b) ∧
      CompletesF (.fmulD fd fs1 fs2 rm) s .d fd (FP.mul .d r a b) ∧
      CompletesF (.fdivD fd fs1 fs2 rm) s .d fd (FP.div .d r a b) ∧
      CompletesF (.fsqrtD fd fs1 rm) s .d fd (FP.sqrt .d r a))

/-- The sign-injection instructions complete: the result has the bits of `fs1` below the sign and the sign R194 to R196 give,
and no flag accrues. -/
def Obligations.SignInjection : Prop :=
  ∀ (s : State) (fd fs1 fs2 : RegIdx) (F : Prec), s.launch.variant.has F = true →
    let a := s.fget F fs1
    let b := s.fget F fs2
    let injects := fun (i : Instr) (sign : Bool) =>
      ∃ (t : State) (r : BitVec F.width), exec i s = .next t ∧ WroteF s t fd (s.resultBits F r) 0#5 ∧
        r.getLsbD (F.width - 1) = sign ∧ ∀ k, k < F.width - 1 → r.getLsbD k = a.getLsbD k
    let sa := a.getLsbD (F.width - 1)
    let sb := b.getLsbD (F.width - 1)
    injects (match F with | .s => .fsgnjS fd fs1 fs2 | .d => .fsgnjD fd fs1 fs2) sb ∧
    injects (match F with | .s => .fsgnjnS fd fs1 fs2 | .d => .fsgnjnD fd fs1 fs2) (!sb) ∧
    injects (match F with | .s => .fsgnjxS fd fs1 fs2 | .d => .fsgnjxD fd fs1 fs2) (sa ^^ sb)

/-- `fmin` and `fmax` complete in every state of a variant that has them, with the smaller and the larger operand: a NaN yields
to the other operand, two give the canonical NaN, and `-0` is below `+0` (R180 items 3 and 5; R197, R198). -/
def Obligations.MinMaxComplete : Prop :=
  (∀ (s : State) (fd fs1 fs2 : RegIdx),
    (s.launch.variant.hasF = true →
      CompletesF (.fminS fd fs1 fs2) s .s fd (FP.min .s (s.fget .s fs1) (s.fget .s fs2)) ∧
      CompletesF (.fmaxS fd fs1 fs2) s .s fd (FP.max .s (s.fget .s fs1) (s.fget .s fs2))) ∧
    (s.launch.variant.hasD = true →
      CompletesF (.fminD fd fs1 fs2) s .d fd (FP.min .d (s.fget .d fs1) (s.fget .d fs2)) ∧
      CompletesF (.fmaxD fd fs1 fs2) s .d fd (FP.max .d (s.fget .d fs1) (s.fget .d fs2)))) ∧
  ∀ (F : Prec) (a b : BitVec F.width), FP.Selects F true a b (FP.min F a b) ∧ FP.Selects F false a b (FP.max F a b)

/-- `feq flt fle` complete, writing 1 or 0 into an integer register and accruing their flags (R199 to R201); `fclass`
completes, writing its mask and no flag (R202). -/
def Obligations.CompareAndClassifyComplete : Prop :=
  ∀ (s : State) (rd fs1 fs2 : RegIdx),
    let compares := fun (i : Instr) (c : Bool × FpFlags) => CompletesX i s rd (if c.1 = true then 1 else 0) c.2
    (s.launch.variant.hasF = true →
      let a := s.fget .s fs1; let b := s.fget .s fs2
      compares (.feqS rd fs1 fs2) (FP.eq .s a b) ∧ compares (.fltS rd fs1 fs2) (FP.lt .s a b) ∧
      compares (.fleS rd fs1 fs2) (FP.le .s a b) ∧
      CompletesX (.fclassS rd fs1) s rd (FP.classify .s a).toNat 0#5) ∧
    (s.launch.variant.hasD = true →
      let a := s.fget .d fs1; let b := s.fget .d fs2
      compares (.feqD rd fs1 fs2) (FP.eq .d a b) ∧ compares (.fltD rd fs1 fs2) (FP.lt .d a b) ∧
      compares (.fleD rd fs1 fs2) (FP.le .d a b) ∧
      CompletesX (.fclassD rd fs1) s rd (FP.classify .d a).toNat 0#5)

/-- The conversions to an integer complete, sign-extending the 32-bit result, unsigned forms too, and accruing the flags of
`FP.to_int` (R212, R213, R222, R223), which rounds and saturates (R180 item 6). That -0.4 under `RDN` rounds to -1, and so is
invalid as an unsigned integer, is the model's choice (notes/assumptions/25.md). -/
def Obligations.FloatToIntegerComplete : Prop :=
  (∀ (s : State) (rd fs1 : RegIdx) (rm : RmField) (r : RoundMode), s.effectiveRm rm = some r →
    let converts := fun (i : Instr) (c : BitVec 32 × FpFlags) => CompletesX i s rd c.1.toInt c.2
    (s.launch.variant.hasF = true →
      converts (.fcvtWS rd fs1 rm) (FP.toInt .s r true (s.fget .s fs1)) ∧
      converts (.fcvtWuS rd fs1 rm) (FP.toInt .s r false (s.fget .s fs1))) ∧
    (s.launch.variant.hasD = true →
      converts (.fcvtWD rd fs1 rm) (FP.toInt .d r true (s.fget .d fs1)) ∧
      converts (.fcvtWuD rd fs1 rm) (FP.toInt .d r false (s.fget .d fs1)))) ∧
  ∀ (F : Prec) (rm : RoundMode) (signed : Bool) (a : BitVec F.width), FP.Converts F rm signed a (FP.toInt F rm signed a)

/-- The conversions from an integer complete, reading the low 32 bits of `x[rs1]`; those to a double accrue no flag (R214, R215,
R224, R225). -/
def Obligations.IntegerToFloatComplete : Prop :=
  ∀ (s : State) (fd rs1 : RegIdx) (rm : RmField) (r : RoundMode), s.effectiveRm rm = some r →
    let low := BitVec.ofNat 32 (s.readX rs1).toNat
    (s.launch.variant.hasF = true →
      CompletesF (.fcvtSW fd rs1 rm) s .s fd (FP.fromInt .s r true low) ∧
      CompletesF (.fcvtSWu fd rs1 rm) s .s fd (FP.fromInt .s r false low)) ∧
    (s.launch.variant.hasD = true →
      CompletesF (.fcvtDW fd rs1 rm) s .d fd ((FP.fromInt .d r true low).1, 0#5) ∧
      CompletesF (.fcvtDWu fd rs1 rm) s .d fd ((FP.fromInt .d r false low).1, 0#5))

/-- The conversions between the precisions complete (R226, R227). -/
def Obligations.FloatToFloatComplete : Prop :=
  ∀ (s : State) (fd fs1 : RegIdx) (rm : RmField) (r : RoundMode), s.effectiveRm rm = some r →
    s.launch.variant.hasD = true →
    CompletesF (.fcvtSD fd fs1 rm) s .s fd (FP.narrow r (s.fget .d fs1)) ∧
    CompletesF (.fcvtDS fd fs1 rm) s .d fd (FP.widen (s.fget .s fs1))

/-- `fmv.x.w` and `fmv.w.x` complete, copying 32 bits: sign-extended into the integer register, boxed into a 64-bit
floating-point register (R216, R217). -/
def Obligations.BitMovesComplete : Prop :=
  ∀ (s : State) (d r : RegIdx), s.launch.variant.hasF = true →
    CompletesX (.fmvXW d r) s d (Int.bmod (s.fpr r).toNat (2 ^ 32)) 0#5 ∧
    ∃ t, exec (.fmvWX d r) s = .next t ∧
      WroteF s t d (if s.launch.variant.hasD = true then 0xffffffff#32 ++ BitVec.ofNat 32 (s.readX r).toNat
        else 0#32 ++ BitVec.ofNat 32 (s.readX r).toNat) 0#5

/-- Reading and writing floating-point values (R182, R183): a value put in a register is read back and no other register changes.
Where `FLEN` = 32 a single is its register, the low half of the model's container, whose high half is written with zeros
(notes/assumptions/2.md). Where `FLEN` = 64 a single lies under 32 ones, a register without them reads as the canonical NaN, and
a double is its register. -/
def Obligations.NanBoxing : Prop :=
  ∀ (s : State) (i : RegIdx),
    (s.launch.variant.hasF = true → ∀ v : BitVec 32, (s.fput .s i v).fget .s i = v) ∧
    (∀ (F : Prec) (v : BitVec F.width) (j : RegIdx), j ≠ i → (s.fput F i v).fpr j = s.fpr j) ∧
    (s.launch.variant.hasF = true → s.launch.variant.hasD = false →
      (∀ v : BitVec 32, (s.fput .s i v).fpr i = 0#32 ++ v ∧ s.resultBits .s v = 0#32 ++ v) ∧
      s.fget .s i = BitVec.ofNat 32 (s.fpr i).toNat) ∧
    (s.launch.variant.hasD = true →
      (∀ v : BitVec 32, (s.fput .s i v).fpr i = 0xffffffff#32 ++ v ∧ s.resultBits .s v = 0xffffffff#32 ++ v) ∧
      ((s.fpr i).toNat / 2 ^ 32 = 2 ^ 32 - 1 → s.fget .s i = BitVec.ofNat 32 (s.fpr i).toNat) ∧
      ((s.fpr i).toNat / 2 ^ 32 ≠ 2 ^ 32 - 1 → s.fget .s i = 0x7fc00000#32) ∧
      (∀ v : BitVec 64, (s.fput .d i v).fpr i = v ∧ s.resultBits .d v = v) ∧ s.fget .d i = s.fpr i)

/-- A dynamic rounding mode with `frm` > 4 is refused as an unlisted encoding, whatever the instruction (30_encoding.md R67,
46_rvfd_compute.md R181). -/
def Obligations.ReservedDynamicRoundingIsRefused : Prop :=
  ∀ (s : State) (i : Instr), i.rmField = some .dyn → 4 < s.frm.toNat →
    exec i s = .refused (.unlistedEncoding (encode i))

/-- An instruction that the variant does not have is refused by its word, its term included (30_encoding.md R65, R66;
notes/assumptions/12.md). -/
def Obligations.UnavailableInstructionsAreRefused : Prop :=
  ∀ (s : State) (i : Instr), i.wellFormed s.launch.variant = false → i.isTransfer = false →
    exec i s = .refused (.unlistedEncoding (encode i))

/-! ## Rules of the whole machine -/

/-- The state after reset, in the values the spec gives: `pc` = `RESET_PC`, `x[0]` = 0, `frm` = `FRM_RESET`, `fflags` = 0
(10_state.md R22), in a launch that R261 allows; memory is the launch image, which is the empty one (notes/assumptions/7.md). -/
def Obligations.ResetState : Prop :=
  State.reset.pc = State.reset.launch.resetPc ∧ (State.reset.readX 0#5).toNat = 0 ∧
  State.reset.frm = State.reset.launch.frmReset ∧ State.reset.fflags = 0#5 ∧ State.reset.launch.wf = true ∧
  State.reset.mem = []

/-- The invariant holds after reset. -/
def Obligations.InvariantAtReset : Prop := Inv State.reset

/-- Every step keeps the invariant: the pc stays an XLEN-bit multiple of 4, registers stay within their widths, register 0
stays zero, `frm` keeps its reset value, and memory keeps its canonical form within the address space (R10 to R16, R20). -/
def Obligations.StepKeepsInvariant : Prop :=
  ∀ s t : State, Inv s → step s = .next t → Inv t

/-- Where every completing instruction leaves the pc: `pc + 4`, but for a taken branch (`BTA`), `jal` (`JTA`) and `jalr`, the sum
with bit 0 cleared (10_state.md R13, which the spec derives; 44_rv32i_control.md R157; notes/assumptions/20.md). -/
def Obligations.PcRule : Prop :=
  ∀ (s t : State) (i : Instr), exec i s = .next t → (t.pc.toNat : Int) = s.successor i % s.modulus

/-- A completing instruction changes no general register but its destination, and no floating-point register but its
floating-point destination (10_state.md R11, R15). -/
def Obligations.OnlyTheDestinationRegisterChanges : Prop :=
  ∀ (s t : State) (i : Instr), exec i s = .next t →
    (∀ j, i.destX ≠ some j → t.gpr j = s.gpr j) ∧ (∀ j, i.destF ≠ some j → t.fpr j = s.fpr j) ∧ t.gpr 0#5 = 0#64

/-- Only the six stores change memory (20_memory.md R39). -/
def Obligations.OnlyStoresWriteMemory : Prop :=
  ∀ (s t : State) (i : Instr), exec i s = .next t → i.isStore = false → t.mem = s.mem

/-- The instructions of Tables B.1 and B.2 leave every floating-point register, `frm` and `fflags` alone (10_state.md R15, R17). -/
def Obligations.IntegerInstructionsLeaveFloatState : Prop :=
  ∀ (s t : State) (i : Instr), exec i s = .next t → i.isFloat = false →
    t.f = s.f ∧ t.frm = s.frm ∧ t.fflags = s.fflags

/-- No step changes `frm` or a parameter of the launch, and no step clears an accrued flag (10_state.md R16, R17; 46_rvfd_compute.md
R184). -/
def Obligations.FrmIsFixedAndFlagsOnlyAccrue : Prop :=
  ∀ s t : State, step s = .next t → t.launch = s.launch ∧ t.frm = s.frm ∧ t.fflags &&& s.fflags = s.fflags

/-- Program text is immutable during a run: in every state reached, every byte of `EXEC` reads as at the start, and a store
that would touch one is refused (20_memory.md R43). -/
def Obligations.ProgramTextNeverChanges : Prop :=
  (∀ s t : State, s.mem.wf = true → Reaches s t →
    ∀ a, inRegions s.launch.memMap.exec a = true → t.mem.byte a = s.mem.byte a) ∧
  (∀ (s : State) (i : Instr) (n : Nat) (rs1 : RegIdx) (imm : BitVec 12),
    i.isStore = true → i.memOperand = some (n, rs1, imm) → i.wellFormed s.launch.variant = true →
    s.Accessible s.launch.memMap.write (s.effAddr rs1 imm) n →
    (∃ a ∈ s.accessAddrs (s.effAddr rs1 imm) n, inRegions s.launch.memMap.exec a = true) →
    exec i s = .refused (.storeToProgramText ((s.effAddr rs1 imm).setWidth 64)))

/-- Which instructions raise which exceptions, when, and with what information (60_exceptions.md R241). -/
def Obligations.OnlyTheseExceptions : Prop :=
  ∀ (s : State) (i : Instr) (e : Fault), exec i s = .fault e →
    (∃ a, e = .instructionAddressMisaligned a ∧ i.isTransfer = true ∧ (a.toNat : Int) = s.successor i % s.modulus ∧
      a.toNat % 4 ≠ 0) ∨
    (∃ n rs1 imm, i.memOperand = some (n, rs1, imm) ∧
      let addr := s.effAddr rs1 imm
      (i.isLoad = true ∧
        ((e = .loadAddressMisaligned (addr.setWidth 64) ∧ 1 < n ∧ addr.toNat % n ≠ 0 ∧ s.launch.misaligned = .fault) ∨
          (e = .loadAccessFault (addr.setWidth 64) ∧
            ∃ a ∈ s.accessAddrs addr n, inRegions s.launch.memMap.read a = false))) ∨
      (i.isStore = true ∧
        ((e = .storeAddressMisaligned (addr.setWidth 64) ∧ 1 < n ∧ addr.toNat % n ≠ 0 ∧ s.launch.misaligned = .fault) ∨
          (e = .storeAccessFault (addr.setWidth 64) ∧
            ∃ a ∈ s.accessAddrs addr n, inRegions s.launch.memMap.write a = false))))

/-! ## Floating point: the arithmetic (46_rvfd_compute.md R180 to R202)

The numerics are the recommended value of the parameter `FP`, which the model takes (notes/assumptions/9.md). -/

/-- `classify` sets exactly one of bits 9 to 0, that of the pattern's class (R180 item 7), and the classes are those of the
pattern's fields (R180 item 1). -/
def Obligations.ClassifyIsOneHot : Prop :=
  ∀ (F : Prec) (a : BitVec F.width),
    let neg := FP.sign F a = true
    let exponent := a.extractLsb' F.fracBits F.expBits
    let fraction := a.extractLsb' 0 F.fracBits
    let isClass := fun k : Nat => FP.classify F a = BitVec.ofNat 10 (2 ^ k)
    (∃ k, k < 10 ∧ isClass k) ∧
    (isClass 0 ↔ neg ∧ FP.isInf F a = true) ∧
    (isClass 1 ↔ neg ∧ FP.isFinite F a = true ∧ FP.biased F a ≠ 0) ∧
    (isClass 2 ↔ neg ∧ FP.biased F a = 0 ∧ FP.isZero F a = false) ∧
    (isClass 3 ↔ neg ∧ FP.isZero F a = true) ∧
    (isClass 4 ↔ ¬ neg ∧ FP.isZero F a = true) ∧
    (isClass 5 ↔ ¬ neg ∧ FP.biased F a = 0 ∧ FP.isZero F a = false) ∧
    (isClass 6 ↔ ¬ neg ∧ FP.isFinite F a = true ∧ FP.biased F a ≠ 0) ∧
    (isClass 7 ↔ ¬ neg ∧ FP.isInf F a = true) ∧
    (isClass 8 ↔ FP.isSNaN F a = true) ∧
    (isClass 9 ↔ FP.isNaN F a = true ∧ FP.isSNaN F a = false) ∧
    (FP.isNaN F a = true ↔ exponent = BitVec.allOnes _ ∧ fraction ≠ 0#_) ∧
    (FP.isSNaN F a = true ↔ exponent = BitVec.allOnes _ ∧ fraction ≠ 0#_ ∧ a.getLsbD (F.fracBits - 1) = false) ∧
    (FP.isInf F a = true ↔ exponent = BitVec.allOnes _ ∧ fraction = 0#_) ∧
    (FP.isFinite F a = true ↔ exponent ≠ BitVec.allOnes _) ∧
    (FP.isZero F a = true ↔ exponent = 0#_ ∧ fraction = 0#_) ∧ FP.biased F a = exponent.toNat

/-- The comparisons are those of the places of patterns that are not NaNs, the infinities included, without a flag; on a NaN they
are all false, `eq` with NV for a signaling NaN alone, `lt` and `le` with NV for any (R180 items 1, 3 and 4; R199 to R201). -/
def Obligations.ComparisonsOrderValues : Prop :=
  ∀ (F : Prec) (a b : BitVec F.width),
    (FP.isNaN F a = true ∨ FP.isNaN F b = true →
      FP.eq F a b = (false, if FP.isSNaN F a = true ∨ FP.isSNaN F b = true then flagNV else flagNone) ∧
      FP.lt F a b = (false, flagNV) ∧ FP.le F a b = (false, flagNV)) ∧
    (FP.isNaN F a = false → FP.isNaN F b = false →
      ((FP.eq F a b).1 = true ↔ FP.place F a = FP.place F b) ∧
      ((FP.lt F a b).1 = true ↔ FP.place F a < FP.place F b) ∧
      ((FP.le F a b).1 = true ↔ FP.place F a ≤ FP.place F b) ∧
      (FP.eq F a b).2 = flagNone ∧ (FP.lt F a b).2 = flagNone ∧ (FP.le F a b).2 = flagNone) ∧
    (FP.isFinite F a = true → FP.isFinite F b = true →
      ((FP.eq F a b).1 = true ↔ FP.value F a = FP.value F b) ∧
      ((FP.lt F a b).1 = true ↔ FP.value F a < FP.value F b) ∧
      ((FP.le F a b).1 = true ↔ FP.value F a ≤ FP.value F b))

/-- The arithmetic of finite operands gives the exact result rounded once (R180 items 2 and 3), with the sign of an exact zero
that R189 and R214 give; NaNs, infinities and zero divisors give the results and the flags of R180 items 2 and 3. Where those items
leave a case to IEEE 754, the statement takes the model's (notes/assumptions/10.md), and all of it is of the recommended
numerics (notes/assumptions/9.md). -/
def Obligations.ArithmeticValues : Prop :=
  (∀ (F : Prec) (rm : RoundMode) (a b c : BitVec F.width),
    FP.isFinite F a = true → FP.isFinite F b = true → FP.isFinite F c = true →
    let va : ℝ := FP.value F a; let vb : ℝ := FP.value F b; let vc : ℝ := FP.value F c
    let signP := FP.sign F a != FP.sign F b
    let zeroSum := fun n1 n2 : Bool => (F.zero (if n1 = n2 then n1 else decide (rm = .rdn)), flagNone)
    FP.RoundsTo F rm (va + vb) (FP.add F rm a b) ∧
    FP.RoundsTo F rm (va - vb) (FP.sub F rm a b) ∧
    FP.RoundsTo F rm (va * vb) (FP.mul F rm a b) ∧
    FP.RoundsTo F rm (va * vb + vc) (FP.fma F rm a b c) ∧
    (FP.isZero F b = false → FP.RoundsTo F rm (va / vb) (FP.div F rm a b)) ∧
    (FP.isZero F a = true ∨ FP.sign F a = false → FP.RoundsTo F rm √va (FP.sqrt F rm a)) ∧
    (va + vb = 0 → FP.add F rm a b = zeroSum (FP.sign F a) (FP.sign F b)) ∧
    (va - vb = 0 → FP.sub F rm a b = zeroSum (FP.sign F a) (!FP.sign F b)) ∧
    (va * vb + vc = 0 → FP.fma F rm a b c = zeroSum signP (FP.sign F c)) ∧
    (va * vb = 0 → FP.mul F rm a b = (F.zero signP, flagNone)) ∧
    (FP.isZero F a = true → FP.isZero F b = false → FP.div F rm a b = (F.zero signP, flagNone)) ∧
    (FP.isZero F b = true → FP.div F rm a b =
      if FP.isZero F a = true then (F.canonicalNaN, flagNV) else (F.infinity signP, flagDZ))) ∧
  (∀ (rm : RoundMode) (a : BitVec 64) (b : BitVec 32),
    (FP.isFinite .d a = true → FP.RoundsTo .s rm (FP.value .d a) (FP.narrow rm a)) ∧
    (FP.isFinite .s b = true → (FP.value .d (FP.widen b).1 = FP.value .s b ∧ FP.isFinite .d (FP.widen b).1 = true ∧
      (FP.widen b).2 = flagNone)) ∧
    (FP.isZero .d a = true → FP.narrow rm a = (Prec.zero .s (FP.sign .d a), flagNone)) ∧
    (FP.isZero .s b = true → FP.widen b = (Prec.zero .d (FP.sign .s b), flagNone)) ∧
    (FP.isInf .d a = true → FP.narrow rm a = (Prec.infinity .s (FP.sign .d a), flagNone)) ∧
    (FP.isInf .s b = true → FP.widen b = (Prec.infinity .d (FP.sign .s b), flagNone)) ∧
    (FP.isNaN .d a = true → FP.narrow rm a = (0x7fc00000#32, if FP.isSNaN .d a = true then flagNV else flagNone)) ∧
    (FP.isNaN .s b = true →
      FP.widen b = (0x7ff8000000000000#64, if FP.isSNaN .s b = true then flagNV else flagNone))) ∧
  (∀ (F : Prec) (rm : RoundMode) (signed : Bool) (v : BitVec 32),
    FP.RoundsTo F rm ((if signed then v.toInt else (v.toNat : Int)) : ℤ) (FP.fromInt F rm signed v) ∧
    FP.fromInt F rm signed 0#32 = (F.zero false, flagNone)) ∧
  (∀ (F : Prec) (rm : RoundMode) (a b c : BitVec F.width),
    let signP := FP.sign F a != FP.sign F b
    let invalid := (F.canonicalNaN, flagNV)
    let zeroTimesInf := (FP.isZero F a = true ∧ FP.isInf F b = true) ∨ (FP.isInf F a = true ∧ FP.isZero F b = true)
    (FP.isNaN F a = true ∨ FP.isNaN F b = true → ∀ op ∈ [FP.add, FP.sub, FP.mul, FP.div],
      op F rm a b = if FP.isSNaN F a = true ∨ FP.isSNaN F b = true then invalid else (F.canonicalNaN, flagNone)) ∧
    (FP.isNaN F a = true ∨ FP.isNaN F b = true ∨ FP.isNaN F c = true →
      FP.fma F rm a b c =
        if FP.isSNaN F a = true ∨ FP.isSNaN F b = true ∨ FP.isSNaN F c = true ∨ zeroTimesInf then invalid
        else (F.canonicalNaN, flagNone)) ∧
    (zeroTimesInf → FP.mul F rm a b = invalid ∧ FP.fma F rm a b c = invalid) ∧
    (FP.isInf F a = true → FP.isNaN F b = false →
      FP.add F rm a b = (if FP.isInf F b = true ∧ signP = true then invalid else (a, flagNone)) ∧
      FP.sub F rm a b = (if FP.isInf F b = true ∧ signP = false then invalid else (a, flagNone)) ∧
      FP.div F rm a b = (if FP.isInf F b = true then invalid else (F.infinity signP, flagNone)) ∧
      (FP.isZero F b = false → FP.mul F rm a b = (F.infinity signP, flagNone) ∧
        FP.mul F rm b a = (F.infinity signP, flagNone) ∧
        (FP.isNaN F c = false → ∀ p ∈ [FP.fma F rm a b c, FP.fma F rm b a c],
          p = if FP.isInf F c = true ∧ FP.sign F c ≠ signP then invalid else (F.infinity signP, flagNone))) ∧
      (FP.isFinite F b = true → FP.add F rm b a = (a, flagNone) ∧ FP.sub F rm b a = (FP.neg F a, flagNone) ∧
        FP.div F rm b a = (F.zero signP, flagNone))) ∧
    (FP.isFinite F a = true → FP.isFinite F b = true → FP.isInf F c = true → FP.fma F rm a b c = (c, flagNone)) ∧
    (FP.isNaN F a = true → FP.sqrt F rm a = if FP.isSNaN F a = true then invalid else (F.canonicalNaN, flagNone)) ∧
    (FP.sign F a = true → FP.isNaN F a = false → FP.isZero F a = false → FP.sqrt F rm a = invalid) ∧
    (FP.isZero F a = true ∨ (FP.isInf F a = true ∧ FP.sign F a = false) → FP.sqrt F rm a = (a, flagNone)))

/-- A 32-bit integer converted to a double and back is unchanged and raises no flag, signed and unsigned, under any two
rounding modes (R180 items 2, 3, 6). -/
def Obligations.IntegerDoubleRoundTrip : Prop :=
  ∀ (rm rm' : RoundMode) (signed : Bool) (v : BitVec 32),
    (FP.fromInt .d rm signed v).2 = 0#5 ∧ FP.toInt .d rm' signed (FP.fromInt .d rm signed v).1 = (v, 0#5)

/-- A sum of finite operands that is not larger than the largest finite value is rounded to a finite value next to it: it does
not overflow, it is exact when NX is not raised and inexact when it is, no finite value lies between the exact sum and the
result, and the result lies below the exact sum under RDN, above it under RUP and toward zero under RTZ (R180 items 2, 3;
R181). -/
def Obligations.SumsAreRoundedInTheirDirection : Prop :=
  ∀ (F : Prec) (rm : RoundMode) (a b : BitVec F.width), FP.isFinite F a = true → FP.isFinite F b = true →
    let r := FP.add F rm a b
    let exact := FP.value F a + FP.value F b
    |exact| ≤ FP.maxFinite F →
    FP.isFinite F r.1 = true ∧ r.2 &&& flagOF = 0#5 ∧ (r.2 &&& flagNX = 0#5 ↔ FP.value F r.1 = exact) ∧
    (∀ c, FP.isFinite F c = true → ¬ (FP.value F r.1 < FP.value F c ∧ FP.value F c ≤ exact) ∧
      ¬ (exact ≤ FP.value F c ∧ FP.value F c < FP.value F r.1)) ∧
    (rm = .rdn → FP.value F r.1 ≤ exact) ∧ (rm = .rup → exact ≤ FP.value F r.1) ∧
    (rm = .rtz → |FP.value F r.1| ≤ |exact|)

/-- Rounding to nearest: no finite value of the format is nearer to the exact product than an in-range product under RNE or
RMM (R180 item 2; R181). -/
def Obligations.ProductsAreRoundedToNearest : Prop :=
  ∀ (F : Prec) (rm : RoundMode) (a b c : BitVec F.width), rm = .rne ∨ rm = .rmm →
    FP.isFinite F a = true → FP.isFinite F b = true → FP.isFinite F c = true →
    (FP.mul F rm a b).2 &&& flagOF = 0#5 →
    |FP.value F (FP.mul F rm a b).1 - FP.value F a * FP.value F b| ≤ |FP.value F c - FP.value F a * FP.value F b|

end
end

