-- ==== Sys2Proof/Laws/Memory.lean ====
section
/-! SUPPORT. Memory: reading what was written, leaving the rest alone, and keeping the canonical form and the bound. -/

namespace Sys2Proof.Machine

/-! ## One byte -/

theorem Memory.wfFrom_mono {lo lo' : Nat} (h : lo' ≤ lo) :
    ∀ {m : Memory}, Memory.wfFrom lo m = true → Memory.wfFrom lo' m = true
  | [], _ => rfl
  | (a, b) :: m, hm => by
    simp only [Memory.wfFrom, Bool.and_eq_true, decide_eq_true_eq] at hm ⊢
    exact ⟨⟨by omega, hm.1.2⟩, hm.2⟩

/-- Below a canonical memory's least address nothing is listed. -/
theorem Memory.byte_of_lt {lo k : Nat} (hk : k < lo) :
    ∀ {m : Memory}, Memory.wfFrom lo m = true → m.byte k = Memory.unlistedByte
  | [], _ => rfl
  | (a, b) :: m, hm => by
    simp only [Memory.wfFrom, Bool.and_eq_true, decide_eq_true_eq] at hm
    have hne : a ≠ k := by omega
    simp only [Memory.byte, if_neg hne]
    exact Memory.byte_of_lt (lo := a + 1) (by omega) hm.2

/-- A canonical memory read after one byte is written: that byte there, and every other address as before. -/
theorem Memory.byte_set_from {lo k j : Nat} {v : Byte} :
    ∀ {m : Memory}, Memory.wfFrom lo m = true → (m.set k v).byte j = if j = k then v else m.byte j
  | [], _ => by
    by_cases hj : j = k
    · by_cases hv : v = Memory.unlistedByte <;> simp [Memory.set, Memory.byte, hv, hj]
    · by_cases hv : v = Memory.unlistedByte <;> simp [Memory.set, Memory.byte, hv, hj, Ne.symm hj]
  | (a, b) :: m, hm => by
    simp only [Memory.wfFrom, Bool.and_eq_true, decide_eq_true_eq] at hm
    unfold Memory.set
    by_cases h1 : k < a
    · rw [if_pos h1]
      by_cases hv : v = Memory.unlistedByte
      · rw [if_pos hv]
        by_cases hj : j = k
        · subst hj
          rw [if_pos rfl, hv]
          exact Memory.byte_of_lt h1 (by simp [Memory.wfFrom, hm.1.2, hm.2])
        · rw [if_neg hj]
      · rw [if_neg hv]
        by_cases hj : j = k
        · simp [Memory.byte, hj]
        · simp [Memory.byte, hj, Ne.symm hj]
    · rw [if_neg h1]
      by_cases h2 : k = a
      · rw [if_pos h2]
        subst h2
        by_cases hv : v = Memory.unlistedByte
        · rw [if_pos hv]
          by_cases hj : j = k
          · subst hj
            rw [if_pos rfl, hv]
            exact Memory.byte_of_lt (lo := j + 1) (by omega) hm.2
          · simp [Memory.byte, hj, Ne.symm hj]
        · rw [if_neg hv]
          by_cases hj : j = k
          · simp [Memory.byte, hj]
          · simp [Memory.byte, hj, Ne.symm hj]
      · rw [if_neg h2]
        by_cases ha : a = j
        · have hjk : j ≠ k := fun e => h2 (by rw [← e, ha])
          simp [Memory.byte, ha, hjk]
        · simp only [Memory.byte, if_neg ha]
          exact Memory.byte_set_from hm.2

theorem Memory.byte_set {m : Memory} (hm : m.wf = true) (k j : Nat) (v : Byte) :
    (m.set k v).byte j = if j = k then v else m.byte j := Memory.byte_set_from hm

/-- Writing one byte keeps the canonical form. -/
theorem Memory.set_wfFrom {lo k : Nat} {v : Byte} (hk : lo ≤ k) :
    ∀ {m : Memory}, Memory.wfFrom lo m = true → Memory.wfFrom lo (m.set k v) = true
  | [], _ => by by_cases hv : v = Memory.unlistedByte <;> simp [Memory.set, Memory.wfFrom, hv, hk]
  | (a, b) :: m, hm => by
    have hm' := hm
    simp only [Memory.wfFrom, Bool.and_eq_true, decide_eq_true_eq] at hm
    unfold Memory.set
    by_cases h1 : k < a
    · rw [if_pos h1]
      by_cases hv : v = Memory.unlistedByte
      · rw [if_pos hv]; exact hm'
      · rw [if_neg hv]
        simp only [Memory.wfFrom, Bool.and_eq_true, decide_eq_true_eq]
        exact ⟨⟨hk, hv⟩, ⟨by omega, hm.1.2⟩, hm.2⟩
    · rw [if_neg h1]
      by_cases h2 : k = a
      · rw [if_pos h2]
        by_cases hv : v = Memory.unlistedByte
        · rw [if_pos hv]; exact Memory.wfFrom_mono (lo := a + 1) (by omega) hm.2
        · rw [if_neg hv]
          simp only [Memory.wfFrom, Bool.and_eq_true, decide_eq_true_eq]
          exact ⟨⟨hk, hv⟩, by rw [h2]; exact hm.2⟩
      · rw [if_neg h2]
        simp only [Memory.wfFrom, Bool.and_eq_true, decide_eq_true_eq]
        exact ⟨hm.1, Memory.set_wfFrom (by omega) hm.2⟩

theorem Memory.set_wf {m : Memory} (hm : m.wf = true) (k : Nat) (v : Byte) : (m.set k v).wf = true :=
  Memory.set_wfFrom (Nat.zero_le k) hm

/-- Writing a byte below the bound keeps every listed address below it. -/
theorem Memory.set_below {bound k : Nat} {v : Byte} (hk : k < bound) :
    ∀ {m : Memory}, Memory.below bound m = true → Memory.below bound (m.set k v) = true
  | [], _ => by by_cases hv : v = Memory.unlistedByte <;> simp [Memory.set, Memory.below, hv, hk]
  | (a, b) :: m, hm => by
    have hm' := hm
    simp only [Memory.below, List.all_cons, Bool.and_eq_true, decide_eq_true_eq] at hm
    unfold Memory.set
    by_cases h1 : k < a
    · rw [if_pos h1]
      by_cases hv : v = Memory.unlistedByte
      · rw [if_pos hv]; exact hm'
      · rw [if_neg hv]; simp only [Memory.below, List.all_cons, Bool.and_eq_true, decide_eq_true_eq]
        exact ⟨hk, hm⟩
    · rw [if_neg h1]
      by_cases h2 : k = a
      · rw [if_pos h2]
        by_cases hv : v = Memory.unlistedByte
        · rw [if_pos hv]; exact hm.2
        · rw [if_neg hv]; simp only [Memory.below, List.all_cons, Bool.and_eq_true, decide_eq_true_eq]
          exact ⟨hk, hm.2⟩
      · rw [if_neg h2]
        have ih := Memory.set_below (v := v) hk (m := m) hm.2
        simp only [Memory.below, List.all_cons, Bool.and_eq_true, decide_eq_true_eq]
        exact ⟨hm.1, ih⟩

/-! ## A list of bytes -/

theorem Memory.setAll_wf : ∀ {as : List Nat} {bs : List Byte} {m : Memory}, m.wf = true → (m.setAll as bs).wf = true
  | [], _, _, hm => by simpa [Memory.setAll] using hm
  | _ :: _, [], _, hm => by simpa [Memory.setAll] using hm
  | a :: as, b :: bs, m, hm => by
    rw [Memory.setAll]; exact Memory.setAll_wf (Memory.set_wf hm a b)

theorem Memory.setAll_below {bound : Nat} : ∀ {as : List Nat} {bs : List Byte} {m : Memory},
    (∀ a ∈ as, a < bound) → Memory.below bound m = true → Memory.below bound (m.setAll as bs) = true
  | [], _, _, _, hm => by simpa [Memory.setAll] using hm
  | _ :: _, [], _, _, hm => by simpa [Memory.setAll] using hm
  | a :: as, b :: bs, m, ha, hm => by
    rw [Memory.setAll]
    exact Memory.setAll_below (fun x hx => ha x (List.mem_cons_of_mem _ hx))
      (Memory.set_below (ha a (List.mem_cons_self ..)) hm)

/-- An address that is not in the list reads as before. -/
theorem Memory.byte_setAll_of_notMem : ∀ {as : List Nat} {bs : List Byte} {m : Memory} {j : Nat},
    m.wf = true → j ∉ as → (m.setAll as bs).byte j = m.byte j
  | [], _, _, _, _, _ => by simp [Memory.setAll]
  | _ :: _, [], _, _, _, _ => by simp [Memory.setAll]
  | a :: as, b :: bs, m, j, hm, hj => by
    simp only [List.mem_cons, not_or] at hj
    rw [Memory.setAll, Memory.byte_setAll_of_notMem (Memory.set_wf hm a b) hj.2, Memory.byte_set hm, if_neg hj.1]

/-- Distinct addresses read back the bytes written to them, in order. -/
theorem Memory.map_byte_setAll : ∀ {as : List Nat} {bs : List Byte} {m : Memory},
    m.wf = true → as.Nodup → as.length = bs.length → as.map (m.setAll as bs).byte = bs
  | [], [], _, _, _, _ => rfl
  | [], _ :: _, _, _, _, h => by simp at h
  | _ :: _, [], _, _, _, h => by simp at h
  | a :: as, b :: bs, m, hm, hd, hl => by
    have hd' := List.nodup_cons.1 hd
    rw [Memory.setAll, List.map_cons, Memory.byte_setAll_of_notMem (Memory.set_wf hm a b) hd'.1, Memory.byte_set hm,
      if_pos rfl, Memory.map_byte_setAll (Memory.set_wf hm a b) hd'.2 (by simpa using hl)]

/-! ## Canonical memories are equal when they read alike -/

theorem Memory.ext_from : ∀ {lo : Nat} {m n : Memory}, Memory.wfFrom lo m = true → Memory.wfFrom lo n = true →
    (∀ k, m.byte k = n.byte k) → m = n
  | _, [], [], _, _, _ => rfl
  | lo, [], (a, b) :: n, _, hn, h => by
    simp only [Memory.wfFrom, Bool.and_eq_true, decide_eq_true_eq] at hn
    exact absurd (by simpa [Memory.byte] using (h a).symm) hn.1.2
  | lo, (a, b) :: m, [], hm, _, h => by
    simp only [Memory.wfFrom, Bool.and_eq_true, decide_eq_true_eq] at hm
    exact absurd (by simpa [Memory.byte] using h a) hm.1.2
  | lo, (a, b) :: m, (c, d) :: n, hm, hn, h => by
    simp only [Memory.wfFrom, Bool.and_eq_true, decide_eq_true_eq] at hm hn
    have hac : a = c := by
      rcases Nat.lt_trichotomy a c with hlt | heq | hgt
      · have h1 := h a
        have hn' : Memory.wfFrom c ((c, d) :: n) = true := by simp [Memory.wfFrom, hn.1.2, hn.2]
        rw [Memory.byte_of_lt hlt hn'] at h1
        exact absurd (by simpa [Memory.byte] using h1) hm.1.2
      · exact heq
      · have h1 := h c
        have hm' : Memory.wfFrom a ((a, b) :: m) = true := by simp [Memory.wfFrom, hm.1.2, hm.2]
        rw [Memory.byte_of_lt hgt hm'] at h1
        exact absurd (by simpa [Memory.byte] using h1.symm) hn.1.2
    subst hac
    have hbd : b = d := by simpa [Memory.byte] using h a
    subst hbd
    congr 1
    refine Memory.ext_from hm.2 hn.2 fun k => ?_
    by_cases hk : a = k
    · subst hk
      rw [Memory.byte_of_lt (Nat.lt_succ_self a) hm.2, Memory.byte_of_lt (Nat.lt_succ_self a) hn.2]
    · simpa [Memory.byte, hk] using h k

theorem Memory.ext_of_wf {m n : Memory} (hm : m.wf = true) (hn : n.wf = true) (h : ∀ k, m.byte k = n.byte k) : m = n :=
  Memory.ext_from hm hn h

/-! ## Byte order -/

@[simp] theorem leBytes_length : ∀ n v : Nat, (leBytes n v).length = n
  | 0, _ => rfl
  | n + 1, v => by simp [leBytes, leBytes_length n]

theorem leNat_lt : ∀ bs : List Byte, leNat bs < 256 ^ bs.length
  | [] => by simp [leNat]
  | b :: bs => by
    have h := leNat_lt bs
    have hb : b.toNat < 256 := b.isLt
    rw [leNat, List.length_cons, Nat.pow_succ]; omega

theorem leNat_leBytes : ∀ n v : Nat, leNat (leBytes n v) = v % 256 ^ n
  | 0, v => by simp [leBytes, leNat, Nat.mod_one]
  | n + 1, v => by
    rw [leBytes, leNat, leNat_leBytes n, BitVec.toNat_ofNat]
    exact (Nat.mod_mul (x := v) (a := 256) (b := 256 ^ n)).symm.trans (by rw [Nat.pow_succ'])

theorem leBytes_leNat : ∀ bs : List Byte, leBytes bs.length (leNat bs) = bs
  | [] => rfl
  | b :: bs => by
    have hb : b.toNat < 256 := b.isLt
    have h1 : (b.toNat + 256 * leNat bs) / 256 = leNat bs := by omega
    have h2 : BitVec.ofNat 8 (b.toNat + 256 * leNat bs) = b := by
      apply BitVec.eq_of_toNat_eq
      rw [BitVec.toNat_ofNat]; omega
    rw [List.length_cons, leBytes, leNat, h1, h2, leBytes_leNat bs]

/-- The byte at place `i` of a value's bytes is bits `8i+7 .. 8i` of it. -/
theorem leBytes_getElem : ∀ (n v i : Nat) (h : i < n),
    (leBytes n v)[i]'(by rw [leBytes_length]; exact h) = BitVec.ofNat 8 (v / 256 ^ i)
  | 0, _, _, h => absurd h (Nat.not_lt_zero _)
  | n + 1, v, 0, _ => by simp [leBytes]
  | n + 1, v, i + 1, h => by
    simp only [leBytes, List.getElem_cons_succ]
    rw [leBytes_getElem n (v / 256) i (Nat.lt_of_succ_lt_succ h), Nat.div_div_eq_div_mul, Nat.pow_succ']

/-! ## The addresses of an access -/

@[simp] theorem State.accessAddrs_length (s : State) (addr : BitVec s.bits) (n : Nat) :
    (s.accessAddrs addr n).length = n := by simp [State.accessAddrs]

theorem State.accessAddrs_lt (s : State) (addr : BitVec s.bits) (n : Nat) :
    ∀ a ∈ s.accessAddrs addr n, a < 2 ^ s.bits := by
  intro a ha
  simp only [State.accessAddrs, List.mem_map] at ha
  obtain ⟨i, -, rfl⟩ := ha
  exact BitVec.isLt _

theorem State.bits_cases (s : State) : s.bits = 32 ∨ s.bits = 64 := by
  cases h : s.launch.variant.xlen <;> simp [State.bits, Xlen.bits, h]

/-- The bytes of an access of up to 8 bytes lie at distinct addresses. -/
theorem State.accessAddrs_nodup (s : State) (addr : BitVec s.bits) (n : Nat) (hn : n ≤ 8) :
    (s.accessAddrs addr n).Nodup := by
  unfold State.accessAddrs
  refine List.Nodup.map_on ?_ List.nodup_range
  intro i hi j hj h
  rw [List.mem_range] at hi hj
  have hb : 2 ^ 5 ≤ 2 ^ s.bits := Nat.pow_le_pow_right (by omega) (by rcases s.bits_cases with h | h <;> omega)
  have h' := congrArg (fun z : Nat => z) h
  simp only [BitVec.toNat_add, BitVec.toNat_ofNat] at h'
  have ha := addr.isLt
  rw [Nat.mod_eq_of_lt (a := i) (by omega), Nat.mod_eq_of_lt (a := j) (by omega)] at h'
  exact (Nat.ModEq.add_left_cancel' addr.toNat h').eq_of_lt_of_lt (by omega) (by omega)

end Sys2Proof.Machine
end

