-- ==== Sys2Proof/Laws/State.lean ====
section
/-! SUPPORT. What each update of the state leaves alone: one lemma for each update and field, and the reads of what was
written. -/

namespace Sys2Proof.Machine

/-! ## `setPc` and `advance` -/

@[simp] theorem State.setPc_launch (s : State) (a : XWord) : (s.setPc a).launch = s.launch := rfl
@[simp] theorem State.setPc_x (s : State) (a : XWord) : (s.setPc a).x = s.x := rfl
@[simp] theorem State.setPc_pc (s : State) (a : XWord) : (s.setPc a).pc = a := rfl
@[simp] theorem State.setPc_f (s : State) (a : XWord) : (s.setPc a).f = s.f := rfl
@[simp] theorem State.setPc_frm (s : State) (a : XWord) : (s.setPc a).frm = s.frm := rfl
@[simp] theorem State.setPc_fflags (s : State) (a : XWord) : (s.setPc a).fflags = s.fflags := rfl
@[simp] theorem State.setPc_mem (s : State) (a : XWord) : (s.setPc a).mem = s.mem := rfl
@[simp] theorem State.setPc_gpr (s : State) (a : XWord) (i : RegIdx) : (s.setPc a).gpr i = s.gpr i := rfl
@[simp] theorem State.setPc_fpr (s : State) (a : XWord) (i : RegIdx) : (s.setPc a).fpr i = s.fpr i := rfl

@[simp] theorem State.advance_launch (s : State) : s.advance.launch = s.launch := rfl
@[simp] theorem State.advance_x (s : State) : s.advance.x = s.x := rfl
@[simp] theorem State.advance_pc (s : State) : s.advance.pc = s.nextPc.setWidth 64 := rfl
@[simp] theorem State.advance_f (s : State) : s.advance.f = s.f := rfl
@[simp] theorem State.advance_frm (s : State) : s.advance.frm = s.frm := rfl
@[simp] theorem State.advance_fflags (s : State) : s.advance.fflags = s.fflags := rfl
@[simp] theorem State.advance_mem (s : State) : s.advance.mem = s.mem := rfl
@[simp] theorem State.advance_gpr (s : State) (i : RegIdx) : s.advance.gpr i = s.gpr i := rfl
@[simp] theorem State.advance_fpr (s : State) (i : RegIdx) : s.advance.fpr i = s.fpr i := rfl

/-! ## `accrue` -/

@[simp] theorem State.accrue_launch (s : State) (fl : FpFlags) : (s.accrue fl).launch = s.launch := rfl
@[simp] theorem State.accrue_x (s : State) (fl : FpFlags) : (s.accrue fl).x = s.x := rfl
@[simp] theorem State.accrue_pc (s : State) (fl : FpFlags) : (s.accrue fl).pc = s.pc := rfl
@[simp] theorem State.accrue_f (s : State) (fl : FpFlags) : (s.accrue fl).f = s.f := rfl
@[simp] theorem State.accrue_frm (s : State) (fl : FpFlags) : (s.accrue fl).frm = s.frm := rfl
@[simp] theorem State.accrue_fflags (s : State) (fl : FpFlags) : (s.accrue fl).fflags = s.fflags ||| fl := rfl
@[simp] theorem State.accrue_mem (s : State) (fl : FpFlags) : (s.accrue fl).mem = s.mem := rfl
@[simp] theorem State.accrue_gpr (s : State) (fl : FpFlags) (i : RegIdx) : (s.accrue fl).gpr i = s.gpr i := rfl
@[simp] theorem State.accrue_fpr (s : State) (fl : FpFlags) (i : RegIdx) : (s.accrue fl).fpr i = s.fpr i := rfl

/-! ## `fput` -/

@[simp] theorem State.fput_launch (s : State) (F : Prec) (i : RegIdx) (v : BitVec F.width) :
    (s.fput F i v).launch = s.launch := rfl
@[simp] theorem State.fput_x (s : State) (F : Prec) (i : RegIdx) (v : BitVec F.width) : (s.fput F i v).x = s.x := rfl
@[simp] theorem State.fput_pc (s : State) (F : Prec) (i : RegIdx) (v : BitVec F.width) : (s.fput F i v).pc = s.pc := rfl
@[simp] theorem State.fput_f (s : State) (F : Prec) (i : RegIdx) (v : BitVec F.width) :
    (s.fput F i v).f = s.f.set i.toNat (s.resultBits F v) := rfl
@[simp] theorem State.fput_frm (s : State) (F : Prec) (i : RegIdx) (v : BitVec F.width) :
    (s.fput F i v).frm = s.frm := rfl
@[simp] theorem State.fput_fflags (s : State) (F : Prec) (i : RegIdx) (v : BitVec F.width) :
    (s.fput F i v).fflags = s.fflags := rfl
@[simp] theorem State.fput_mem (s : State) (F : Prec) (i : RegIdx) (v : BitVec F.width) :
    (s.fput F i v).mem = s.mem := rfl
@[simp] theorem State.fput_gpr (s : State) (F : Prec) (i : RegIdx) (v : BitVec F.width) (j : RegIdx) :
    (s.fput F i v).gpr j = s.gpr j := rfl

/-- A floating-point register after a result is put into one: the result's container, or what it held. -/
theorem State.fput_fpr (s : State) (F : Prec) (i j : RegIdx) (v : BitVec F.width) :
    (s.fput F i v).fpr j = if j = i then s.resultBits F v else s.fpr j := by
  by_cases h : j = i
  · simp [State.fpr, h]
  · have hne : i.toNat ≠ j.toNat := fun e => h (BitVec.eq_of_toNat_eq e.symm)
    simp [State.fpr, h, Vector.getElem_set_ne _ _ hne]

/-! ## `writeX` -/

@[simp] theorem State.writeX_launch (s : State) (i : RegIdx) (v : BitVec s.bits) :
    (s.writeX i v).launch = s.launch := by unfold State.writeX; split <;> rfl
@[simp] theorem State.writeX_pc (s : State) (i : RegIdx) (v : BitVec s.bits) : (s.writeX i v).pc = s.pc := by
  unfold State.writeX; split <;> rfl
@[simp] theorem State.writeX_f (s : State) (i : RegIdx) (v : BitVec s.bits) : (s.writeX i v).f = s.f := by
  unfold State.writeX; split <;> rfl
@[simp] theorem State.writeX_frm (s : State) (i : RegIdx) (v : BitVec s.bits) : (s.writeX i v).frm = s.frm := by
  unfold State.writeX; split <;> rfl
@[simp] theorem State.writeX_fflags (s : State) (i : RegIdx) (v : BitVec s.bits) :
    (s.writeX i v).fflags = s.fflags := by unfold State.writeX; split <;> rfl
@[simp] theorem State.writeX_mem (s : State) (i : RegIdx) (v : BitVec s.bits) : (s.writeX i v).mem = s.mem := by
  unfold State.writeX; split <;> rfl
@[simp] theorem State.writeX_fpr (s : State) (i : RegIdx) (v : BitVec s.bits) (j : RegIdx) :
    (s.writeX i v).fpr j = s.fpr j := by unfold State.fpr; simp

/-- Register 0 reads as zero (10_state.md R11). -/
@[simp] theorem State.gpr_zero (s : State) : s.gpr 0#5 = 0#64 := rfl

/-- An integer register after a write: the value zero-extended to the container, or what it held; register 0 is zero. -/
theorem State.writeX_gpr (s : State) (i j : RegIdx) (v : BitVec s.bits) :
    (s.writeX i v).gpr j = if j = i ∧ i ≠ 0#5 then v.setWidth 64 else s.gpr j := by
  unfold State.writeX
  by_cases hi : i = 0#5
  · simp [hi]
  · by_cases h : j = i
    · subst h; simp [State.gpr, hi]
    · have hne : i.toNat ≠ j.toNat := fun e => h (BitVec.eq_of_toNat_eq e.symm)
      simp [State.gpr, h, hi, Vector.getElem_set_ne _ _ hne]

/-! ## Memory -/

@[simp] theorem State.withMem_gpr (s : State) (m : Memory) (i : RegIdx) : ({ s with mem := m } : State).gpr i = s.gpr i := rfl
@[simp] theorem State.withMem_fpr (s : State) (m : Memory) (i : RegIdx) : ({ s with mem := m } : State).fpr i = s.fpr i := rfl
@[simp] theorem State.withMem_nextPc (s : State) (m : Memory) : ({ s with mem := m } : State).nextPc = s.nextPc := rfl

/-! ## The next instruction's address -/

/-- Nothing but the pc and the launch enters `pc + 4`. -/
theorem State.writeX_nextPc (s : State) (i : RegIdx) (v : BitVec s.bits) :
    (s.writeX i v).nextPc.setWidth 64 = s.nextPc.setWidth 64 := by
  by_cases hi : i = 0#5
  · rw [show s.writeX i v = s from if_pos hi]
  · rw [show s.writeX i v = { s with x := s.x.set i.toNat (v.setWidth 64) } from if_neg hi]; rfl
@[simp] theorem State.fput_nextPc (s : State) (F : Prec) (i : RegIdx) (v : BitVec F.width) :
    (s.fput F i v).nextPc = s.nextPc := rfl
@[simp] theorem State.accrue_nextPc (s : State) (fl : FpFlags) : (s.accrue fl).nextPc = s.nextPc := rfl

end Sys2Proof.Machine
end

