-- ==== Sys2Proof/Laws/Ops.lean ====
section
/-! SUPPORT. What each shared operation can do, said once: if it answers a next state, which one, and when it does. -/

namespace Sys2Proof.Machine

/-! ## Numbers in containers -/

theorem State.bits_le (s : State) : s.bits ≤ 64 := by rcases s.bits_cases with h | h <;> omega

/-- A register-wide value keeps its number in a 64-bit container. -/
@[simp] theorem State.toNat_setWidth (s : State) (v : BitVec s.bits) : (v.setWidth 64).toNat = v.toNat := by
  rw [BitVec.toNat_setWidth]
  exact Nat.mod_eq_of_lt (lt_of_lt_of_le v.isLt (Nat.pow_le_pow_right (by omega) s.bits_le))

theorem State.toNat_lt (s : State) (v : BitVec s.bits) : v.toNat < 2 ^ s.bits := v.isLt

/-- A register-wide value, as a number, is its own residue. -/
theorem State.toNat_emod (s : State) (v : BitVec s.bits) : (v.toNat : Int) % s.modulus = v.toNat :=
  Int.emod_eq_of_lt (by omega) (by have := v.isLt; unfold State.modulus; exact_mod_cast this)

/-- The signed reading of a register-wide value is congruent to the unsigned one. -/
theorem State.toInt_emod (s : State) (v : BitVec s.bits) : v.toInt % s.modulus = v.toNat := by
  rw [BitVec.toInt_eq_toNat_cond]
  split
  · exact s.toNat_emod v
  · have h : ((v.toNat : Int) - (2 ^ s.bits : Nat)) % s.modulus = (v.toNat : Int) % s.modulus := by
      unfold State.modulus; push_cast; exact Int.sub_emod_right _ _
    rw [h, s.toNat_emod]

/-- The number of the pc after `pc + 4`. -/
theorem State.nextPc_toNat (s : State) : ((s.nextPc.setWidth 64).toNat : Int) = (s.upc + 4) % s.modulus := by
  rw [s.toNat_setWidth, State.nextPc, BitVec.toNat_add, BitVec.toNat_ofNat]
  unfold State.upc State.modulus
  push_cast
  rw [Int.add_emod, Int.emod_emod_of_dvd _ (dvd_refl _), ← Int.add_emod]

/-! ## Listed instructions -/

/-- What a listed instruction can do: run, on a variant that has it, or be refused by its word. -/
theorem State.listed_eq (s : State) (i : Instr) (k : Result) :
    s.listed i k = if i.wellFormed s.launch.variant = true then k else .refused (.unlistedEncoding (encode i)) := rfl

theorem State.listed_next {s t : State} {i : Instr} {k : Result} :
    s.listed i k = .next t ↔ i.wellFormed s.launch.variant = true ∧ k = .next t := by
  unfold State.listed refuse; split <;> simp_all

theorem State.listed_fault {s : State} {i : Instr} {k : Result} {e : Fault} :
    s.listed i k = .fault e ↔ i.wellFormed s.launch.variant = true ∧ k = .fault e := by
  unfold State.listed refuse; split <;> simp_all

/-! ## Register results -/

/-- Writing `x[rd]`, accruing flags and advancing: everything about the state after. -/
theorem State.retireXF_eq (s : State) (rd : RegIdx) (v : BitVec s.bits) (fl : FpFlags) :
    ∃ t, s.retireXF rd v fl = .next t ∧ WroteX s t rd v.toNat fl (s.upc + 4) := by
  refine ⟨_, rfl, ?_⟩
  constructor <;> try (intros; simp; done)
  · intro h
    have hg : ((s.writeX rd v).gpr rd).toNat = v.toNat := by
      rw [State.writeX_gpr, if_pos ⟨rfl, h⟩, s.toNat_setWidth]
    exact (congrArg (fun k : Nat => (k : Int)) hg).trans (s.toNat_emod v).symm
  · intro j hj
    simp [State.writeX_gpr, hj]
  · rw [State.advance_pc, State.accrue_nextPc]
    have h := s.writeX_nextPc rd v
    exact (congrArg (fun w : XWord => (w.toNat : Int)) h).trans s.nextPc_toNat

/-- Writing `x[rd]` and advancing: everything about the state after. -/
theorem State.retireX_eq (s : State) (rd : RegIdx) (v : BitVec s.bits) :
    ∃ t, s.retireX rd v = .next t ∧ WroteX s t rd v.toNat 0#5 (s.upc + 4) := by
  refine ⟨_, rfl, ?_⟩
  constructor <;> try (intros; simp; done)
  · intro h
    have hg : ((s.writeX rd v).gpr rd).toNat = v.toNat := by
      rw [State.writeX_gpr, if_pos ⟨rfl, h⟩, s.toNat_setWidth]
    exact (congrArg (fun k : Nat => (k : Int)) hg).trans (s.toNat_emod v).symm
  · intro j hj
    simp [State.writeX_gpr, hj]
  · rw [State.advance_pc]
    have h := s.writeX_nextPc rd v
    exact (congrArg (fun w : XWord => (w.toNat : Int)) h).trans s.nextPc_toNat

/-- The same register result under any number congruent to the one written. -/
theorem WroteX.congr {s t : State} {rd : RegIdx} {z z' : Int} {fl : FpFlags} {p : Int} (h : WroteX s t rd z fl p)
    (hz : z % s.modulus = z' % s.modulus) : WroteX s t rd z' fl p :=
  { h with dest := fun hr => (h.dest hr).trans hz }

/-- Putting a result in `f[fd]` and advancing: everything about the state after. -/
theorem State.fput_wrote (s : State) (F : Prec) (fd : RegIdx) (v : BitVec F.width) :
    WroteF s (s.fput F fd v).advance fd (s.resultBits F v) 0#5 := by
  constructor <;> try (intros; simp; done)
  · simp [State.fput_fpr]
  · intro j hj; simp [State.fput_fpr, hj]
  · rw [State.advance_pc, State.fput_nextPc]; exact s.nextPc_toNat

/-- Putting a result in `f[fd]`, accruing its flags and advancing: everything about the state after. -/
theorem State.retireF_eq (s : State) (F : Prec) (fd : RegIdx) (r : BitVec F.width × FpFlags) :
    ∃ t, s.retireF F fd r = .next t ∧ WroteF s t fd (s.resultBits F r.1) r.2 := by
  refine ⟨_, rfl, ?_⟩
  constructor <;> try (intros; simp; done)
  · simp [State.fput_fpr]
  · intro j hj; simp [State.fput_fpr, hj]
  · rw [State.advance_pc, State.accrue_nextPc, State.fput_nextPc]; exact s.nextPc_toNat

/-! ## Rounding modes -/

theorem State.withRounding_next {s t : State} {i : Instr} {rm : RmField} {k : RoundMode → Result} :
    s.withRounding i rm k = .next t ↔ ∃ r, s.effectiveRm rm = some r ∧ k r = .next t := by
  unfold State.withRounding refuse; cases s.effectiveRm rm <;> simp

theorem State.withRounding_fault {s : State} {i : Instr} {rm : RmField} {k : RoundMode → Result} {e : Fault} :
    s.withRounding i rm k = .fault e ↔ ∃ r, s.effectiveRm rm = some r ∧ k r = .fault e := by
  unfold State.withRounding refuse; cases s.effectiveRm rm <;> simp

/-- A static rounding mode is always one; the dynamic one is one when `frm` is at most 4. -/
theorem State.effectiveRm_eq_none {s : State} {rm : RmField} :
    s.effectiveRm rm = none ↔ rm = .dyn ∧ 4 < s.frm.toNat := by
  cases rm <;> simp only [State.effectiveRm, reduceCtorEq, false_and, true_and]
  generalize s.frm = b
  revert b; decide

/-- What a rounded floating-point result does: refused, or put in `f[fd]`. -/
theorem State.roundedF_next {s t : State} {i : Instr} {rm : RmField} {F : Prec} {fd : RegIdx}
    {op : RoundMode → BitVec F.width × FpFlags} :
    s.roundedF i rm F fd op = .next t ↔
      i.wellFormed s.launch.variant = true ∧ ∃ r, s.effectiveRm rm = some r ∧ s.retireF F fd (op r) = .next t := by
  unfold State.roundedF; rw [State.listed_next, State.withRounding_next]

theorem State.roundedF_completes {s : State} {i : Instr} {rm : RmField} {F : Prec} {fd : RegIdx}
    {op : RoundMode → BitVec F.width × FpFlags} {r : RoundMode} (hi : i.wellFormed s.launch.variant = true)
    (hr : s.effectiveRm rm = some r) :
    ∃ t, s.roundedF i rm F fd op = .next t ∧ WroteF s t fd (s.resultBits F (op r).1) (op r).2 := by
  obtain ⟨t, ht, hw⟩ := s.retireF_eq F fd (op r)
  exact ⟨t, State.roundedF_next.2 ⟨hi, r, hr, ht⟩, hw⟩

theorem State.roundedX_next {s t : State} {i : Instr} {rm : RmField} {rd : RegIdx}
    {op : RoundMode → BitVec 32 × FpFlags} :
    s.roundedX i rm rd op = .next t ↔ i.wellFormed s.launch.variant = true ∧
      ∃ r, s.effectiveRm rm = some r ∧ s.retireXF rd (s.sext (op r).1) (op r).2 = .next t := by
  unfold State.roundedX; rw [State.listed_next, State.withRounding_next]

theorem State.roundedX_completes {s : State} {i : Instr} {rm : RmField} {rd : RegIdx}
    {op : RoundMode → BitVec 32 × FpFlags} {r : RoundMode} (hi : i.wellFormed s.launch.variant = true)
    (hr : s.effectiveRm rm = some r) :
    ∃ t, s.roundedX i rm rd op = .next t ∧ WroteX s t rd (s.sext (op r).1).toNat (op r).2 (s.upc + 4) := by
  obtain ⟨t, ht, hw⟩ := s.retireXF_eq rd (s.sext (op r).1) (op r).2
  exact ⟨t, State.roundedX_next.2 ⟨hi, r, hr, ht⟩, hw⟩

/-! ## Memory accesses -/

/-- The alignment check passes. -/
theorem State.misaligned_eq_false {s : State} {addr : BitVec s.bits} {n : Nat} :
    s.misaligned addr n = false ↔ s.launch.misaligned = .split ∨ addr.toNat % n = 0 := by
  unfold State.misaligned; cases s.launch.misaligned <;> simp

/-- `MemRead` returns the bytes exactly when the access is accessible in `READ` (20_memory.md R33). -/
theorem State.memRead_ok {s : State} {addr : BitVec s.bits} {n : Nat} {d : BitVec (8 * n)} :
    s.memRead addr n = .ok d ↔ s.Accessible s.launch.memMap.read addr n ∧ d = s.loadBits addr n := by
  unfold State.memRead State.Accessible
  rw [← State.misaligned_eq_false, ← List.all_eq_true]
  cases s.misaligned addr n <;> cases (s.accessAddrs addr n).all (inRegions s.launch.memMap.read) <;> simp [eq_comm]

/-- A load answers a next state exactly when the access is accessible and what follows it does. -/
theorem State.load_next {s t : State} {addr : BitVec s.bits} {n : Nat} {k : BitVec (8 * n) → Result} :
    s.load addr n k = .next t ↔ s.Accessible s.launch.memMap.read addr n ∧ k (s.loadBits addr n) = .next t := by
  unfold State.load raise
  cases h : s.memRead addr n with
  | error e =>
    have := mt (fun ha => State.memRead_ok.2 (And.intro ha rfl)) (by rw [h]; simp :
      ¬ s.memRead addr n = .ok (s.loadBits addr n))
    simp [this]
  | ok d =>
    obtain ⟨ha, rfl⟩ := State.memRead_ok.1 h
    simp [ha]

/-- `MemWrite` writes exactly when the access is accessible in `WRITE` and touches no byte of `EXEC` (20_memory.md R34). -/
theorem State.memWrite_next {s t : State} {addr : BitVec s.bits} {n : Nat} {v : BitVec (8 * n)} :
    s.memWrite addr n v = .next t ↔ s.Accessible s.launch.memMap.write addr n ∧
      (∀ a ∈ s.accessAddrs addr n, inRegions s.launch.memMap.exec a = false) ∧
      t = { s with mem := s.storeBits addr n v } := by
  unfold State.memWrite State.Accessible raise refuse
  rw [← State.misaligned_eq_false, ← List.all_eq_true]
  have hx : (∀ a ∈ s.accessAddrs addr n, inRegions s.launch.memMap.exec a = false) ↔
      (s.accessAddrs addr n).any (inRegions s.launch.memMap.exec) = false := by simp [List.any_eq_false]
  rw [hx]
  cases s.misaligned addr n <;> cases (s.accessAddrs addr n).all (inRegions s.launch.memMap.write) <;>
    cases (s.accessAddrs addr n).any (inRegions s.launch.memMap.exec) <;> simp [eq_comm]

theorem State.store_next {s t : State} {addr : BitVec s.bits} {n : Nat} {v : BitVec (8 * n)} :
    s.store addr n v = .next t ↔ s.Accessible s.launch.memMap.write addr n ∧
      (∀ a ∈ s.accessAddrs addr n, inRegions s.launch.memMap.exec a = false) ∧
      t = ({ s with mem := s.storeBits addr n v } : State).advance := by
  unfold State.store raise refuse
  cases h : s.memWrite addr n v with
  | next u =>
    obtain ⟨h1, h2, rfl⟩ := State.memWrite_next.1 h
    constructor
    · rintro ⟨⟩; exact ⟨h1, h2, rfl⟩
    · rintro ⟨-, -, rfl⟩; rfl
  | fault e =>
    have hn : ¬ s.memWrite addr n v = .next { s with mem := s.storeBits addr n v } := by rw [h]; simp
    rw [State.memWrite_next] at hn
    constructor
    · intro h'; cases h'
    · rintro ⟨h1, h2, -⟩; exact absurd ⟨h1, h2, rfl⟩ hn
  | refused r =>
    have hn : ¬ s.memWrite addr n v = .next { s with mem := s.storeBits addr n v } := by rw [h]; simp
    rw [State.memWrite_next] at hn
    constructor
    · intro h'; cases h'
    · rintro ⟨h1, h2, -⟩; exact absurd ⟨h1, h2, rfl⟩ hn

/-- Memory after a store: the value's bytes at the access's addresses, and every other byte as before. -/
theorem State.storeBits_stored {s : State} (hm : s.mem.wf = true) (addr : BitVec s.bits) {n : Nat} (hn : n ≤ 8)
    (v : BitVec (8 * n)) :
    Stored s ({ s with mem := s.storeBits addr n v } : State).advance addr n v.toNat := by
  constructor <;> try (intros; simp; done)
  · intro k hk
    have hmap := Memory.map_byte_setAll (m := s.mem) (bs := leBytes n v.toNat) hm (s.accessAddrs_nodup addr n hn) (by simp)
    have hget := congrArg (fun l : List Byte => l[k]?) hmap
    simp only [List.getElem?_map] at hget
    rw [List.getElem?_eq_getElem (by simpa using hk), List.getElem?_eq_getElem (by simpa using hk),
      leBytes_getElem n v.toNat k hk] at hget
    simp only [Option.map_some, Option.some.injEq] at hget
    simpa [State.storeBits, State.accessAddrs] using hget
  · intro a ha
    exact Memory.byte_setAll_of_notMem hm ha
  · exact Memory.setAll_wf hm
  · rw [State.advance_pc, State.withMem_nextPc]; exact s.nextPc_toNat

/-- What was stored is what a load of the same bytes reads (20_memory.md R40). -/
theorem State.loadBits_storeBits {s : State} (hm : s.mem.wf = true) (addr : BitVec s.bits) {n : Nat} (hn : n ≤ 8)
    (v : BitVec (8 * n)) : ({ s with mem := s.storeBits addr n v } : State).loadBits addr n = v := by
  have hmap := Memory.map_byte_setAll (m := s.mem) (bs := leBytes n v.toNat) hm (s.accessAddrs_nodup addr n hn) (by simp)
  have h : ({ s with mem := s.storeBits addr n v } : State).loadBits addr n =
      BitVec.ofNat (8 * n) (leNat ((s.accessAddrs addr n).map (s.storeBits addr n v).byte)) := rfl
  rw [h, State.storeBits, hmap, leNat_leBytes]
  apply BitVec.eq_of_toNat_eq
  rw [BitVec.toNat_ofNat, show 256 ^ n = 2 ^ (8 * n) by rw [Nat.pow_mul], Nat.mod_mod, Nat.mod_eq_of_lt v.isLt]

/-! ## Control transfer -/

theorem State.transfer_next {s s' t : State} {target : BitVec s.bits} :
    s.transfer target s' = .next t ↔ target.toNat % 4 = 0 ∧ t = s'.setPc (target.setWidth 64) := by
  unfold State.transfer raise; split <;> simp_all [eq_comm]

theorem State.transfer_fault {s s' : State} {target : BitVec s.bits} {e : Fault} :
    s.transfer target s' = .fault e ↔
      target.toNat % 4 ≠ 0 ∧ e = .instructionAddressMisaligned (target.setWidth 64) := by
  unfold State.transfer raise; split <;> simp_all [eq_comm]

/-- A conditional branch: to the target if taken and aligned, on if not taken (44_rv32i_control.md R159). -/
theorem State.branch_next {s t : State} {c : Bool} {offset : BitVec 13} :
    s.branch c offset = .next t ↔
      (c = true ∧ (s.pcX + s.sext offset).toNat % 4 = 0 ∧ t = s.setPc ((s.pcX + s.sext offset).setWidth 64)) ∨
      (c = false ∧ t = s.advance) := by
  unfold State.branch
  cases c
  · simp [eq_comm]
  · rw [if_pos rfl, State.transfer_next]; simp

theorem State.branch_fault {s : State} {c : Bool} {offset : BitVec 13} {e : Fault} :
    s.branch c offset = .fault e ↔ c = true ∧ (s.pcX + s.sext offset).toNat % 4 ≠ 0 ∧
      e = .instructionAddressMisaligned ((s.pcX + s.sext offset).setWidth 64) := by
  unfold State.branch; cases c <;> simp [State.transfer_fault]

/-- A jump: the link register written and the pc at the aligned target (44_rv32i_control.md R157, R158). -/
theorem State.jump_next {s t : State} {rd : RegIdx} {target : BitVec s.bits} :
    s.jump rd target = .next t ↔
      target.toNat % 4 = 0 ∧ t = (s.writeX rd s.nextPc).setPc (target.setWidth 64) := State.transfer_next

theorem State.jump_fault {s : State} {rd : RegIdx} {target : BitVec s.bits} {e : Fault} :
    s.jump rd target = .fault e ↔
      target.toNat % 4 ≠ 0 ∧ e = .instructionAddressMisaligned (target.setWidth 64) := State.transfer_fault

/-! ## One step -/

/-- A step that answers a next state fetched a word, decoded it and executed it. -/
theorem step_next {s t : State} (h : step s = .next t) :
    s.atEnd = false ∧ ∃ w i, s.fetch = .ok w ∧ decode s.launch.variant w = .ok i ∧ exec i s = .next t := by
  unfold step raise refuse at h
  split at h
  · cases h
  · rename_i he
    refine ⟨by simpa using he, ?_⟩
    cases hf : s.fetch with
    | error e => rw [hf] at h; cases h
    | ok w =>
      rw [hf] at h
      cases hd : decode s.launch.variant w with
      | error e => simp only [hd] at h; cases h
      | ok i => simp only [hd] at h; exact ⟨w, i, rfl, hd, h⟩

/-- The decoder answers well-formed instructions only. -/
theorem decode_wellFormed {v : Variant} {w : InstrWord} {i : Instr} (h : decode v w = .ok i) : i.wellFormed v = true := by
  unfold decode at h
  split at h
  · cases h
  · split at h
    · cases h; assumption
    · cases h

end Sys2Proof.Machine
end

