-- ==== Sys2Proof/Laws/Arith.lean ====
section
/-! SUPPORT. Register-wide operations as arithmetic on integers modulo `2^XLEN`, the form the statements give results in. -/

namespace Sys2Proof.Machine

theorem State.twelve_le_bits (s : State) : 12 ≤ s.bits := by rcases s.bits_cases with h | h <;> omega

theorem State.thirtyTwo_le_bits (s : State) : 32 ≤ s.bits := by rcases s.bits_cases with h | h <;> omega

/-- `XLEN` = 64 is a width of 64 bits. -/
theorem State.bits_of_is64 {s : State} (h : s.launch.variant.is64 = true) : s.bits = 64 := by
  unfold State.bits; revert h; unfold Variant.is64; cases s.launch.variant.xlen <;> simp [Xlen.bits]

theorem State.ux_emod (s : State) (i : RegIdx) : s.ux i % s.modulus = (s.readX i).toNat := s.toNat_emod _

theorem State.sx_emod (s : State) (i : RegIdx) : s.sx i % s.modulus = (s.readX i).toNat := s.toInt_emod _

/-- A sign-extended value, as an integer modulo `2^XLEN`. -/
theorem State.sext_emod (s : State) {n : Nat} (v : BitVec n) (h : n ≤ s.bits) :
    v.toInt % s.modulus = (s.sext v).toNat := by
  rw [← s.toInt_emod, State.sext, BitVec.toInt_signExtend_of_le h]

theorem State.add_emod (s : State) {a b : BitVec s.bits} {x y : Int} (hx : x % s.modulus = a.toNat)
    (hy : y % s.modulus = b.toNat) : (x + y) % s.modulus = (a + b).toNat := by
  rw [Int.add_emod, hx, hy, BitVec.toNat_add]; unfold State.modulus; push_cast; rfl

theorem State.sub_emod (s : State) (a b : BitVec s.bits) : ((a.toNat : Int) - b.toNat) % s.modulus = (a - b).toNat := by
  rw [BitVec.toNat_sub]; unfold State.modulus
  have hb := b.isLt
  push_cast [Nat.cast_sub hb.le]
  rw [show (2 : Int) ^ s.bits - b.toNat + a.toNat = (a.toNat - b.toNat) + 2 ^ s.bits by ring, Int.add_emod_right]

theorem State.shiftLeft_emod (s : State) (a : BitVec s.bits) (k : Nat) :
    ((a.toNat : Int) * 2 ^ k) % s.modulus = (a <<< k).toNat := by
  rw [BitVec.toNat_shiftLeft, Nat.shiftLeft_eq]; unfold State.modulus; push_cast; rfl

theorem State.ushiftRight_emod (s : State) (a : BitVec s.bits) (k : Nat) :
    ((a.toNat : Int) / 2 ^ k) % s.modulus = (a >>> k).toNat := by
  have h : ((a >>> k).toNat : Int) = (a.toNat : Int) / 2 ^ k := by
    rw [BitVec.toNat_ushiftRight, Nat.shiftRight_eq_div_pow]; push_cast; rfl
  rw [← h]; exact s.toNat_emod _

theorem State.sshiftRight_emod (s : State) (a : BitVec s.bits) (k : Nat) :
    (a.toInt / 2 ^ k) % s.modulus = (a.sshiftRight k).toNat := by
  rw [← s.toInt_emod, BitVec.toInt_sshiftRight, Int.shiftRight_eq_div_pow]; push_cast; rfl

/-- A comparison's value. -/
theorem State.boolBits_emod (s : State) (c : Bool) : (if c = true then (1 : Int) else 0) % s.modulus = (s.boolBits c).toNat := by
  have hb := s.twelve_le_bits
  have h1 : (1#s.bits).toNat = 1 := by
    rw [BitVec.toNat_ofNat]; exact Nat.mod_eq_of_lt (Nat.one_lt_two_pow (by omega))
  cases c
  · simp [State.boolBits]
  · have h := s.toNat_emod (1#s.bits)
    rw [h1] at h
    simpa [State.boolBits, h1] using h

/-- The shift amount of `sll`, `srl`, `sra` is the register modulo `XLEN` (43_rv32i_reg_arith.md R132). -/
theorem State.shiftAmount_eq (s : State) (r : RegIdx) : s.shiftAmount r = (s.readX r).toNat % s.bits := by
  have h5 : ((s.readX r).extractLsb' 0 5).toNat = (s.readX r).toNat % 32 := by simp [BitVec.extractLsb'_toNat]
  have h6 : ((s.readX r).extractLsb' 0 6).toNat = (s.readX r).toNat % 64 := by simp [BitVec.extractLsb'_toNat]
  unfold State.shiftAmount
  split <;> rename_i hx
  · exact h5.trans (congrArg ((s.readX r).toNat % ·) (show 32 = s.bits by unfold State.bits; rw [hx]; rfl))
  · exact h6.trans (congrArg ((s.readX r).toNat % ·) (show 64 = s.bits by unfold State.bits; rw [hx]; rfl))

/-- A 32-bit part of a value, signed, is the value reduced to the signed 32-bit range. -/
theorem toInt_setWidth_32 {n : Nat} (v : BitVec n) : (v.setWidth 32).toInt = Int.bmod v.toNat (2 ^ 32) := by
  rw [BitVec.toInt_eq_toNat_bmod, BitVec.toNat_setWidth, Int.natCast_emod, Int.emod_bmod]

/-- The 32-bit value of a `lui` or `auipc` immediate. -/
theorem toInt_upperImm (u : BitVec 20) : (u ++ 0#12).toInt = u.toInt * 2 ^ 12 := by
  rw [BitVec.toInt_eq_toNat_cond, BitVec.toInt_eq_toNat_cond, BitVec.toNat_append]
  have hu := u.isLt
  simp [Nat.shiftLeft_eq]
  split <;> split <;> omega

/-- An instruction that only writes an integer register completes with that value. -/
theorem CompletesX.of_retireX {s : State} {i : Instr} {rd : RegIdx} {v : BitVec s.bits} {z : Int}
    (hi : exec i s = s.retireX rd v) (hz : z % s.modulus = v.toNat) : CompletesX i s rd z 0#5 := by
  obtain ⟨t, ht, hw⟩ := s.retireX_eq rd v
  exact ⟨t, hi.trans ht, hw.congr ((s.toNat_emod v).trans hz.symm)⟩

end Sys2Proof.Machine
end

