-- ==== Sys2Proof/Laws/Encoding.lean ====
section
/-! SUPPORT. The instruction formats: each field read back from an encoded word, each word put back together from its fields,
and each format under the masks of the opcode table. -/

namespace Sys2Proof

/-! ## The `rm` field -/

@[simp] theorem RmField.ofBits_toBits (rm : RmField) : RmField.ofBits rm.toBits = some rm := by cases rm <;> rfl

theorem RmField.toBits_of_ofBits {b : BitVec 3} {rm : RmField} (h : RmField.ofBits b = some rm) : rm.toBits = b := by
  revert h; revert rm b; decide

/-! ## encR (R52) -/

@[simp] theorem encR_funct7Of (f7 : BitVec 7) (rs2 rs1 : RegIdx) (f3 : BitVec 3) (rd : RegIdx) (op : BitVec 7) :
    funct7Of (encR f7 rs2 rs1 f3 rd op) = f7 := by
  refine BitVec.eq_of_getLsbD_eq fun i hi => ?_
  simp only [funct7Of, encR, BitVec.getLsbD_append, BitVec.getLsbD_extractLsb']
  interval_cases i <;> simp

@[simp] theorem encR_rs2Of (f7 : BitVec 7) (rs2 rs1 : RegIdx) (f3 : BitVec 3) (rd : RegIdx) (op : BitVec 7) :
    rs2Of (encR f7 rs2 rs1 f3 rd op) = rs2 := by
  refine BitVec.eq_of_getLsbD_eq fun i hi => ?_
  simp only [rs2Of, encR, BitVec.getLsbD_append, BitVec.getLsbD_extractLsb']
  interval_cases i <;> simp

@[simp] theorem encR_rs1Of (f7 : BitVec 7) (rs2 rs1 : RegIdx) (f3 : BitVec 3) (rd : RegIdx) (op : BitVec 7) :
    rs1Of (encR f7 rs2 rs1 f3 rd op) = rs1 := by
  refine BitVec.eq_of_getLsbD_eq fun i hi => ?_
  simp only [rs1Of, encR, BitVec.getLsbD_append, BitVec.getLsbD_extractLsb']
  interval_cases i <;> simp

@[simp] theorem encR_funct3Of (f7 : BitVec 7) (rs2 rs1 : RegIdx) (f3 : BitVec 3) (rd : RegIdx) (op : BitVec 7) :
    funct3Of (encR f7 rs2 rs1 f3 rd op) = f3 := by
  refine BitVec.eq_of_getLsbD_eq fun i hi => ?_
  simp only [funct3Of, encR, BitVec.getLsbD_append, BitVec.getLsbD_extractLsb']
  interval_cases i <;> simp

@[simp] theorem encR_rdOf (f7 : BitVec 7) (rs2 rs1 : RegIdx) (f3 : BitVec 3) (rd : RegIdx) (op : BitVec 7) :
    rdOf (encR f7 rs2 rs1 f3 rd op) = rd := by
  refine BitVec.eq_of_getLsbD_eq fun i hi => ?_
  simp only [rdOf, encR, BitVec.getLsbD_append, BitVec.getLsbD_extractLsb']
  interval_cases i <;> simp

@[simp] theorem encR_opOf (f7 : BitVec 7) (rs2 rs1 : RegIdx) (f3 : BitVec 3) (rd : RegIdx) (op : BitVec 7) :
    opOf (encR f7 rs2 rs1 f3 rd op) = op := by
  refine BitVec.eq_of_getLsbD_eq fun i hi => ?_
  simp only [opOf, encR, BitVec.getLsbD_append, BitVec.getLsbD_extractLsb']
  interval_cases i <;> simp

theorem encR_of (w : InstrWord) : encR (funct7Of w) (rs2Of w) (rs1Of w) (funct3Of w) (rdOf w) (opOf w) = w := by
  refine BitVec.eq_of_getLsbD_eq fun i hi => ?_
  simp only [encR, funct7Of, rs2Of, rs1Of, funct3Of, rdOf, opOf, BitVec.getLsbD_append, BitVec.getLsbD_extractLsb']
  interval_cases i <;> simp

theorem encR_and_fe00707f (f7 : BitVec 7) (rs2 rs1 : RegIdx) (f3 : BitVec 3) (rd : RegIdx) (op : BitVec 7) :
    encR f7 rs2 rs1 f3 rd op &&& 0xfe00707f#32 = encR f7 0#5 0#5 f3 0#5 op := by
  refine BitVec.eq_of_getLsbD_eq fun i hi => ?_
  simp only [encR, BitVec.getLsbD_append, BitVec.getLsbD_and]
  interval_cases i <;> simp

theorem encR_and_fe00007f (f7 : BitVec 7) (rs2 rs1 : RegIdx) (f3 : BitVec 3) (rd : RegIdx) (op : BitVec 7) :
    encR f7 rs2 rs1 f3 rd op &&& 0xfe00007f#32 = encR f7 0#5 0#5 0#3 0#5 op := by
  refine BitVec.eq_of_getLsbD_eq fun i hi => ?_
  simp only [encR, BitVec.getLsbD_append, BitVec.getLsbD_and]
  interval_cases i <;> simp

theorem encR_and_fff0007f (f7 : BitVec 7) (rs2 rs1 : RegIdx) (f3 : BitVec 3) (rd : RegIdx) (op : BitVec 7) :
    encR f7 rs2 rs1 f3 rd op &&& 0xfff0007f#32 = encR f7 rs2 0#5 0#3 0#5 op := by
  refine BitVec.eq_of_getLsbD_eq fun i hi => ?_
  simp only [encR, BitVec.getLsbD_append, BitVec.getLsbD_and]
  interval_cases i <;> simp

theorem encR_and_fff0707f (f7 : BitVec 7) (rs2 rs1 : RegIdx) (f3 : BitVec 3) (rd : RegIdx) (op : BitVec 7) :
    encR f7 rs2 rs1 f3 rd op &&& 0xfff0707f#32 = encR f7 rs2 0#5 f3 0#5 op := by
  refine BitVec.eq_of_getLsbD_eq fun i hi => ?_
  simp only [encR, BitVec.getLsbD_append, BitVec.getLsbD_and]
  interval_cases i <;> simp

/-! ## encI (R53) -/

@[simp] theorem encI_immIOf (imm : BitVec 12) (rs1 : RegIdx) (f3 : BitVec 3) (rd : RegIdx) (op : BitVec 7) :
    immIOf (encI imm rs1 f3 rd op) = imm := by
  refine BitVec.eq_of_getLsbD_eq fun i hi => ?_
  simp only [immIOf, encI, BitVec.getLsbD_append, BitVec.getLsbD_extractLsb']
  interval_cases i <;> simp

@[simp] theorem encI_rs1Of (imm : BitVec 12) (rs1 : RegIdx) (f3 : BitVec 3) (rd : RegIdx) (op : BitVec 7) :
    rs1Of (encI imm rs1 f3 rd op) = rs1 := by
  refine BitVec.eq_of_getLsbD_eq fun i hi => ?_
  simp only [rs1Of, encI, BitVec.getLsbD_append, BitVec.getLsbD_extractLsb']
  interval_cases i <;> simp

@[simp] theorem encI_funct3Of (imm : BitVec 12) (rs1 : RegIdx) (f3 : BitVec 3) (rd : RegIdx) (op : BitVec 7) :
    funct3Of (encI imm rs1 f3 rd op) = f3 := by
  refine BitVec.eq_of_getLsbD_eq fun i hi => ?_
  simp only [funct3Of, encI, BitVec.getLsbD_append, BitVec.getLsbD_extractLsb']
  interval_cases i <;> simp

@[simp] theorem encI_rdOf (imm : BitVec 12) (rs1 : RegIdx) (f3 : BitVec 3) (rd : RegIdx) (op : BitVec 7) :
    rdOf (encI imm rs1 f3 rd op) = rd := by
  refine BitVec.eq_of_getLsbD_eq fun i hi => ?_
  simp only [rdOf, encI, BitVec.getLsbD_append, BitVec.getLsbD_extractLsb']
  interval_cases i <;> simp

@[simp] theorem encI_opOf (imm : BitVec 12) (rs1 : RegIdx) (f3 : BitVec 3) (rd : RegIdx) (op : BitVec 7) :
    opOf (encI imm rs1 f3 rd op) = op := by
  refine BitVec.eq_of_getLsbD_eq fun i hi => ?_
  simp only [opOf, encI, BitVec.getLsbD_append, BitVec.getLsbD_extractLsb']
  interval_cases i <;> simp

theorem encI_of (w : InstrWord) : encI (immIOf w) (rs1Of w) (funct3Of w) (rdOf w) (opOf w) = w := by
  refine BitVec.eq_of_getLsbD_eq fun i hi => ?_
  simp only [encI, immIOf, rs1Of, funct3Of, rdOf, opOf, BitVec.getLsbD_append, BitVec.getLsbD_extractLsb']
  interval_cases i <;> simp

theorem encI_and_0000707f (imm : BitVec 12) (rs1 : RegIdx) (f3 : BitVec 3) (rd : RegIdx) (op : BitVec 7) :
    encI imm rs1 f3 rd op &&& 0x0000707f#32 = encI 0#12 0#5 f3 0#5 op := by
  refine BitVec.eq_of_getLsbD_eq fun i hi => ?_
  simp only [encI, BitVec.getLsbD_append, BitVec.getLsbD_and]
  interval_cases i <;> simp

/-! ## encShift (R59) -/

@[simp] theorem encShift_funct6Of (f6 shamt : BitVec 6) (rs1 : RegIdx) (f3 : BitVec 3) (rd : RegIdx) (op : BitVec 7) :
    funct6Of (encShift f6 shamt rs1 f3 rd op) = f6 := by
  refine BitVec.eq_of_getLsbD_eq fun i hi => ?_
  simp only [funct6Of, encShift, BitVec.getLsbD_append, BitVec.getLsbD_extractLsb']
  interval_cases i <;> simp

@[simp] theorem encShift_shamtOf (f6 shamt : BitVec 6) (rs1 : RegIdx) (f3 : BitVec 3) (rd : RegIdx) (op : BitVec 7) :
    shamtOf (encShift f6 shamt rs1 f3 rd op) = shamt := by
  refine BitVec.eq_of_getLsbD_eq fun i hi => ?_
  simp only [shamtOf, encShift, BitVec.getLsbD_append, BitVec.getLsbD_extractLsb']
  interval_cases i <;> simp

@[simp] theorem encShift_rs1Of (f6 shamt : BitVec 6) (rs1 : RegIdx) (f3 : BitVec 3) (rd : RegIdx) (op : BitVec 7) :
    rs1Of (encShift f6 shamt rs1 f3 rd op) = rs1 := by
  refine BitVec.eq_of_getLsbD_eq fun i hi => ?_
  simp only [rs1Of, encShift, BitVec.getLsbD_append, BitVec.getLsbD_extractLsb']
  interval_cases i <;> simp

@[simp] theorem encShift_funct3Of (f6 shamt : BitVec 6) (rs1 : RegIdx) (f3 : BitVec 3) (rd : RegIdx) (op : BitVec 7) :
    funct3Of (encShift f6 shamt rs1 f3 rd op) = f3 := by
  refine BitVec.eq_of_getLsbD_eq fun i hi => ?_
  simp only [funct3Of, encShift, BitVec.getLsbD_append, BitVec.getLsbD_extractLsb']
  interval_cases i <;> simp

@[simp] theorem encShift_rdOf (f6 shamt : BitVec 6) (rs1 : RegIdx) (f3 : BitVec 3) (rd : RegIdx) (op : BitVec 7) :
    rdOf (encShift f6 shamt rs1 f3 rd op) = rd := by
  refine BitVec.eq_of_getLsbD_eq fun i hi => ?_
  simp only [rdOf, encShift, BitVec.getLsbD_append, BitVec.getLsbD_extractLsb']
  interval_cases i <;> simp

@[simp] theorem encShift_opOf (f6 shamt : BitVec 6) (rs1 : RegIdx) (f3 : BitVec 3) (rd : RegIdx) (op : BitVec 7) :
    opOf (encShift f6 shamt rs1 f3 rd op) = op := by
  refine BitVec.eq_of_getLsbD_eq fun i hi => ?_
  simp only [opOf, encShift, BitVec.getLsbD_append, BitVec.getLsbD_extractLsb']
  interval_cases i <;> simp

theorem encShift_of (w : InstrWord) : encShift (funct6Of w) (shamtOf w) (rs1Of w) (funct3Of w) (rdOf w) (opOf w) = w := by
  refine BitVec.eq_of_getLsbD_eq fun i hi => ?_
  simp only [encShift, funct6Of, shamtOf, rs1Of, funct3Of, rdOf, opOf, BitVec.getLsbD_append, BitVec.getLsbD_extractLsb']
  interval_cases i <;> simp

theorem encShift_and_fc00707f (f6 shamt : BitVec 6) (rs1 : RegIdx) (f3 : BitVec 3) (rd : RegIdx) (op : BitVec 7) :
    encShift f6 shamt rs1 f3 rd op &&& 0xfc00707f#32 = encShift f6 0#6 0#5 f3 0#5 op := by
  refine BitVec.eq_of_getLsbD_eq fun i hi => ?_
  simp only [encShift, BitVec.getLsbD_append, BitVec.getLsbD_and]
  interval_cases i <;> simp

/-! ## encS (R54) -/

@[simp] theorem encS_immSOf (imm : BitVec 12) (rs2 rs1 : RegIdx) (f3 : BitVec 3) (op : BitVec 7) :
    immSOf (encS imm rs2 rs1 f3 op) = imm := by
  refine BitVec.eq_of_getLsbD_eq fun i hi => ?_
  simp only [immSOf, encS, BitVec.getLsbD_append, BitVec.getLsbD_extractLsb']
  interval_cases i <;> simp

@[simp] theorem encS_rs2Of (imm : BitVec 12) (rs2 rs1 : RegIdx) (f3 : BitVec 3) (op : BitVec 7) :
    rs2Of (encS imm rs2 rs1 f3 op) = rs2 := by
  refine BitVec.eq_of_getLsbD_eq fun i hi => ?_
  simp only [rs2Of, encS, BitVec.getLsbD_append, BitVec.getLsbD_extractLsb']
  interval_cases i <;> simp

@[simp] theorem encS_rs1Of (imm : BitVec 12) (rs2 rs1 : RegIdx) (f3 : BitVec 3) (op : BitVec 7) :
    rs1Of (encS imm rs2 rs1 f3 op) = rs1 := by
  refine BitVec.eq_of_getLsbD_eq fun i hi => ?_
  simp only [rs1Of, encS, BitVec.getLsbD_append, BitVec.getLsbD_extractLsb']
  interval_cases i <;> simp

@[simp] theorem encS_funct3Of (imm : BitVec 12) (rs2 rs1 : RegIdx) (f3 : BitVec 3) (op : BitVec 7) :
    funct3Of (encS imm rs2 rs1 f3 op) = f3 := by
  refine BitVec.eq_of_getLsbD_eq fun i hi => ?_
  simp only [funct3Of, encS, BitVec.getLsbD_append, BitVec.getLsbD_extractLsb']
  interval_cases i <;> simp

@[simp] theorem encS_opOf (imm : BitVec 12) (rs2 rs1 : RegIdx) (f3 : BitVec 3) (op : BitVec 7) :
    opOf (encS imm rs2 rs1 f3 op) = op := by
  refine BitVec.eq_of_getLsbD_eq fun i hi => ?_
  simp only [opOf, encS, BitVec.getLsbD_append, BitVec.getLsbD_extractLsb']
  interval_cases i <;> simp

theorem encS_of (w : InstrWord) : encS (immSOf w) (rs2Of w) (rs1Of w) (funct3Of w) (opOf w) = w := by
  refine BitVec.eq_of_getLsbD_eq fun i hi => ?_
  simp only [encS, immSOf, rs2Of, rs1Of, funct3Of, opOf, BitVec.getLsbD_append, BitVec.getLsbD_extractLsb']
  interval_cases i <;> simp

theorem encS_and_0000707f (imm : BitVec 12) (rs2 rs1 : RegIdx) (f3 : BitVec 3) (op : BitVec 7) :
    encS imm rs2 rs1 f3 op &&& 0x0000707f#32 = encS 0#12 0#5 0#5 f3 op := by
  refine BitVec.eq_of_getLsbD_eq fun i hi => ?_
  simp only [encS, BitVec.getLsbD_append, BitVec.getLsbD_and, BitVec.getLsbD_extractLsb']
  interval_cases i <;> simp

/-! ## encB (R55) -/

theorem encB_immBOf (offset : BitVec 13) (rs2 rs1 : RegIdx) (f3 : BitVec 3) (op : BitVec 7)
    (h : evenOffset offset = true) : immBOf (encB offset rs2 rs1 f3 op) = offset := by
  have h0 : offset.getLsbD 0 = false := by simpa [evenOffset] using h
  rw [BitVec.getLsbD_eq_getElem (by decide)] at h0
  refine BitVec.eq_of_getLsbD_eq fun i hi => ?_
  simp only [immBOf, encB, BitVec.getLsbD_append, BitVec.getLsbD_extractLsb']
  interval_cases i <;> simp [h0]

@[simp] theorem encB_rs2Of (offset : BitVec 13) (rs2 rs1 : RegIdx) (f3 : BitVec 3) (op : BitVec 7) :
    rs2Of (encB offset rs2 rs1 f3 op) = rs2 := by
  refine BitVec.eq_of_getLsbD_eq fun i hi => ?_
  simp only [rs2Of, encB, BitVec.getLsbD_append, BitVec.getLsbD_extractLsb']
  interval_cases i <;> simp

@[simp] theorem encB_rs1Of (offset : BitVec 13) (rs2 rs1 : RegIdx) (f3 : BitVec 3) (op : BitVec 7) :
    rs1Of (encB offset rs2 rs1 f3 op) = rs1 := by
  refine BitVec.eq_of_getLsbD_eq fun i hi => ?_
  simp only [rs1Of, encB, BitVec.getLsbD_append, BitVec.getLsbD_extractLsb']
  interval_cases i <;> simp

@[simp] theorem encB_funct3Of (offset : BitVec 13) (rs2 rs1 : RegIdx) (f3 : BitVec 3) (op : BitVec 7) :
    funct3Of (encB offset rs2 rs1 f3 op) = f3 := by
  refine BitVec.eq_of_getLsbD_eq fun i hi => ?_
  simp only [funct3Of, encB, BitVec.getLsbD_append, BitVec.getLsbD_extractLsb']
  interval_cases i <;> simp

@[simp] theorem encB_opOf (offset : BitVec 13) (rs2 rs1 : RegIdx) (f3 : BitVec 3) (op : BitVec 7) :
    opOf (encB offset rs2 rs1 f3 op) = op := by
  refine BitVec.eq_of_getLsbD_eq fun i hi => ?_
  simp only [opOf, encB, BitVec.getLsbD_append, BitVec.getLsbD_extractLsb']
  interval_cases i <;> simp

theorem encB_of (w : InstrWord) : encB (immBOf w) (rs2Of w) (rs1Of w) (funct3Of w) (opOf w) = w := by
  refine BitVec.eq_of_getLsbD_eq fun i hi => ?_
  simp only [encB, immBOf, rs2Of, rs1Of, funct3Of, opOf, BitVec.getLsbD_append, BitVec.getLsbD_extractLsb']
  interval_cases i <;> simp

theorem evenOffset_immBOf (w : InstrWord) : evenOffset (immBOf w) = true := by
  simp only [evenOffset, immBOf, BitVec.getLsbD_append]; rfl

theorem encB_and_0000707f (offset : BitVec 13) (rs2 rs1 : RegIdx) (f3 : BitVec 3) (op : BitVec 7) :
    encB offset rs2 rs1 f3 op &&& 0x0000707f#32 = encB 0#13 0#5 0#5 f3 op := by
  refine BitVec.eq_of_getLsbD_eq fun i hi => ?_
  simp only [encB, BitVec.getLsbD_append, BitVec.getLsbD_and, BitVec.getLsbD_extractLsb']
  interval_cases i <;> simp

/-! ## encU (R56) -/

@[simp] theorem encU_upimmOf (upimm : BitVec 20) (rd : RegIdx) (op : BitVec 7) :
    upimmOf (encU upimm rd op) = upimm := by
  refine BitVec.eq_of_getLsbD_eq fun i hi => ?_
  simp only [upimmOf, encU, BitVec.getLsbD_append, BitVec.getLsbD_extractLsb']
  interval_cases i <;> simp

@[simp] theorem encU_rdOf (upimm : BitVec 20) (rd : RegIdx) (op : BitVec 7) :
    rdOf (encU upimm rd op) = rd := by
  refine BitVec.eq_of_getLsbD_eq fun i hi => ?_
  simp only [rdOf, encU, BitVec.getLsbD_append, BitVec.getLsbD_extractLsb']
  interval_cases i <;> simp

@[simp] theorem encU_opOf (upimm : BitVec 20) (rd : RegIdx) (op : BitVec 7) :
    opOf (encU upimm rd op) = op := by
  refine BitVec.eq_of_getLsbD_eq fun i hi => ?_
  simp only [opOf, encU, BitVec.getLsbD_append, BitVec.getLsbD_extractLsb']
  interval_cases i <;> simp

theorem encU_of (w : InstrWord) : encU (upimmOf w) (rdOf w) (opOf w) = w := by
  refine BitVec.eq_of_getLsbD_eq fun i hi => ?_
  simp only [encU, upimmOf, rdOf, opOf, BitVec.getLsbD_append, BitVec.getLsbD_extractLsb']
  interval_cases i <;> simp

theorem encU_and_0000007f (upimm : BitVec 20) (rd : RegIdx) (op : BitVec 7) :
    encU upimm rd op &&& 0x0000007f#32 = encU 0#20 0#5 op := by
  refine BitVec.eq_of_getLsbD_eq fun i hi => ?_
  simp only [encU, BitVec.getLsbD_append, BitVec.getLsbD_and]
  interval_cases i <;> simp

/-! ## encJ (R57) -/

theorem encJ_immJOf (offset : BitVec 21) (rd : RegIdx) (op : BitVec 7)
    (h : evenOffset offset = true) : immJOf (encJ offset rd op) = offset := by
  have h0 : offset.getLsbD 0 = false := by simpa [evenOffset] using h
  rw [BitVec.getLsbD_eq_getElem (by decide)] at h0
  refine BitVec.eq_of_getLsbD_eq fun i hi => ?_
  simp only [immJOf, encJ, BitVec.getLsbD_append, BitVec.getLsbD_extractLsb']
  interval_cases i <;> simp [h0]

@[simp] theorem encJ_rdOf (offset : BitVec 21) (rd : RegIdx) (op : BitVec 7) :
    rdOf (encJ offset rd op) = rd := by
  refine BitVec.eq_of_getLsbD_eq fun i hi => ?_
  simp only [rdOf, encJ, BitVec.getLsbD_append, BitVec.getLsbD_extractLsb']
  interval_cases i <;> simp

@[simp] theorem encJ_opOf (offset : BitVec 21) (rd : RegIdx) (op : BitVec 7) :
    opOf (encJ offset rd op) = op := by
  refine BitVec.eq_of_getLsbD_eq fun i hi => ?_
  simp only [opOf, encJ, BitVec.getLsbD_append, BitVec.getLsbD_extractLsb']
  interval_cases i <;> simp

theorem encJ_of (w : InstrWord) : encJ (immJOf w) (rdOf w) (opOf w) = w := by
  refine BitVec.eq_of_getLsbD_eq fun i hi => ?_
  simp only [encJ, immJOf, rdOf, opOf, BitVec.getLsbD_append, BitVec.getLsbD_extractLsb']
  interval_cases i <;> simp

theorem evenOffset_immJOf (w : InstrWord) : evenOffset (immJOf w) = true := by
  simp only [evenOffset, immJOf, BitVec.getLsbD_append]; rfl

theorem encJ_and_0000007f (offset : BitVec 21) (rd : RegIdx) (op : BitVec 7) :
    encJ offset rd op &&& 0x0000007f#32 = encJ 0#21 0#5 op := by
  refine BitVec.eq_of_getLsbD_eq fun i hi => ?_
  simp only [encJ, BitVec.getLsbD_append, BitVec.getLsbD_and, BitVec.getLsbD_extractLsb']
  interval_cases i <;> simp

/-! ## encR4 (R58) -/

@[simp] theorem encR4_rs3Of (fs3 : RegIdx) (f2 : BitVec 2) (fs2 fs1 : RegIdx) (f3 : BitVec 3) (fd : RegIdx) (op : BitVec 7) :
    rs3Of (encR4 fs3 f2 fs2 fs1 f3 fd op) = fs3 := by
  refine BitVec.eq_of_getLsbD_eq fun i hi => ?_
  simp only [rs3Of, encR4, BitVec.getLsbD_append, BitVec.getLsbD_extractLsb']
  interval_cases i <;> simp

@[simp] theorem encR4_funct2Of (fs3 : RegIdx) (f2 : BitVec 2) (fs2 fs1 : RegIdx) (f3 : BitVec 3) (fd : RegIdx) (op : BitVec 7) :
    funct2Of (encR4 fs3 f2 fs2 fs1 f3 fd op) = f2 := by
  refine BitVec.eq_of_getLsbD_eq fun i hi => ?_
  simp only [funct2Of, encR4, BitVec.getLsbD_append, BitVec.getLsbD_extractLsb']
  interval_cases i <;> simp

@[simp] theorem encR4_rs2Of (fs3 : RegIdx) (f2 : BitVec 2) (fs2 fs1 : RegIdx) (f3 : BitVec 3) (fd : RegIdx) (op : BitVec 7) :
    rs2Of (encR4 fs3 f2 fs2 fs1 f3 fd op) = fs2 := by
  refine BitVec.eq_of_getLsbD_eq fun i hi => ?_
  simp only [rs2Of, encR4, BitVec.getLsbD_append, BitVec.getLsbD_extractLsb']
  interval_cases i <;> simp

@[simp] theorem encR4_rs1Of (fs3 : RegIdx) (f2 : BitVec 2) (fs2 fs1 : RegIdx) (f3 : BitVec 3) (fd : RegIdx) (op : BitVec 7) :
    rs1Of (encR4 fs3 f2 fs2 fs1 f3 fd op) = fs1 := by
  refine BitVec.eq_of_getLsbD_eq fun i hi => ?_
  simp only [rs1Of, encR4, BitVec.getLsbD_append, BitVec.getLsbD_extractLsb']
  interval_cases i <;> simp

@[simp] theorem encR4_funct3Of (fs3 : RegIdx) (f2 : BitVec 2) (fs2 fs1 : RegIdx) (f3 : BitVec 3) (fd : RegIdx) (op : BitVec 7) :
    funct3Of (encR4 fs3 f2 fs2 fs1 f3 fd op) = f3 := by
  refine BitVec.eq_of_getLsbD_eq fun i hi => ?_
  simp only [funct3Of, encR4, BitVec.getLsbD_append, BitVec.getLsbD_extractLsb']
  interval_cases i <;> simp

@[simp] theorem encR4_rdOf (fs3 : RegIdx) (f2 : BitVec 2) (fs2 fs1 : RegIdx) (f3 : BitVec 3) (fd : RegIdx) (op : BitVec 7) :
    rdOf (encR4 fs3 f2 fs2 fs1 f3 fd op) = fd := by
  refine BitVec.eq_of_getLsbD_eq fun i hi => ?_
  simp only [rdOf, encR4, BitVec.getLsbD_append, BitVec.getLsbD_extractLsb']
  interval_cases i <;> simp

@[simp] theorem encR4_opOf (fs3 : RegIdx) (f2 : BitVec 2) (fs2 fs1 : RegIdx) (f3 : BitVec 3) (fd : RegIdx) (op : BitVec 7) :
    opOf (encR4 fs3 f2 fs2 fs1 f3 fd op) = op := by
  refine BitVec.eq_of_getLsbD_eq fun i hi => ?_
  simp only [opOf, encR4, BitVec.getLsbD_append, BitVec.getLsbD_extractLsb']
  interval_cases i <;> simp

theorem encR4_of (w : InstrWord) : encR4 (rs3Of w) (funct2Of w) (rs2Of w) (rs1Of w) (funct3Of w) (rdOf w) (opOf w) = w := by
  refine BitVec.eq_of_getLsbD_eq fun i hi => ?_
  simp only [encR4, rs3Of, funct2Of, rs2Of, rs1Of, funct3Of, rdOf, opOf, BitVec.getLsbD_append, BitVec.getLsbD_extractLsb']
  interval_cases i <;> simp

theorem encR4_and_0600007f (fs3 : RegIdx) (f2 : BitVec 2) (fs2 fs1 : RegIdx) (f3 : BitVec 3) (fd : RegIdx) (op : BitVec 7) :
    encR4 fs3 f2 fs2 fs1 f3 fd op &&& 0x0600007f#32 = encR4 0#5 f2 0#5 0#5 0#3 0#5 op := by
  refine BitVec.eq_of_getLsbD_eq fun i hi => ?_
  simp only [encR4, BitVec.getLsbD_append, BitVec.getLsbD_and]
  interval_cases i <;> simp

/-- The RV32 row of an immediate shift also fixes bit 25, the top bit of the shift amount (R59, R63). -/
theorem encShift_and_fe00707f (f6 shamt : BitVec 6) (rs1 : RegIdx) (f3 : BitVec 3) (rd : RegIdx) (op : BitVec 7)
    (h : shamt.toNat < 32) : encShift f6 shamt rs1 f3 rd op &&& 0xfe00707f#32 = encShift f6 0#6 0#5 f3 0#5 op := by
  have h5 : shamt[5] = false := by
    rw [← BitVec.getLsbD_eq_getElem, BitVec.getLsbD]
    exact Nat.testBit_lt_two_pow (i := 5) (by omega)
  refine BitVec.eq_of_getLsbD_eq fun i hi => ?_
  simp only [encShift, BitVec.getLsbD_append, BitVec.getLsbD_and]
  interval_cases i <;> simp [h5]

end Sys2Proof
end

