-- ==== Sys2Proof/Laws/Rounding.lean ====
section
/-! SUPPORT. The patterns of a format and the numbers they stand for, and what it is to round a number to the nearer or the
asked-for of its two neighbours (46_rvfd_compute.md R180, R181). -/

namespace Sys2Proof.Machine

/-! ## The numbers of a format -/

/-- The number that magnitude bits stand for. -/
def FP.magValue (F : Prec) (k : Nat) : ℚ :=
  if k / 2 ^ F.fracBits = 0 then (k % 2 ^ F.fracBits : Nat) * (2 : ℚ) ^ F.minExp
  else (k % 2 ^ F.fracBits + 2 ^ F.fracBits : Nat) * (2 : ℚ) ^ ((k / 2 ^ F.fracBits : Nat) - 1 + F.minExp)

theorem FP.value_eq (F : Prec) (a : BitVec F.width) :
    FP.value F a = (if FP.sign F a = true then -1 else 1) * FP.magValue F (FP.mag F a) := by
  unfold FP.value FP.magValue FP.sig FP.exp FP.biased FP.frac
  split <;> split <;> ring

/-- A significand `n` in units of `2 ^ (minExp + d)`: the magnitude bits `d * 2 ^ fracBits + n` are its pattern. -/
theorem FP.magValue_eq (F : Prec) (d n : Nat) (hn : n ≤ 2 * 2 ^ F.fracBits) (hd : n < 2 ^ F.fracBits → d = 0) :
    FP.magValue F (d * 2 ^ F.fracBits + n) = n * (2 : ℚ) ^ (F.minExp + d) := by
  have hP : 0 < 2 ^ F.fracBits := by positivity
  generalize h : 2 ^ F.fracBits = P at *
  unfold FP.magValue
  rw [h]
  rcases Nat.lt_or_ge n P with h1 | h1
  · obtain rfl := hd h1
    simp [Nat.div_eq_of_lt h1, Nat.mod_eq_of_lt h1]
  · rcases Nat.lt_or_ge n (2 * P) with h2 | h2
    · have e : d * P + n = (n - P) + P * (d + 1) := by rw [Nat.mul_add, Nat.mul_comm]; omega
      have h3 : n - P < P := by omega
      rw [e, Nat.add_mul_div_left _ _ hP, Nat.add_mul_mod_self_left, Nat.div_eq_of_lt h3, Nat.mod_eq_of_lt h3,
        if_neg (by omega), Nat.sub_add_cancel h1]
      congr 2; push_cast; ring
    · obtain rfl : n = 2 * P := by omega
      have e : d * P + 2 * P = 0 + P * (d + 2) := by ring
      rw [e, Nat.add_mul_div_left _ _ hP, Nat.add_mul_mod_self_left, Nat.zero_div, Nat.zero_mod, Nat.zero_add,
        if_neg (by omega), Nat.zero_add]
      have : ((d + 2 : Nat) : Int) - 1 + F.minExp = (F.minExp + d) + 1 := by push_cast; ring
      rw [this, zpow_add_one₀ two_ne_zero]
      push_cast; ring

/-- Magnitude bits as a significand and an exponent. -/
theorem FP.mag_split (F : Prec) (k : Nat) :
    ∃ d n, k = d * 2 ^ F.fracBits + n ∧ n < 2 * 2 ^ F.fracBits ∧ (n < 2 ^ F.fracBits → d = 0) := by
  have hP : 0 < 2 ^ F.fracBits := by positivity
  generalize 2 ^ F.fracBits = P at *
  rcases Nat.lt_or_ge k P with h | h
  · exact ⟨0, k, by omega, by omega, fun _ => rfl⟩
  · refine ⟨k / P - 1, k % P + P, ?_, by have := Nat.mod_lt k hP; omega, by omega⟩
    have h1 : 1 ≤ k / P := (Nat.one_le_div_iff hP).2 h
    have h2 := Nat.div_add_mod k P
    have h3 : (k / P - 1) * P + P = P * (k / P) := by
      conv_lhs => rw [← Nat.succ_mul, Nat.succ_eq_add_one, Nat.sub_add_cancel h1, Nat.mul_comm]
    omega

theorem FP.magValue_lt_succ (F : Prec) (k : Nat) : FP.magValue F k < FP.magValue F (k + 1) := by
  obtain ⟨d, n, rfl, hn, hd⟩ := FP.mag_split F k
  rw [FP.magValue_eq F d n hn.le hd, Nat.add_assoc, FP.magValue_eq F d (n + 1) (by omega) (by omega)]
  have : (0 : ℚ) < 2 ^ (F.minExp + d) := by positivity
  push_cast; nlinarith

theorem FP.magValue_strictMono (F : Prec) : StrictMono (FP.magValue F) := strictMono_nat_of_lt_succ (FP.magValue_lt_succ F)

@[simp] theorem FP.magValue_zero (F : Prec) : FP.magValue F 0 = 0 := by
  have := FP.magValue_eq F 0 0 (by omega) (by omega); simpa using this

theorem FP.magValue_nonneg (F : Prec) (k : Nat) : 0 ≤ FP.magValue F k :=
  (FP.magValue_zero F).symm.le.trans ((FP.magValue_strictMono F).monotone (Nat.zero_le k))

/-- The least normal value. -/
theorem FP.magValue_minNormal (F : Prec) : FP.magValue F (2 ^ F.fracBits) = 2 ^ (1 - (F.bias : Int)) := by
  have := FP.magValue_eq F 0 (2 ^ F.fracBits) (by omega) (by omega)
  simp only [Nat.zero_mul, Nat.zero_add] at this
  rw [this]; unfold Prec.minExp
  push_cast
  rw [← zpow_natCast, ← zpow_add₀ two_ne_zero]
  congr 1; ring

theorem FP.magValue_infMag (F : Prec) : FP.magValue F F.infMag = 2 ^ (F.bias + 1) := by
  have e : F.infMag = (2 ^ F.expBits - 3) * 2 ^ F.fracBits + 2 * 2 ^ F.fracBits := by cases F <;> rfl
  rw [e, FP.magValue_eq F _ _ le_rfl (by omega)]
  have h : (2 : ℚ) ^ 1024 = 2 ^ 53 * 2 ^ 971 := by rw [← pow_add]
  cases F <;> norm_num [Prec.expBits, Prec.fracBits, Prec.minExp, Prec.bias]
  rw [h]; norm_num

theorem FP.magValue_maxFinite (F : Prec) : FP.magValue F (F.infMag - 1) = FP.maxFinite F := by
  have e : F.infMag - 1 = (2 ^ F.expBits - 3) * 2 ^ F.fracBits + (2 * 2 ^ F.fracBits - 1) := by cases F <;> rfl
  have : 0 < 2 ^ F.fracBits := by positivity
  rw [e, FP.magValue_eq F _ _ (by omega) (by omega), FP.maxFinite]
  have h : (2 : ℚ) ^ 1023 = 2 ^ 52 * 2 ^ 971 := by rw [← pow_add]
  cases F <;> norm_num [Prec.expBits, Prec.fracBits, Prec.minExp, Prec.bias]
  rw [h]; generalize (2 : ℚ) ^ 971 = y; ring

/-! ## Patterns -/

theorem FP.infMag_lt (F : Prec) : F.infMag < 2 ^ (F.width - 1) := by
  cases F <;> norm_num [Prec.infMag, Prec.maxBiased, Prec.expBits, Prec.fracBits, Prec.width]

theorem FP.width_pow (F : Prec) : 2 ^ F.width = 2 * 2 ^ (F.width - 1) := by cases F <;> rfl

theorem FP.toNat_pattern (F : Prec) (neg : Bool) {k : Nat} (h : k < 2 ^ (F.width - 1)) :
    (F.pattern neg k).toNat = k + if neg = true then 2 ^ (F.width - 1) else 0 := by
  rw [Prec.pattern, BitVec.toNat_ofNat, FP.width_pow F, Nat.mod_eq_of_lt (by split <;> omega)]

@[simp] theorem FP.mag_pattern (F : Prec) (neg : Bool) {k : Nat} (h : k < 2 ^ (F.width - 1)) :
    FP.mag F (F.pattern neg k) = k := by
  rw [FP.mag, FP.toNat_pattern F neg h]; cases neg <;> simp [Nat.mod_eq_of_lt h]

theorem FP.sign_eq (F : Prec) (a : BitVec F.width) : FP.sign F a = decide (2 ^ (F.width - 1) ≤ a.toNat) := by
  rw [FP.sign, ← BitVec.msb_eq_getLsbD_last, BitVec.msb_eq_decide]

@[simp] theorem FP.sign_pattern (F : Prec) (neg : Bool) {k : Nat} (h : k < 2 ^ (F.width - 1)) :
    FP.sign F (F.pattern neg k) = neg := by
  rw [FP.sign_eq, FP.toNat_pattern F neg h]; cases neg <;> simp [h]

theorem FP.mag_lt (F : Prec) (a : BitVec F.width) : FP.mag F a < 2 ^ (F.width - 1) := Nat.mod_lt _ (by positivity)

/-- A pattern is its sign and its magnitude. -/
theorem FP.pattern_sign_mag (F : Prec) (a : BitVec F.width) : F.pattern (FP.sign F a) (FP.mag F a) = a := by
  apply BitVec.eq_of_toNat_eq
  rw [FP.toNat_pattern F _ (FP.mag_lt F a), FP.sign_eq, FP.mag]
  have h := a.isLt
  rw [FP.width_pow F] at h
  generalize 2 ^ (F.width - 1) = W at *
  simp only [decide_eq_true_eq]
  split
  · rw [Nat.mod_eq_sub_mod ‹_›, Nat.mod_eq_of_lt (by omega)]; omega
  · rw [Nat.mod_eq_of_lt (by omega)]; omega

theorem FP.isFinite_pattern (F : Prec) (neg : Bool) {k : Nat} (h : k < 2 ^ (F.width - 1)) :
    FP.isFinite F (F.pattern neg k) = true ↔ k < F.infMag := by simp [FP.isFinite, h]

theorem FP.value_pattern (F : Prec) (neg : Bool) {k : Nat} (h : k < 2 ^ (F.width - 1)) :
    FP.value F (F.pattern neg k) = (if neg = true then -1 else 1) * FP.magValue F k := by simp [FP.value_eq, h]

/-- The sign of a pattern inverted. -/
theorem FP.neg_eq (F : Prec) (a : BitVec F.width) : FP.neg F a = F.pattern (!FP.sign F a) (FP.mag F a) := by
  have hw : F.width - 1 + 1 = F.width := by cases F <;> rfl
  apply BitVec.eq_of_getLsbD_eq
  intro i hi
  have hs : FP.sign F (F.pattern (!FP.sign F a) (FP.mag F a)) = !FP.sign F a := FP.sign_pattern F _ (FP.mag_lt F a)
  simp only [FP.neg, BitVec.getLsbD_xor, BitVec.getLsbD_ofNat, Nat.testBit_two_pow, hi, decide_true, Bool.true_and]
  by_cases h : i = F.width - 1
  · subst h
    have := hs
    simp only [FP.sign] at this ⊢
    rw [this]; simp
  · have h1 : i < F.width - 1 := by omega
    have e : ∀ b : BitVec F.width, b.getLsbD i = (FP.mag F b).testBit i := by
      intro b; rw [FP.mag, Nat.testBit_mod_two_pow, BitVec.getLsbD]; simp [h1]
    rw [e (F.pattern _ _), FP.mag_pattern F _ (FP.mag_lt F a), e a, decide_eq_false (by omega)]
    simp

@[simp] theorem FP.mag_neg (F : Prec) (a : BitVec F.width) : FP.mag F (FP.neg F a) = FP.mag F a := by
  rw [FP.neg_eq, FP.mag_pattern F _ (FP.mag_lt F a)]

@[simp] theorem FP.sign_neg (F : Prec) (a : BitVec F.width) : FP.sign F (FP.neg F a) = !FP.sign F a := by
  rw [FP.neg_eq, FP.sign_pattern F _ (FP.mag_lt F a)]

@[simp] theorem FP.isFinite_neg (F : Prec) (a : BitVec F.width) : FP.isFinite F (FP.neg F a) = FP.isFinite F a := by
  simp [FP.isFinite]

@[simp] theorem FP.isNaN_neg (F : Prec) (a : BitVec F.width) : FP.isNaN F (FP.neg F a) = FP.isNaN F a := by simp [FP.isNaN]

@[simp] theorem FP.isInf_neg (F : Prec) (a : BitVec F.width) : FP.isInf F (FP.neg F a) = FP.isInf F a := by simp [FP.isInf]

@[simp] theorem FP.isZero_neg (F : Prec) (a : BitVec F.width) : FP.isZero F (FP.neg F a) = FP.isZero F a := by
  simp [FP.isZero]

@[simp] theorem FP.isSNaN_neg (F : Prec) (a : BitVec F.width) : FP.isSNaN F (FP.neg F a) = FP.isSNaN F a := by
  unfold FP.isSNaN FP.frac; rw [FP.isNaN_neg, FP.mag_neg]

@[simp] theorem FP.value_neg (F : Prec) (a : BitVec F.width) : FP.value F (FP.neg F a) = -FP.value F a := by
  rw [FP.value_eq, FP.value_eq, FP.sign_neg, FP.mag_neg]; cases FP.sign F a <;> simp

@[simp] theorem FP.neg_neg (F : Prec) (a : BitVec F.width) : FP.neg F (FP.neg F a) = a := by
  rw [FP.neg_eq, FP.sign_neg, FP.mag_neg, Bool.not_not, FP.pattern_sign_mag]

/-! ## Rounding a real number that lies between two neighbours -/

theorem FP.magValue_lt (F : Prec) {j k : Nat} : (FP.magValue F j : ℝ) < FP.magValue F k ↔ j < k := by
  rw [Rat.cast_lt]; exact (FP.magValue_strictMono F).lt_iff_lt

theorem FP.magValue_le (F : Prec) {j k : Nat} : (FP.magValue F j : ℝ) ≤ FP.magValue F k ↔ j ≤ k := by
  rw [Rat.cast_le]; exact (FP.magValue_strictMono F).le_iff_le

/-- No finite value lies strictly between neighbours. -/
theorem FP.value_le_or_ge (F : Prec) (k : Nat) (c : BitVec F.width) :
    (FP.value F c : ℝ) ≤ FP.magValue F k ∨ (FP.magValue F (k + 1) : ℝ) ≤ FP.value F c := by
  rw [FP.value_eq]
  have h0 : (0 : ℝ) ≤ FP.magValue F k := by exact_mod_cast FP.magValue_nonneg F k
  have h1 : (0 : ℝ) ≤ FP.magValue F (FP.mag F c) := by exact_mod_cast FP.magValue_nonneg F _
  cases FP.sign F c
  · simp only [Bool.false_eq_true, if_false, one_mul, FP.magValue_le]; omega
  · left; simp only [if_true]; push_cast; linarith

/-- Whether the number `x` between the values of `k` and `k + 1` is rounded up (R181). -/
def FP.RoundsUpAt (F : Prec) (rm : RoundMode) (x : ℝ) (k : Nat) : Prop :=
  match rm with
  | .rne => (FP.magValue F k + FP.magValue F (k + 1) : ℝ) / 2 < x ∨
      ((FP.magValue F k + FP.magValue F (k + 1) : ℝ) / 2 = x ∧ k % 2 = 1)
  | .rtz | .rdn => False
  | .rup => FP.magValue F k < x
  | .rmm => (FP.magValue F k + FP.magValue F (k + 1) : ℝ) / 2 ≤ x

theorem FP.RoundsUpAt.lt {F : Prec} {rm : RoundMode} {x : ℝ} {k : Nat} (h : FP.RoundsUpAt F rm x k) : FP.magValue F k < x := by
  have := (FP.magValue_lt F).2 (Nat.lt_succ_self k)
  cases rm <;> simp only [FP.RoundsUpAt] at h
  · rcases h with h | h <;> linarith [h]
  · exact h
  · linarith

/-- The flags of a rounding to the magnitude bits `M`. -/
def FP.FlagsFor (F : Prec) (rm : RoundMode) (x : ℝ) (M : Nat) (fl : FpFlags) : Prop :=
  (FP.magValue F M = x ∧ fl = 0#5) ∨
  (FP.magValue F M ≠ x ∧ fl = flagNX ∧ ¬ FP.Tiny F rm x) ∨
  (FP.magValue F M ≠ x ∧ fl = flagUF ||| flagNX ∧ FP.Tiny F rm x)

theorem FP.getLsbD_pattern (F : Prec) {k : Nat} (h : k < 2 ^ (F.width - 1)) :
    (F.pattern false k).getLsbD 0 = decide (k % 2 = 1) := by
  rw [BitVec.getLsbD, FP.toNat_pattern F _ h]; simp [Nat.testBit_zero]

theorem FP.roundedOnce_of_bracket {F : Prec} {rm : RoundMode} {x : ℝ} {k M : Nat} {fl : FpFlags}
    (h0 : FP.magValue F k ≤ x) (h1 : x < FP.magValue F (k + 1))
    (hM : (M = k ∧ ¬ FP.RoundsUpAt F rm x k) ∨ (M = k + 1 ∧ FP.RoundsUpAt F rm x k)) (hlt : M < F.infMag)
    (hfl : FP.FlagsFor F rm x M fl) : FP.RoundedOnce F rm x (F.pattern false M, fl) := by
  have hw : M < 2 ^ (F.width - 1) := hlt.trans (FP.infMag_lt F)
  have hv : (FP.value F (F.pattern false M) : ℝ) = FP.magValue F M := by rw [FP.value_pattern F _ hw]; simp
  have hk : (FP.magValue F k : ℝ) < FP.magValue F (k + 1) := (FP.magValue_lt F).2 (Nat.lt_succ_self k)
  have hk0 : (0 : ℝ) ≤ FP.magValue F k := by exact_mod_cast FP.magValue_nonneg F k
  have hM0 : (0 : ℝ) ≤ FP.magValue F M := by exact_mod_cast FP.magValue_nonneg F M
  have hup : M = k + 1 → (FP.magValue F k : ℝ) < x := fun h => by
    rcases hM with ⟨rfl, -⟩ | ⟨-, h⟩
    · omega
    · exact h.lt
  have hcases : (M = k ∧ ¬ FP.RoundsUpAt F rm x k) ∨ (M = k + 1 ∧ FP.RoundsUpAt F rm x k) := hM
  constructor
  · exact (FP.isFinite_pattern F _ hw).2 hlt
  · intro _; rw [FP.sign_pattern F _ hw]; simp; linarith
  · rintro c - ⟨ha, hb⟩
    simp only [hv] at ha
    rcases FP.value_le_or_ge F k c with h | h
    · have : (FP.magValue F k : ℝ) ≤ FP.magValue F M := (FP.magValue_le F).2 (by omega)
      linarith
    · linarith
  · rintro c - ⟨ha, hb⟩
    simp only [hv] at hb
    rcases hM with ⟨rfl, -⟩ | ⟨rfl, hu⟩
    · linarith
    · have := hu.lt
      rcases FP.value_le_or_ge F k c with h | h <;> linarith
  · rintro rfl
    simp only [hv]
    rcases hM with ⟨rfl, -⟩ | ⟨rfl, hu⟩
    · exact h0
    · exact hu.elim
  · rintro rfl
    simp only [hv]
    rcases hM with ⟨rfl, hu⟩ | ⟨rfl, hu⟩
    · exact not_lt.1 hu
    · exact h1.le
  · rintro rfl
    simp only [hv]
    rcases hM with ⟨rfl, hu⟩ | ⟨rfl, hu⟩
    · rw [abs_of_nonneg hM0, abs_of_nonneg (by linarith)]; exact h0
    · exact hu.elim
  · rintro hrm c -
    simp only [hv]
    rcases hM with ⟨rfl, hu⟩ | ⟨rfl, hu⟩
    · have hx : x ≤ (FP.magValue F M + FP.magValue F (M + 1) : ℝ) / 2 := by
        rcases hrm with rfl | rfl <;> simp only [FP.RoundsUpAt, not_or, not_lt, not_le] at hu
        · exact hu.1
        · exact hu.le
      rcases FP.value_le_or_ge F M c with h | h
      · rw [abs_of_nonpos (by linarith), abs_of_nonpos (by linarith)]; linarith
      · rw [abs_of_nonpos (by linarith), abs_of_nonneg (by linarith)]; linarith
    · have hx : (FP.magValue F k + FP.magValue F (k + 1) : ℝ) / 2 ≤ x := by
        rcases hrm with rfl | rfl <;> simp only [FP.RoundsUpAt] at hu
        · rcases hu with hu | hu <;> linarith [hu]
        · exact hu
      rcases FP.value_le_or_ge F k c with h | h
      · rw [abs_of_nonneg (by linarith), abs_of_nonpos (by linarith)]; linarith
      · rw [abs_of_nonneg (by linarith), abs_of_nonneg (by linarith)]; linarith
  · rintro rfl c - hne heq
    have hne' : (FP.value F c : ℝ) ≠ FP.magValue F M := by rw [← hv]; exact_mod_cast hne
    simp only [hv] at heq
    show (F.pattern false M).getLsbD 0 = false
    rw [FP.getLsbD_pattern F hw, decide_eq_false_iff_not]
    simp only [FP.RoundsUpAt] at hM
    rcases hM with ⟨rfl, hu⟩ | ⟨rfl, hu⟩
    · simp only [not_or, not_lt, not_and] at hu
      rcases FP.value_le_or_ge F M c with h | h
      · rw [abs_of_nonpos (by linarith), abs_of_nonpos (by linarith)] at heq
        exact absurd (by linarith) hne'
      · rw [abs_of_nonneg (by linarith), abs_of_nonpos (by linarith)] at heq
        exact hu.2 (by linarith [hu.1])
    · rcases hu with hu | ⟨-, hu⟩
      · rcases FP.value_le_or_ge F k c with h | h
        · rw [abs_of_nonpos (by linarith), abs_of_nonneg (by linarith)] at heq
          linarith
        · rw [abs_of_nonneg (by linarith), abs_of_nonneg (by linarith)] at heq
          exact absurd (by linarith) hne'
      · omega
  · rintro rfl c - heq
    simp only [hv] at heq
    suffices h : |(FP.value F c : ℝ)| ≤ |(FP.value F (F.pattern false M) : ℝ)| by exact_mod_cast h
    rw [hv, abs_of_nonneg hM0]
    simp only [FP.RoundsUpAt, not_le] at hM
    rcases hM with ⟨rfl, hu⟩ | ⟨rfl, hu⟩
    · rcases FP.value_le_or_ge F M c with h | h
      · rw [abs_of_nonpos (by linarith), abs_of_nonpos (by linarith)] at heq
        rw [show (FP.value F c : ℝ) = FP.magValue F M by linarith, abs_of_nonneg hM0]
      · rw [abs_of_nonneg (by linarith), abs_of_nonpos (by linarith)] at heq
        linarith
    · rcases FP.value_le_or_ge F k c with h | h
      · rw [abs_of_nonpos (by linarith), abs_of_nonneg (by linarith)] at heq
        rw [abs_le]; constructor <;> linarith
      · rw [abs_of_nonneg (by linarith), abs_of_nonneg (by linarith)] at heq
        rw [show (FP.value F c : ℝ) = FP.magValue F (k + 1) by linarith, abs_of_nonneg hM0]
  · simp only [hv]
    exact hfl

/-- The value after the largest finite one. -/
theorem FP.magValue_infMag_cast (F : Prec) : (FP.magValue F F.infMag : ℝ) = 2 ^ (F.bias + 1) := by
  rw [FP.magValue_infMag]; push_cast; rfl

theorem FP.magValue_maxFinite_cast (F : Prec) : (FP.magValue F (F.infMag - 1) : ℝ) = FP.maxFinite F := by
  rw [FP.magValue_maxFinite]

theorem FP.infMag_even (F : Prec) : F.infMag % 2 = 0 ∧ 2 ≤ F.infMag := by cases F <;> decide

/-- A number between neighbours overflows exactly when it is rounded to magnitude bits that are not finite. -/
theorem FP.overflows_iff {F : Prec} {rm : RoundMode} {x : ℝ} {k M : Nat}
    (h0 : FP.magValue F k ≤ x) (h1 : x < FP.magValue F (k + 1))
    (hM : (M = k ∧ ¬ FP.RoundsUpAt F rm x k) ∨ (M = k + 1 ∧ FP.RoundsUpAt F rm x k)) :
    FP.Overflows F rm x ↔ F.infMag ≤ M := by
  have hk0 : (0 : ℝ) ≤ FP.magValue F k := by exact_mod_cast FP.magValue_nonneg F k
  have hx : 0 ≤ x := hk0.trans h0
  obtain ⟨heven, htwo⟩ := FP.infMag_even F
  have hmax : (FP.magValue F (F.infMag - 1) : ℝ) < FP.magValue F F.infMag := (FP.magValue_lt F).2 (by omega)
  have hm0 : (0 : ℝ) ≤ FP.magValue F (F.infMag - 1) := by exact_mod_cast FP.magValue_nonneg F _
  unfold FP.Overflows
  simp only [← FP.magValue_infMag_cast, ← FP.magValue_maxFinite_cast, abs_of_nonneg hx]
  rcases lt_trichotomy (k + 1) F.infMag with h | h | h
  · have hlt : x < FP.magValue F (F.infMag - 1) := h1.trans_le ((FP.magValue_le F).2 (by omega))
    have : ¬ F.infMag ≤ M := by omega
    simp only [this, iff_false]
    cases rm <;> simp only [not_or, not_le, not_lt] <;> first | (constructor <;> linarith) | linarith
  · have hk : k = F.infMag - 1 := by omega
    subst hk
    rw [h] at h1
    rcases hM with ⟨rfl, hu⟩ | ⟨rfl, hu⟩
    · have : ¬ F.infMag ≤ F.infMag - 1 := by omega
      simp only [this, iff_false]
      cases rm <;> simp only [FP.RoundsUpAt, h, not_or, not_and, not_lt, not_le] at hu ⊢
      · rcases lt_or_eq_of_le hu.1 with h2 | h2
        · exact h2
        · exact absurd (hu.2 h2.symm) (by omega)
      · exact h1
      · constructor <;> linarith
      · constructor <;> linarith
      · exact hu
    · simp only [h, le_refl, iff_true]
      cases rm <;> simp only [FP.RoundsUpAt, h] at hu ⊢
      · rcases hu with hu | hu <;> linarith [hu]
      · exact .inl hu
      · exact hu
  · have hle : (FP.magValue F F.infMag : ℝ) ≤ x := ((FP.magValue_le F).2 (by omega)).trans h0
    have : F.infMag ≤ M := by omega
    simp only [this, iff_true]
    cases rm <;> first | linarith | (left; linarith)

/-- What is left of rounding a number that is not negative, once its neighbours are found. -/
theorem FP.roundsTo_of_bracket {F : Prec} {rm : RoundMode} {x : ℝ} {k M : Nat} {fl : FpFlags}
    (h0 : FP.magValue F k ≤ x) (h1 : x < FP.magValue F (k + 1))
    (hM : (M = k ∧ ¬ FP.RoundsUpAt F rm x k) ∨ (M = k + 1 ∧ FP.RoundsUpAt F rm x k)) (hfl : FP.FlagsFor F rm x M fl) :
    FP.RoundsTo F rm x
      (if F.infMag ≤ M then
          (if overflowsToInf rm false then F.infinity false else F.pattern false (F.infMag - 1), flagOF ||| flagNX)
        else (F.pattern false M, fl)) := by
  have hx : 0 ≤ x := le_trans (by exact_mod_cast FP.magValue_nonneg F k) h0
  constructor
  · intro h
    rw [if_pos ((FP.overflows_iff h0 h1 hM).1 h), decide_eq_false (not_lt.2 hx)]
    exact ⟨rfl, by cases rm <;> simp [overflowsToInf]⟩
  · intro h
    have h' : ¬ F.infMag ≤ M := fun h' => h ((FP.overflows_iff h0 h1 hM).2 h')
    rw [if_neg h']
    exact FP.roundedOnce_of_bracket h0 h1 hM (not_le.1 h') hfl

/-! ## The other sign -/

/-- The rounding mode on the other side of zero. -/
def flipMode : RoundMode → RoundMode
  | .rdn => .rup
  | .rup => .rdn
  | rm => rm

theorem FP.tiny_neg (F : Prec) (rm : RoundMode) (x : ℝ) : FP.Tiny F rm (-x) ↔ FP.Tiny F (flipMode rm) x := by
  cases rm <;> simp only [FP.Tiny, flipMode, abs_neg]
  · constructor <;> (rintro ⟨h1, h2⟩; constructor <;> linarith)
  · constructor <;> (rintro ⟨h1, h2⟩; constructor <;> linarith)

theorem FP.RoundedOnce.neg {F : Prec} {rm : RoundMode} {x : ℝ} {r : BitVec F.width × FpFlags}
    (h : FP.RoundedOnce F (flipMode rm) x r) : FP.RoundedOnce F rm (-x) (FP.neg F r.1, r.2) := by
  have hv : (FP.value F (FP.neg F r.1) : ℝ) = -FP.value F r.1 := by rw [FP.value_neg]; push_cast; rfl
  have hc : ∀ c, (FP.value F c : ℝ) = -FP.value F (FP.neg F c) := fun c => by rw [FP.value_neg]; push_cast; ring
  have hd : ∀ u w : ℝ, |-u - -w| = |u - w| := fun u w => by rw [← abs_neg]; congr 1; ring
  constructor
  · simpa using h.finite
  · intro hx
    have := h.sign (neg_ne_zero.1 hx)
    simp only [FP.sign_neg, Bool.not_eq_true', Left.neg_neg_iff]
    rw [← Bool.not_eq_true, this, not_lt]
    exact ⟨fun h' => lt_of_le_of_ne h' (Ne.symm (neg_ne_zero.1 hx)), le_of_lt⟩
  · rintro c hf ⟨ha, hb⟩
    simp only [hv] at ha; rw [hc c] at ha hb
    exact h.noneAbove (FP.neg F c) (by simpa using hf) ⟨by linarith, by linarith⟩
  · rintro c hf ⟨ha, hb⟩
    simp only [hv] at hb; rw [hc c] at ha hb
    exact h.noneBelow (FP.neg F c) (by simpa using hf) ⟨by linarith, by linarith⟩
  · rintro rfl; simp only [hv]; linarith [h.up rfl]
  · rintro rfl; simp only [hv]; linarith [h.down rfl]
  · rintro rfl; simp only [hv, abs_neg]; exact h.towardZero rfl
  · intro hrm c hf
    simp only [hv]; rw [hc c, hd, hd]
    exact h.nearest (by rcases hrm with rfl | rfl <;> simp [flipMode]) _ (by simpa using hf)
  · rintro rfl c hf hne heq
    simp only [hv] at heq; rw [hc c, hd, hd] at heq
    have hb := h.tieToEven rfl (FP.neg F c) (by simpa using hf)
      (fun e => hne (by rw [FP.value_neg] at e ⊢; linarith)) heq
    have hw : 0 < F.width ∧ F.width - 1 ≠ 0 := by cases F <;> decide
    simp only [FP.neg, BitVec.getLsbD_xor, hb, BitVec.getLsbD_ofNat, Nat.testBit_two_pow, hw.2]
    simp
  · rintro rfl c hf heq
    simp only [hv] at heq; rw [hc c, hd, hd] at heq
    have := h.tieAway rfl (FP.neg F c) (by simpa using hf) heq
    simpa using this
  · simp only [hv, neg_inj, ne_eq, FP.tiny_neg]
    exact h.flags

theorem FP.RoundsTo.neg {F : Prec} {rm : RoundMode} {x : ℝ} {r : BitVec F.width × FpFlags} (hx : x ≠ 0)
    (h : FP.RoundsTo F (flipMode rm) x r) : FP.RoundsTo F rm (-x) (FP.neg F r.1, r.2) := by
  have ho : FP.Overflows F rm (-x) ↔ FP.Overflows F (flipMode rm) x := by
    cases rm <;> simp only [FP.Overflows, flipMode, abs_neg]
    · constructor <;> (rintro (h | h) <;> [right; left] <;> linarith)
    · constructor <;> (rintro (h | h) <;> [right; left] <;> linarith)
  have hs : decide (-x < 0) = !decide (x < 0) := by
    simp only [Left.neg_neg_iff, ← decide_not, not_lt]
    exact decide_eq_decide.2 ⟨le_of_lt, fun h' => lt_of_le_of_ne h' hx.symm⟩
  constructor
  · intro h'
    obtain ⟨h1, h2⟩ := h.1 (ho.1 h')
    refine ⟨h1, ?_⟩
    have hm := FP.infMag_lt F
    have e : ∀ n k, k < 2 ^ (F.width - 1) → FP.neg F (F.pattern n k) = F.pattern (!n) k := fun n k hk => by
      rw [FP.neg_eq, FP.mag_pattern F _ hk, FP.sign_pattern F _ hk]
    rw [hs, h2]
    generalize decide (x < 0) = n
    unfold Prec.infinity
    cases rm <;> cases n <;> simp [flipMode] <;> rw [e _ _ (by omega)] <;> rfl
  · intro h'
    exact (h.2 (fun h'' => h' (ho.2 h''))).neg

end Sys2Proof.Machine
end

