-- ==== Sys2Proof/Laws/RoundPack.lean ====
section
/-! SUPPORT. What `roundPack` can do, said once (`roundPack_roundsTo`), and with it what `addExact`, `natSqrt` and a sticky bit
can do (46_rvfd_compute.md R180, R181). -/

namespace Sys2Proof.Machine

/-! ## Rounding an exact or a cut-off number -/

/-- `x` is exactly `m * 2^e`, or `m` is odd and stands for a number strictly between its even neighbours. -/
def StandsFor (m : Nat) (e : Int) (x : ℝ) : Prop :=
  x = m * 2 ^ e ∨ (m % 2 = 1 ∧ ((m : ℝ) - 1) * 2 ^ e < x ∧ x < ((m : ℝ) + 1) * 2 ^ e)

/-- Whether `x`, between the numbers `lo` and `hi` of the places `n` and `n + 1`, is rounded up. -/
def RoundsUpBetween (rm : RoundMode) (n : Nat) (lo hi x : ℝ) : Prop :=
  match rm with
  | .rne => (lo + hi) / 2 < x ∨ ((lo + hi) / 2 = x ∧ n % 2 = 1)
  | .rtz | .rdn => False
  | .rup => lo < x
  | .rmm => (lo + hi) / 2 ≤ x

/-- What `roundTo` can do: it finds the places around `x` and takes one of them. -/
theorem roundTo_spec {rm : RoundMode} {m : Nat} {e q : Int} {x : ℝ} (h : StandsFor m e x)
    (hq : x ≠ m * 2 ^ e → e + 2 ≤ q) :
    ∃ n : Nat, n * (2 : ℝ) ^ q ≤ x ∧ x < (n + 1) * 2 ^ q ∧
      ((roundTo rm false m e q).2 = true ↔ n * (2 : ℝ) ^ q ≠ x) ∧
      (((roundTo rm false m e q).1 = n ∧ ¬ RoundsUpBetween rm n (n * 2 ^ q) ((n + 1) * 2 ^ q) x) ∨
        ((roundTo rm false m e q).1 = n + 1 ∧ RoundsUpBetween rm n (n * 2 ^ q) ((n + 1) * 2 ^ q) x)) := by
  have hqpos : (0 : ℝ) < 2 ^ q := by positivity
  unfold roundTo
  split
  · rename_i hqe
    have hx : x = m * 2 ^ e := by by_contra hne; have := hq hne; omega
    have hv : ((m * 2 ^ (e - q).toNat : Nat) : ℝ) * 2 ^ q = x := by
      rw [hx]; push_cast
      rw [mul_assoc, ← zpow_natCast, ← zpow_add₀ two_ne_zero, Int.toNat_of_nonneg (by omega)]
      congr 2; ring
    refine ⟨m * 2 ^ (e - q).toNat, hv.le, by rw [add_mul, hv]; linarith,
      ⟨fun h' => (Bool.false_ne_true h').elim, fun h' => (h' hv).elim⟩, .inl ⟨rfl, ?_⟩⟩
    rw [add_mul, hv]
    cases rm <;> simp only [RoundsUpBetween, not_or, not_lt, not_le, not_and, not_false_eq_true]
    · exact ⟨by linarith, fun h => by linarith⟩
    · exact le_rfl
    · linarith
  · rename_i hqe
    set sh := (q - e).toNat with hsh
    have hpe : (0 : ℝ) < 2 ^ e := by positivity
    have hS : (2 : ℝ) ^ q = ((2 ^ sh : Nat) : ℝ) * 2 ^ e := by
      push_cast; rw [← zpow_natCast, ← zpow_add₀ two_ne_zero, hsh, Int.toNat_of_nonneg (by omega)]
      congr 1; ring
    obtain ⟨y, rfl⟩ : ∃ y, x = y * 2 ^ e := ⟨x / 2 ^ e, by field_simp⟩
    set S := 2 ^ sh with hSdef
    have hSpos : 0 < S := by positivity
    have hdm : m = S * (m / S) + m % S := (Nat.div_add_mod m S).symm
    have hrem : m % S < S := Nat.mod_lt m hSpos
    -- everything in units of `2^e`
    have key : (m / S : Nat) * (S : ℝ) ≤ y ∧ y < ((m / S : Nat) + 1) * (S : ℝ) ∧ (m % S ≠ 0 ↔ (m / S : Nat) * (S : ℝ) ≠ y) ∧
        ((2 * (m % S) < S ∧ 2 * y < (2 * (m / S : Nat) + 1) * (S : ℝ)) ∨
          (2 * (m % S) = S ∧ 2 * y = (2 * (m / S : Nat) + 1) * (S : ℝ)) ∨
          (S < 2 * (m % S) ∧ (2 * (m / S : Nat) + 1) * (S : ℝ) < 2 * y)) := by
      have hm : (m : ℝ) = S * (m / S : Nat) + (m % S : Nat) := by exact_mod_cast hdm
      generalize m / S = n at *
      generalize m % S = r at *
      by_cases hy : y = m
      · subst hy
        rw [hm]
        refine ⟨by nlinarith [(Nat.cast_nonneg r : (0 : ℝ) ≤ r)], ?_, ?_, ?_⟩
        · have : (r : ℝ) < S := by exact_mod_cast hrem
          linarith
        · rw [← Nat.cast_ne_zero (R := ℝ)]
          constructor
          · intro h1 h2; exact h1 (by linarith)
          · intro h1 h2; exact h1 (by rw [h2]; ring)
        · rcases lt_trichotomy (2 * r) S with h1 | h1 | h1
          · left; refine ⟨h1, ?_⟩
            have : (2 * r : ℝ) < S := by exact_mod_cast h1
            linarith
          · right; left; refine ⟨h1, ?_⟩
            have : (2 * r : ℝ) = S := by exact_mod_cast h1
            linarith
          · right; right; refine ⟨h1, ?_⟩
            have : (S : ℝ) < 2 * r := by exact_mod_cast h1
            linarith
      · have hne : y * 2 ^ e ≠ m * 2 ^ e := fun h' => hy (mul_right_cancel₀ hpe.ne' h')
        obtain ⟨hodd, hlo, hhi⟩ := h.resolve_left hne
        replace hlo : (m : ℝ) - 1 < y := lt_of_mul_lt_mul_right hlo hpe.le
        replace hhi : y < (m : ℝ) + 1 := lt_of_mul_lt_mul_right hhi hpe.le
        have h2 := hq hne
        obtain ⟨T, hT⟩ : ∃ T, S = 4 * T := by
          obtain ⟨j, hj⟩ : ∃ j, sh = 2 + j := ⟨sh - 2, by omega⟩
          exact ⟨2 ^ j, by rw [hSdef, hj, pow_add]; norm_num⟩
        have hr : r % 2 = 1 := by
          have : (S * n) % 2 = 0 := by rw [hT, Nat.mul_assoc]; omega
          omega
        have hTr : (S : ℝ) = 4 * T := by exact_mod_cast hT
        have c1 : (1 : ℝ) ≤ r := by exact_mod_cast (by omega : 1 ≤ r)
        have c2 : (r : ℝ) + 1 ≤ S := by exact_mod_cast (by omega : r + 1 ≤ S)
        refine ⟨by linarith, by linarith, ⟨fun _ => by intro h'; linarith, fun _ => by omega⟩, ?_⟩
        rcases Nat.lt_or_ge r (2 * T) with h1 | h1
        · left; refine ⟨by omega, ?_⟩
          have : (r : ℝ) + 1 ≤ 2 * T := by exact_mod_cast (by omega : r + 1 ≤ 2 * T)
          linarith
        · right; right; refine ⟨by omega, ?_⟩
          have : 2 * (T : ℝ) + 1 ≤ r := by exact_mod_cast (by omega : 2 * T + 1 ≤ r)
          linarith
    obtain ⟨k0, k1, k2, k3⟩ := key
    refine ⟨m / S, ?_, ?_, ?_, ?_⟩
    · rw [hS, ← mul_assoc]; exact mul_le_mul_of_nonneg_right k0 hpe.le
    · rw [hS, ← mul_assoc]; exact mul_lt_mul_of_pos_right k1 hpe
    · simp only [roundShift, decide_eq_true_eq]
      rw [k2, hS, ← mul_assoc]
      exact not_congr ⟨fun h' => by rw [h'], fun h' => mul_right_cancel₀ hpe.ne' h'⟩
    · have e1 : ((m / S : Nat) * (2 : ℝ) ^ q + ((m / S : Nat) + 1) * 2 ^ q) / 2 =
          (2 * (m / S : Nat) + 1) * (S : ℝ) / 2 * 2 ^ e := by
        rw [hS]; ring
      have hmid : ∀ z : ℝ, (z / 2 * 2 ^ e < y * 2 ^ e ↔ z < 2 * y) ∧ (z / 2 * 2 ^ e = y * 2 ^ e ↔ z = 2 * y) ∧
          (z / 2 * 2 ^ e ≤ y * 2 ^ e ↔ z ≤ 2 * y) := fun z => by
        rw [mul_lt_mul_iff_left₀ hpe, mul_le_mul_iff_left₀ hpe, mul_left_inj' hpe.ne']
        refine ⟨?_, ?_, ?_⟩ <;> constructor <;> intro <;> linarith
      have hlo : ((m / S : Nat) * (2 : ℝ) ^ q < y * 2 ^ e ↔ m % S ≠ 0) := by
        rw [k2, hS, ← mul_assoc, mul_lt_mul_iff_left₀ hpe]
        exact ⟨fun h' => h'.ne, fun h' => lt_of_le_of_ne k0 h'⟩
      have : (RoundsUpBetween rm (m / S) ((m / S : Nat) * 2 ^ q) (((m / S : Nat) + 1) * 2 ^ q) (y * 2 ^ e)) ↔
          roundsUp rm false (m / S) (m % S) sh = true := by
        cases rm <;> simp only [RoundsUpBetween, roundsUp, e1, (hmid _).1, (hmid _).2.1, (hmid _).2.2, hlo, Bool.false_and,
          Bool.not_false, Bool.true_and, Bool.or_eq_true, Bool.and_eq_true, decide_eq_true_eq, ← hSdef, Bool.false_eq_true]
        · rcases k3 with ⟨a, b⟩ | ⟨a, b⟩ | ⟨a, b⟩
          · constructor
            · rintro (h' | ⟨h', -⟩) <;> linarith
            · omega
          · constructor
            · rintro (h' | ⟨-, h'⟩)
              · linarith
              · exact .inr ⟨a, h'⟩
            · rintro (h' | ⟨-, h'⟩)
              · omega
              · exact .inr ⟨b.symm, h'⟩
          · exact ⟨fun _ => .inl a, fun _ => .inl b⟩
        · rcases k3 with ⟨a, b⟩ | ⟨a, b⟩ | ⟨a, b⟩
          · constructor
            · intro; linarith
            · omega
          · exact ⟨fun _ => a.ge, fun _ => b.ge⟩
          · exact ⟨fun _ => a.le, fun _ => b.le⟩
      rw [this]
      simp only [roundShift, ← hSdef]
      cases roundsUp rm false (m / S) (m % S) sh <;> simp

/-- Where a number lies that `m` and `e` stand for. -/
theorem StandsFor.bounds {m : Nat} {e : Int} {x : ℝ} (h : StandsFor m e x) (hm : m ≠ 0) (h1 : x ≠ m * 2 ^ e → 2 ≤ m) :
    (2 : ℝ) ^ (e + Nat.log2 m) ≤ x ∧ x < 2 ^ (e + Nat.log2 m + 1) := by
  have hpe : (0 : ℝ) < 2 ^ e := by positivity
  have e1 : (2 : ℝ) ^ (e + Nat.log2 m) = ((2 ^ Nat.log2 m : Nat) : ℝ) * 2 ^ e := by
    rw [zpow_add₀ two_ne_zero]; push_cast; rw [zpow_natCast]; ring
  have e2 : (2 : ℝ) ^ (e + Nat.log2 m + 1) = ((2 ^ (Nat.log2 m + 1) : Nat) : ℝ) * 2 ^ e := by
    rw [zpow_add_one₀ two_ne_zero, e1]; push_cast; ring
  have l1 : 2 ^ Nat.log2 m ≤ m := Nat.log2_self_le hm
  have l2 : m < 2 ^ (Nat.log2 m + 1) := Nat.lt_log2_self
  rw [e1, e2]
  by_cases hx : x = m * 2 ^ e
  · rw [hx]
    exact ⟨mul_le_mul_of_nonneg_right (by exact_mod_cast l1) hpe.le, mul_lt_mul_of_pos_right (by exact_mod_cast l2) hpe⟩
  · obtain ⟨hodd, a, b⟩ := h.resolve_left hx
    have h2 := h1 hx
    have l3 : 2 ^ Nat.log2 m + 1 ≤ m := by
      rcases Nat.lt_or_ge (2 ^ Nat.log2 m) m with h' | h'
      · exact h'
      · have h3 : m = 2 ^ Nat.log2 m := by omega
        have : Nat.log2 m ≠ 0 := by intro h0; rw [h0] at h3; omega
        obtain ⟨j, hj⟩ := Nat.exists_eq_succ_of_ne_zero this
        rw [hj, pow_succ] at h3; omega
    have c1 : (((2 ^ Nat.log2 m : Nat) : ℝ)) ≤ m - 1 := by
      have : ((2 ^ Nat.log2 m + 1 : Nat) : ℝ) ≤ m := by exact_mod_cast l3
      push_cast at this ⊢; linarith
    have c2 : (m : ℝ) + 1 ≤ ((2 ^ (Nat.log2 m + 1) : Nat) : ℝ) := by exact_mod_cast l2
    exact ⟨(mul_le_mul_of_nonneg_right c1 hpe.le).trans a.le, b.trans_le (mul_le_mul_of_nonneg_right c2 hpe.le)⟩

/-- `roundPack` rounds the positive number that `m` and `e` stand for once to the format. -/
theorem roundPack_pos {F : Prec} {rm : RoundMode} {m : Nat} {e : Int} {x : ℝ} (hm : m ≠ 0) (h : StandsFor m e x)
    (hbig : x ≠ m * 2 ^ e → 8 * 2 ^ F.fracBits ≤ m) : FP.RoundsTo F rm x (roundPack F rm false m e) := by
  set fb := F.fracBits with hfb
  set u : Int := e + (Nat.log2 m : Int) + 1 - ((fb + 1 : Nat) : Int) with hu
  set q : Int := max u F.minExp with hqd
  have hPpos : 0 < 2 ^ fb := by positivity
  have hbnd := h.bounds hm (fun hne => by have := hbig hne; omega)
  have hsticky : x ≠ m * 2 ^ e → e + 2 ≤ u := fun hne => by
    have h1 := hbig hne
    have h2 : m < 2 ^ (Nat.log2 m + 1) := Nat.lt_log2_self
    have h3 : fb + 3 < Nat.log2 m + 1 := by
      refine (Nat.pow_lt_pow_iff_right (by norm_num : 1 < 2)).1 (lt_of_le_of_lt ?_ h2)
      rw [pow_add]; omega
    omega
  have hux : (2 : ℝ) ^ fb * 2 ^ u ≤ x ∧ x < 2 * 2 ^ fb * 2 ^ u := by
    have e1 : (2 : ℝ) ^ fb * 2 ^ u = 2 ^ (e + Nat.log2 m) := by
      rw [← zpow_natCast, ← zpow_add₀ two_ne_zero]; congr 1; rw [hu]; push_cast; ring
    have e2 : 2 * (2 : ℝ) ^ fb * 2 ^ u = 2 ^ (e + Nat.log2 m + 1) := by
      rw [mul_assoc, e1, zpow_add_one₀ two_ne_zero]; ring
    rw [e1, e2]; exact hbnd
  have huq : (2 : ℝ) ^ u ≤ 2 ^ q := zpow_le_zpow_right₀ (by norm_num) (le_max_left _ _)
  have hqpos : (0 : ℝ) < 2 ^ q := by positivity
  have hPr : ((2 ^ fb : Nat) : ℝ) = (2 : ℝ) ^ fb := by push_cast; rfl
  obtain ⟨n, n0, n1, nin, nup⟩ := roundTo_spec (rm := rm) (q := q) h (fun hne => (hsticky hne).trans (le_max_left _ _))
  have hnlt : n < 2 * 2 ^ fb := by
    have : (n : ℝ) * 2 ^ q < (2 * 2 ^ fb : Nat) * 2 ^ q := by
      push_cast
      calc (n : ℝ) * 2 ^ q ≤ x := n0
        _ < 2 * 2 ^ fb * 2 ^ u := hux.2
        _ ≤ 2 * 2 ^ fb * 2 ^ q := by gcongr
    exact_mod_cast lt_of_mul_lt_mul_right this hqpos.le
  have hnorm : F.minExp ≤ u → 2 ^ fb ≤ n := fun hle => by
    have hqu : q = u := max_eq_left hle
    have : ((2 ^ fb : Nat) : ℝ) * 2 ^ q < (n + 1 : Nat) * 2 ^ q := by
      rw [hPr, hqu]; push_cast
      rw [hqu] at n1
      exact hux.1.trans_lt n1
    have h' := lt_of_mul_lt_mul_right this hqpos.le
    have : 2 ^ fb < n + 1 := by exact_mod_cast h'
    omega
  set d := (q - F.minExp).toNat with hd
  have hdq : F.minExp + (d : Int) = q := by rw [hd, Int.toNat_of_nonneg (by have := le_max_right u F.minExp; omega)]; ring
  have hd0 : n < 2 ^ fb → d = 0 := fun h' => by
    have : ¬ F.minExp ≤ u := fun hle => by have := hnorm hle; omega
    rw [hd, hqd, max_eq_right (by omega)]; simp
  have hVk : (FP.magValue F (d * 2 ^ fb + n) : ℝ) = n * 2 ^ q := by
    rw [hfb, FP.magValue_eq F d n hnlt.le hd0, hdq]; push_cast; rfl
  have hVk1 : (FP.magValue F (d * 2 ^ fb + n + 1) : ℝ) = (n + 1) * 2 ^ q := by
    rw [hfb, Nat.add_assoc, FP.magValue_eq F d (n + 1) (Nat.succ_le_of_lt hnlt) (fun h' => hd0 (Nat.lt_of_succ_lt h')), hdq]
    push_cast; rfl
  have hpar : (d * 2 ^ fb + n) % 2 = n % 2 := by
    have : 2 ^ fb % 2 = 0 := by rw [hfb]; cases F <;> rfl
    rw [Nat.add_mod, Nat.mul_mod, this]; simp
  have hup : FP.RoundsUpAt F rm x (d * 2 ^ fb + n) ↔ RoundsUpBetween rm n (n * 2 ^ q) ((n + 1) * 2 ^ q) x := by
    cases rm <;> simp only [FP.RoundsUpAt, RoundsUpBetween, hVk, hVk1, hpar]
  unfold roundPack
  rw [if_neg hm]
  simp only [← hfb, ← hu, ← hqd, ← hd]
  obtain ⟨N, inexact, hr⟩ : ∃ N inexact, roundTo rm false m e q = (N, inexact) := ⟨_, _, rfl⟩
  rw [hr] at nin nup ⊢
  simp only at nin nup ⊢
  have hmag : (if N < 2 ^ fb then N else d * 2 ^ fb + N) = d * 2 ^ fb + N := by
    split
    · rw [hd0 (by rcases nup with ⟨h', -⟩ | ⟨h', -⟩ <;> omega)]; simp
    · rfl
  rw [hmag]
  have hM : (d * 2 ^ fb + N = d * 2 ^ fb + n ∧ ¬ FP.RoundsUpAt F rm x (d * 2 ^ fb + n)) ∨
      (d * 2 ^ fb + N = d * 2 ^ fb + n + 1 ∧ FP.RoundsUpAt F rm x (d * 2 ^ fb + n)) := by
    rw [hup]
    rcases nup with ⟨h', h''⟩ | ⟨h', h''⟩
    · exact .inl ⟨by rw [h'], h''⟩
    · exact .inr ⟨by rw [h', Nat.add_assoc], h''⟩
  refine FP.roundsTo_of_bracket (by rw [hVk]; exact n0) (by rw [hVk1]; exact n1) hM ?_
  -- the flags
  by_cases hex : (n : ℝ) * 2 ^ q = x
  · have : inexact = false := by by_contra hc; exact nin.1 (by simpa using hc) hex
    subst this
    left
    refine ⟨?_, by simp [flagIf, flagNone]⟩
    rcases hM with ⟨h', -⟩ | ⟨-, h'⟩
    · rw [h', hVk, hex]
    · exact absurd (h'.lt) (by rw [hVk, hex]; exact lt_irrefl _)
  · have : inexact = true := nin.2 hex
    subst this
    have hne : (FP.magValue F (d * 2 ^ fb + N) : ℝ) ≠ x := by
      rcases hM with ⟨h', -⟩ | ⟨h', -⟩
      · rw [h', hVk]; exact hex
      · rw [h', hVk1]; exact n1.ne'
    right
    -- the least normal value, and its distance from the next one below with an unbounded exponent
    have hnormal : (2 : ℝ) ^ (1 - (F.bias : Int)) = 2 * 2 ^ fb * 2 ^ (F.minExp - 1) := by
      rw [mul_assoc, ← zpow_natCast, ← zpow_add₀ two_ne_zero, ← zpow_one_add₀ two_ne_zero]
      congr 1; unfold Prec.minExp; ring
    have hlast : (0 : ℝ) < 2 ^ (F.minExp - 1) := by positivity
    have hP1 : (1 : ℝ) ≤ 2 ^ fb := one_le_pow₀ (by norm_num)
    have hx0 : 0 ≤ x := le_trans (by positivity) hux.1
    have htiny : FP.Tiny F rm x ↔ (decide (u < F.minExp) &&
        !(decide (u + 1 = F.minExp) && decide ((roundTo rm false m e u).1 = 2 ^ (fb + 1)))) = true := by
      have hb : ∀ (A B C : Prop) [Decidable A] [Decidable B] [Decidable C],
          (decide A && !(decide B && decide C)) = true ↔ A ∧ (B → ¬ C) := by intros; simp [imp_iff_not_or]
      rw [hb]
      simp only [FP.Tiny, hnormal, abs_of_nonneg hx0]
      generalize hL : (2 : ℝ) ^ (F.minExp - 1) = L at hlast ⊢
      have hPL : L ≤ 2 ^ fb * L := by nlinarith
      rcases lt_trichotomy (u + 1) F.minExp with hlt | heq | hgt
      · have h1 : x ≤ 2 ^ fb * L := hux.2.le.trans <| by
          have h2 : (2 : ℝ) ^ (u + 1) ≤ L := by rw [← hL]; exact zpow_le_zpow_right₀ (by norm_num) (by omega)
          rw [zpow_add_one₀ two_ne_zero] at h2; nlinarith
        refine iff_of_true ?_ ⟨by omega, fun h => by omega⟩
        cases rm <;> simp only <;> first | linarith | (constructor <;> linarith)
      · have hu' : (2 : ℝ) ^ u = L := by rw [← hL]; congr 1; omega
        have h2 : u < F.minExp := by omega
        rw [and_iff_right h2, forall_prop_of_true heq]
        obtain ⟨n', a0, a1, -, aup⟩ := roundTo_spec (rm := rm) (q := u) h hsticky
        rw [hu'] at a0 a1 aup hux
        generalize (roundTo rm false m e u).1 = N' at aup ⊢
        have hn' : n' + 1 ≤ 2 * 2 ^ fb := by
          have : (n' : ℝ) * L < (2 * 2 ^ fb : Nat) * L := by push_cast; linarith [hux.2]
          exact_mod_cast lt_of_mul_lt_mul_right this hlast.le
        rw [pow_succ]
        rcases Nat.lt_or_ge (n' + 1) (2 * 2 ^ fb) with hlt | hge
        · -- at least one place below the last one
          have hne' : ¬ N' = 2 ^ fb * 2 := by rcases aup with ⟨b, -⟩ | ⟨b, -⟩ <;> omega
          have hc : ((n' : ℝ) + 1) * L ≤ (2 * 2 ^ fb - 1) * L := by
            have : (n' : ℝ) + 1 + 1 ≤ 2 * 2 ^ fb := by exact_mod_cast hlt
            exact mul_le_mul_of_nonneg_right (by linarith) hlast.le
          simp only [hne', not_false_eq_true, iff_true]
          cases rm <;> simp only <;> first | linarith | (constructor <;> linarith)
        · -- in the last place below the least normal value
          have hn2 : n' + 1 = 2 * 2 ^ fb := by omega
          have hn2r : (n' : ℝ) = 2 * 2 ^ fb - 1 := by
            have : (n' : ℝ) + 1 = 2 * 2 ^ fb := by exact_mod_cast hn2
            linarith
          have hodd : n' % 2 = 1 := by omega
          have hiff : N' = 2 ^ fb * 2 ↔ RoundsUpBetween rm n' (n' * L) ((n' + 1) * L) x := by
            rcases aup with ⟨b, hb⟩ | ⟨b, hb⟩
            · exact ⟨fun _ => by omega, fun h => absurd h hb⟩
            · exact ⟨fun _ => hb, fun _ => by omega⟩
          rw [hiff]
          rw [hn2r] at a0 a1 ⊢
          cases rm <;> simp only [RoundsUpBetween, hodd, and_true, not_or, not_lt, not_le, not_false_eq_true, iff_true]
          · constructor
            · intro h'; exact ⟨by linarith, fun h'' => by linarith⟩
            · rintro ⟨h', h''⟩
              rcases lt_or_eq_of_le h' with h3 | h3
              · linarith
              · exact absurd h3.symm h''
          · linarith
          · constructor <;> linarith
          · constructor
            · rintro ⟨-, h'⟩; linarith
            · intro h'; constructor <;> linarith
          · constructor <;> intro h' <;> linarith
      · have h2 : ¬ u < F.minExp := by omega
        simp only [h2, false_and, iff_false]
        have h1 : 2 * 2 ^ fb * L ≤ x := le_trans (by
          have h3 : L * 2 ≤ 2 ^ u := by
            rw [← hL, ← zpow_add_one₀ two_ne_zero]; exact zpow_le_zpow_right₀ (by norm_num) (by omega)
          nlinarith) hux.1
        cases rm <;> simp only [not_and, not_lt, not_le] <;> first | linarith | (intros; linarith)
    rcases htb : (decide (u < F.minExp) &&
        !(decide (u + 1 = F.minExp) && decide ((roundTo rm false m e u).1 = 2 ^ (fb + 1)))) with _ | _
    · rw [htb] at htiny
      exact .inl ⟨hne, by simp [flagIf, flagNX, flagNone], fun h' => Bool.false_ne_true (htiny.1 h')⟩
    · rw [htb] at htiny
      exact .inr ⟨hne, by simp [flagIf, flagNX, flagUF], htiny.2 rfl⟩

/-- Rounding on the other side of zero. -/
theorem roundPack_neg (F : Prec) (rm : RoundMode) {m : Nat} (hm : m ≠ 0) (e : Int) :
    roundPack F rm true m e =
      (FP.neg F (roundPack F (flipMode rm) false m e).1, (roundPack F (flipMode rm) false m e).2) := by
  have hr : ∀ q, roundTo rm true m e q = roundTo (flipMode rm) false m e q := fun q => by
    unfold roundTo roundShift; cases rm <;> rfl
  have ho : overflowsToInf rm true = overflowsToInf (flipMode rm) false := by cases rm <;> rfl
  have hn : ∀ k, k < 2 ^ (F.width - 1) → F.pattern true k = FP.neg F (F.pattern false k) := fun k hk => by
    rw [FP.neg_eq, FP.mag_pattern F _ hk, FP.sign_pattern F _ hk]; rfl
  have hi := FP.infMag_lt F
  unfold roundPack
  simp only [if_neg hm, hr, ho]
  generalize (if _ < 2 ^ F.fracBits then _ else _) = k
  split
  · simp only [Prec.infinity]
    split
    · rw [hn _ hi]
    · rw [hn _ (by omega)]
  · rw [hn _ (by omega)]

/-- What `roundPack` can do: it rounds the number that the sign, `m` and `e` stand for once to the format, an overflow
included. -/
theorem roundPack_roundsTo {F : Prec} {rm : RoundMode} {neg : Bool} {m : Nat} {e : Int} {x : ℝ} (hm : m ≠ 0)
    (h : StandsFor m e x) (hbig : x ≠ m * 2 ^ e → 8 * 2 ^ F.fracBits ≤ m) :
    FP.RoundsTo F rm (if neg then -x else x) (roundPack F rm neg m e) := by
  have hx : x ≠ 0 := by
    have := (h.bounds hm (fun hne => by have := hbig hne; have : 0 < 2 ^ F.fracBits := by positivity
                                        omega)).1
    have : (0 : ℝ) < 2 ^ (e + Nat.log2 m) := by positivity
    intro h0; linarith
  cases neg
  · simpa using roundPack_pos hm h hbig
  · rw [roundPack_neg F rm hm e]
    simpa using (roundPack_pos (rm := flipMode rm) hm h hbig).neg hx

/-- A zero of either sign is 0 rounded, without a flag. -/
theorem zero_roundsTo (F : Prec) (rm : RoundMode) (neg : Bool) : FP.RoundsTo F rm 0 (F.zero neg, flagNone) := by
  have h1 : (0 : ℝ) < FP.magValue F (0 + 1) := by
    have := (FP.magValue_lt F).2 (Nat.lt_succ_self 0)
    rwa [FP.magValue_zero, Rat.cast_zero] at this
  have hup : ∀ rm, ¬ FP.RoundsUpAt F rm 0 0 := fun rm h => by
    have := h.lt; rw [FP.magValue_zero, Rat.cast_zero] at this; exact lt_irrefl _ this
  have hpos : ∀ rm, FP.RoundedOnce F rm 0 (F.pattern false 0, flagNone) := fun rm =>
    FP.roundedOnce_of_bracket (k := 0) (by simp) h1 (.inl ⟨rfl, hup rm⟩) (by cases F <;> decide) (.inl ⟨by simp, rfl⟩)
  have hno : ¬ FP.Overflows F rm 0 := fun h =>
    absurd ((FP.overflows_iff (k := 0) (by simp) h1 (.inl ⟨rfl, hup rm⟩)).1 h) (by cases F <;> decide)
  refine ⟨fun h => absurd h hno, fun _ => ?_⟩
  cases neg
  · exact hpos rm
  · have := (hpos (flipMode rm)).neg
    rw [neg_zero] at this
    rwa [FP.neg_eq, FP.mag_pattern F _ (by positivity), FP.sign_pattern F _ (by positivity)] at this

/-- `roundPack` on any exact number, zero included. -/
theorem roundPack_exact (F : Prec) (rm : RoundMode) (neg : Bool) (m : Nat) (e : Int) :
    FP.RoundsTo F rm ((if neg then -1 else 1) * m * 2 ^ e) (roundPack F rm neg m e) := by
  rcases eq_or_ne m 0 with rfl | hm
  · simpa [roundPack] using zero_roundsTo F rm neg
  · have := roundPack_roundsTo (F := F) (rm := rm) (neg := neg) hm (.inl rfl : StandsFor m e (m * 2 ^ e)) (fun h => absurd rfl h)
    convert this using 1
    cases neg <;> simp

theorem signedNat_cast (neg : Bool) (m : Nat) : ((signedNat neg m : Int) : ℝ) = (if neg then -1 else 1) * m := by
  cases neg <;> simp [signedNat]

/-- The two terms of `addExact`'s sum, in units of its common exponent. -/
theorem addExact_sum (n1 : Bool) (m1 : Nat) (e1 : Int) (n2 : Bool) (m2 : Nat) (e2 : Int) :
    (((signedNat n1 (m1 * 2 ^ (e1 - min e1 e2).toNat) + signedNat n2 (m2 * 2 ^ (e2 - min e1 e2).toNat) : Int)) : ℝ) *
        2 ^ min e1 e2 =
      (if n1 then -1 else 1) * m1 * 2 ^ e1 + (if n2 then -1 else 1) * m2 * 2 ^ e2 := by
  have scale : ∀ (n : Bool) (m : Nat) (e' : Int), min e1 e2 ≤ e' →
      ((signedNat n (m * 2 ^ (e' - min e1 e2).toNat) : Int) : ℝ) * 2 ^ min e1 e2 = (if n then -1 else 1) * m * 2 ^ e' := by
    intro n m e' he
    rw [signedNat_cast]; push_cast
    rw [mul_assoc, mul_assoc, mul_assoc, ← zpow_natCast, ← zpow_add₀ two_ne_zero, Int.toNat_of_nonneg (by omega)]
    congr 3; ring
  rw [Int.cast_add, add_mul, scale n1 m1 e1 (min_le_left _ _), scale n2 m2 e2 (min_le_right _ _)]

/-- What `addExact` can do: it rounds the exact sum once. -/
theorem addExact_roundsTo (F : Prec) (rm : RoundMode) (n1 : Bool) (m1 : Nat) (e1 : Int) (n2 : Bool) (m2 : Nat) (e2 : Int) :
    FP.RoundsTo F rm ((if n1 then -1 else 1) * m1 * 2 ^ e1 + (if n2 then -1 else 1) * m2 * 2 ^ e2)
      (addExact F rm n1 m1 e1 n2 m2 e2) := by
  rw [← addExact_sum]
  unfold addExact
  simp only
  generalize signedNat n1 (m1 * 2 ^ (e1 - min e1 e2).toNat) + signedNat n2 (m2 * 2 ^ (e2 - min e1 e2).toNat) = total
  split
  · subst total; simpa using zero_roundsTo F rm _
  · have := roundPack_exact F rm (decide (total < 0)) total.natAbs (min e1 e2)
    convert this using 2
    rw [Nat.cast_natAbs, Int.cast_abs]
    by_cases h : total < 0
    · have h' : (total : ℝ) < 0 := by exact_mod_cast h
      simp [h, abs_of_neg h']
    · have h' : (0 : ℝ) ≤ total := by exact_mod_cast not_lt.1 h
      simp [h, abs_of_nonneg h']

/-- The sign of an exact zero sum. -/
theorem addExact_of_sum_zero {F : Prec} {rm : RoundMode} {n1 n2 : Bool} {m1 m2 : Nat} {e1 e2 : Int}
    (h : (if n1 then -1 else 1 : ℝ) * m1 * 2 ^ e1 + (if n2 then -1 else 1) * m2 * 2 ^ e2 = 0) :
    addExact F rm n1 m1 e1 n2 m2 e2 = (F.zero (if n1 = n2 then n1 else decide (rm = .rdn)), flagNone) := by
  rw [← addExact_sum] at h
  have hp : (2 : ℝ) ^ min e1 e2 ≠ 0 := by positivity
  unfold addExact
  simp only
  rw [if_pos (by exact_mod_cast (mul_eq_zero.1 h).resolve_right hp)]

theorem sqrtBits_spec (n : Nat) : ∀ k r, r * r ≤ n → n < (r + 2 ^ k) * (r + 2 ^ k) →
    sqrtBits n k r * sqrtBits n k r ≤ n ∧ n < (sqrtBits n k r + 1) * (sqrtBits n k r + 1)
  | 0, r, h1, h2 => by simpa [sqrtBits] using ⟨h1, h2⟩
  | k + 1, r, h1, h2 => by
    unfold sqrtBits
    split
    · refine sqrtBits_spec n k _ ‹_› ?_
      rwa [pow_succ, mul_two, ← Nat.add_assoc] at h2
    · exact sqrtBits_spec n k r h1 (not_le.1 ‹_›)

/-- What `natSqrt` can do: it finds the integer square root. -/
theorem natSqrt_spec {n : Nat} (h : n < 2 ^ 192) : natSqrt n * natSqrt n ≤ n ∧ n < (natSqrt n + 1) * (natSqrt n + 1) :=
  sqrtBits_spec n 96 0 (by simp) (by simpa [← pow_add] using h)

/-- A quotient or a root that was cut off, with its sticky bit, stands for the number it was cut off from. -/
theorem standsFor_withSticky {q : Nat} {lost : Bool} {e : Int} {x : ℝ} (h1 : lost = false → x = q * 2 ^ (e + 1))
    (h2 : lost = true → q * (2 : ℝ) ^ (e + 1) < x ∧ x < (q + 1) * 2 ^ (e + 1)) : StandsFor (withSticky q lost) e x := by
  simp only [zpow_add_one₀ (two_ne_zero (α := ℝ))] at h1 h2
  cases lost
  · left; rw [h1 rfl, withSticky]; push_cast; simp; ring
  · right
    obtain ⟨a, b⟩ := h2 rfl
    refine ⟨by simp [withSticky], ?_, ?_⟩
    · simp only [withSticky]; push_cast; norm_num; linarith
    · simp only [withSticky]; push_cast; linarith

end Sys2Proof.Machine
end

