-- ==== Sys2Proof/Laws/FloatOps.lean ====
section
/-! SUPPORT. What the arithmetic of the numerics record does with finite operands, said once for each operation: the exact
result, rounded once (46_rvfd_compute.md R180 item 2). -/

namespace Sys2Proof.Machine

/-- The number of a finite pattern, from its unpacked fields. -/
theorem FP.value_cast (F : Prec) (a : BitVec F.width) :
    (FP.value F a : ℝ) = (if FP.sign F a then -1 else 1) * FP.sig F a * 2 ^ FP.exp F a := by
  unfold FP.value; push_cast; split <;> simp

theorem FP.isNaN_of_finite {F : Prec} {a : BitVec F.width} (h : FP.isFinite F a = true) : FP.isNaN F a = false := by
  simp [FP.isFinite, FP.isNaN] at *; omega

theorem FP.isInf_of_finite {F : Prec} {a : BitVec F.width} (h : FP.isFinite F a = true) : FP.isInf F a = false := by
  simp [FP.isFinite, FP.isInf] at *; omega

theorem FP.isFinite_of_isZero {F : Prec} {a : BitVec F.width} (h : FP.isZero F a = true) : FP.isFinite F a = true := by
  have := (FP.infMag_even F).2
  simp [FP.isFinite, FP.isZero] at *; omega

theorem FP.isNaN_of_isInf {F : Prec} {a : BitVec F.width} (h : FP.isInf F a = true) : FP.isNaN F a = false := by
  simp [FP.isNaN, FP.isInf] at *; omega

theorem FP.isZero_of_isInf {F : Prec} {a : BitVec F.width} (h : FP.isInf F a = true) : FP.isZero F a = false := by
  have := (FP.infMag_even F).2
  simp [FP.isInf, FP.isZero] at *; omega

theorem FP.isZero_iff {F : Prec} {a : BitVec F.width} : FP.isZero F a = true ↔ FP.sig F a = 0 := by
  have hP : 0 < 2 ^ F.fracBits := by positivity
  have hd : 2 ^ F.fracBits * FP.biased F a + FP.frac F a = FP.mag F a := Nat.div_add_mod _ _
  rw [FP.isZero, decide_eq_true_eq, FP.sig]
  by_cases h : FP.biased F a = 0
  · rw [if_pos h, ← hd, h]; simp
  · rw [if_neg h, ← hd]
    have : 0 < 2 ^ F.fracBits * FP.biased F a := Nat.mul_pos hP (Nat.pos_of_ne_zero h)
    omega

theorem FP.value_eq_zero {F : Prec} {a : BitVec F.width} : (FP.value F a : ℝ) = 0 ↔ FP.sig F a = 0 := by
  rw [FP.value_cast]
  have : (2 : ℝ) ^ FP.exp F a ≠ 0 := by positivity
  split <;> simp [this]

/-- What `FP.add` does with finite operands. -/
theorem FP.add_roundsTo {F : Prec} {rm : RoundMode} {a b : BitVec F.width}
    (ha : FP.isFinite F a = true) (hb : FP.isFinite F b = true) :
    FP.RoundsTo F rm (FP.value F a + FP.value F b) (FP.add F rm a b) := by
  rw [FP.value_cast, FP.value_cast]; unfold FP.add
  simp only [FP.isNaN_of_finite ha, FP.isInf_of_finite ha, FP.isNaN_of_finite hb, FP.isInf_of_finite hb]
  exact addExact_roundsTo ..

theorem FP.sign_product {F : Prec} (a b : BitVec F.width) :
    (if (FP.sign F a != FP.sign F b) = true then (-1 : ℝ) else 1) =
      (if FP.sign F a then -1 else 1) * (if FP.sign F b then -1 else 1) := by
  cases FP.sign F a <;> cases FP.sign F b <;> simp

/-- What `FP.mul` does with finite operands. -/
theorem FP.mul_roundsTo {F : Prec} {rm : RoundMode} {a b : BitVec F.width}
    (ha : FP.isFinite F a = true) (hb : FP.isFinite F b = true) :
    FP.RoundsTo F rm (FP.value F a * FP.value F b) (FP.mul F rm a b) := by
  rw [FP.value_cast, FP.value_cast]; unfold FP.mul
  simp only [FP.isNaN_of_finite ha, FP.isInf_of_finite ha, FP.isNaN_of_finite hb, FP.isInf_of_finite hb]
  convert roundPack_exact F rm (FP.sign F a != FP.sign F b) (FP.sig F a * FP.sig F b) (FP.exp F a + FP.exp F b) using 1
  · rw [FP.sign_product, zpow_add₀ two_ne_zero]; push_cast; ring
  · simp

/-- What `FP.fma` does with finite operands. -/
theorem FP.fma_roundsTo {F : Prec} {rm : RoundMode} {a b c : BitVec F.width}
    (ha : FP.isFinite F a = true) (hb : FP.isFinite F b = true) (hc : FP.isFinite F c = true) :
    FP.RoundsTo F rm (FP.value F a * FP.value F b + FP.value F c) (FP.fma F rm a b c) := by
  rw [FP.value_cast, FP.value_cast, FP.value_cast]; unfold FP.fma
  simp only [FP.isNaN_of_finite ha, FP.isInf_of_finite ha, FP.isNaN_of_finite hb, FP.isInf_of_finite hb,
    FP.isNaN_of_finite hc, FP.isInf_of_finite hc]
  convert addExact_roundsTo F rm (FP.sign F a != FP.sign F b) (FP.sig F a * FP.sig F b) (FP.exp F a + FP.exp F b)
    (FP.sign F c) (FP.sig F c) (FP.exp F c) using 2
  · rw [FP.sign_product, zpow_add₀ two_ne_zero]; push_cast; ring
  · simp

/-- A significand has at most one bit more than the fraction. -/
theorem FP.sig_lt (F : Prec) (a : BitVec F.width) : FP.sig F a < 2 * 2 ^ F.fracBits := by
  have hP : 0 < 2 ^ F.fracBits := by positivity
  have : FP.frac F a < 2 ^ F.fracBits := Nat.mod_lt _ hP
  unfold FP.sig; split <;> omega

/-- What `FP.div` does with finite operands. -/
theorem FP.div_roundsTo {F : Prec} {rm : RoundMode} {a b : BitVec F.width}
    (ha : FP.isFinite F a = true) (hb : FP.isFinite F b = true) (hz : FP.isZero F b = false) :
    FP.RoundsTo F rm (FP.value F a / FP.value F b) (FP.div F rm a b) := by
  have hb0 : FP.sig F b ≠ 0 := fun h => by rw [FP.isZero_iff.2 h] at hz; cases hz
  rw [FP.value_cast, FP.value_cast]; unfold FP.div
  simp only [FP.isNaN_of_finite ha, FP.isInf_of_finite ha, FP.isNaN_of_finite hb, FP.isInf_of_finite hb, hz, Bool.or_false,
    Bool.and_false, Bool.false_eq_true, if_false]
  set k := 2 * F.fracBits + 4 with hk
  have hbr : (0 : ℝ) < FP.sig F b := by exact_mod_cast Nat.pos_of_ne_zero hb0
  have hsb := FP.sig_lt F b
  set sa := FP.sig F a with hsa
  set sb := FP.sig F b with hsb'
  set e := FP.exp F a - FP.exp F b - (k : Int) - 1 with he
  have hexp : (2 : ℝ) ^ (e + 1) = 2 ^ FP.exp F a / 2 ^ FP.exp F b / 2 ^ k := by
    rw [← zpow_natCast, ← zpow_sub₀ two_ne_zero, ← zpow_sub₀ two_ne_zero]; congr 1; rw [he]; ring
  have hx : (sa : ℝ) / sb * (2 ^ FP.exp F a / 2 ^ FP.exp F b) = ((sa * 2 ^ k : Nat) : ℝ) / sb * 2 ^ (e + 1) := by
    rw [hexp]; push_cast
    have h2 : (2 : ℝ) ^ k ≠ 0 := by positivity
    field_simp
  have hpe : (0 : ℝ) < 2 ^ (e + 1) := by positivity
  have hstand : StandsFor (withSticky (sa * 2 ^ k / sb) (decide (sa * 2 ^ k % sb ≠ 0))) e
      ((sa : ℝ) / sb * (2 ^ FP.exp F a / 2 ^ FP.exp F b)) := by
    rw [hx]
    have hdm : ((sa * 2 ^ k : Nat) : ℝ) = sb * (sa * 2 ^ k / sb : Nat) + (sa * 2 ^ k % sb : Nat) := by
      exact_mod_cast (Nat.div_add_mod (sa * 2 ^ k) sb).symm
    have hlt : sa * 2 ^ k % sb < sb := Nat.mod_lt _ (Nat.pos_of_ne_zero hb0)
    rw [hdm]
    generalize sa * 2 ^ k / sb = q at *
    generalize sa * 2 ^ k % sb = r at *
    apply standsFor_withSticky
    · intro h
      have : r = 0 := by simpa using h
      subst this; congr 1; field_simp; simp
    · intro h
      have hr : r ≠ 0 := by simpa using h
      have h1 : (0 : ℝ) < r := by exact_mod_cast Nat.pos_of_ne_zero hr
      have h2 : (r : ℝ) < sb := by exact_mod_cast hlt
      constructor
      · apply mul_lt_mul_of_pos_right _ hpe
        rw [lt_div_iff₀ hbr]; nlinarith
      · apply mul_lt_mul_of_pos_right _ hpe
        rw [div_lt_iff₀ hbr]; nlinarith
  rcases eq_or_ne sa 0 with h0 | h0
  · have := zero_roundsTo F rm (FP.sign F a != FP.sign F b)
    simp [h0, withSticky, roundPack]; exact this
  · have hm : 8 * 2 ^ F.fracBits ≤ withSticky (sa * 2 ^ k / sb) (decide (sa * 2 ^ k % sb ≠ 0)) := by
      have : 8 * 2 ^ F.fracBits ≤ sa * 2 ^ k / sb := by
        rw [Nat.le_div_iff_mul_le (Nat.pos_of_ne_zero hb0)]
        calc 8 * 2 ^ F.fracBits * sb ≤ 8 * 2 ^ F.fracBits * (2 * 2 ^ F.fracBits) := Nat.mul_le_mul_left _ hsb.le
          _ = 2 ^ k := by rw [hk, pow_add, pow_mul']; ring
          _ ≤ sa * 2 ^ k := Nat.le_mul_of_pos_left _ (Nat.pos_of_ne_zero h0)
      unfold withSticky; omega
    have hm0 : withSticky (sa * 2 ^ k / sb) (decide (sa * 2 ^ k % sb ≠ 0)) ≠ 0 := by
      have : 0 < 2 ^ F.fracBits := by positivity
      omega
    convert roundPack_roundsTo (neg := FP.sign F a != FP.sign F b) hm0 hstand (fun _ => hm) using 1
    have h2 : (2 : ℝ) ^ FP.exp F b ≠ 0 := by positivity
    cases FP.sign F a <;> cases FP.sign F b <;> simp <;> field_simp

/-- What `FP.sqrt` does with finite operands. -/
theorem FP.sqrt_roundsTo {F : Prec} {rm : RoundMode} {a : BitVec F.width}
    (ha : FP.isFinite F a = true) (hz : FP.isZero F a = true ∨ FP.sign F a = false) :
    FP.RoundsTo F rm (√(FP.value F a : ℝ)) (FP.sqrt F rm a) := by
  unfold FP.sqrt
  simp only [FP.isNaN_of_finite ha, FP.isInf_of_finite ha, Bool.false_eq_true, if_false]
  by_cases h0 : FP.isZero F a = true
  · rw [if_pos h0, FP.value_eq_zero.2 (FP.isZero_iff.1 h0), Real.sqrt_zero]
    have := zero_roundsTo F rm (FP.sign F a)
    rw [show a = F.zero (FP.sign F a) by
      conv_lhs => rw [← FP.pattern_sign_mag F a]
      rw [show FP.mag F a = 0 by simpa [FP.isZero] using h0]; rfl]
    exact this
  · have hs := hz.resolve_left h0
    have hsig : FP.sig F a ≠ 0 := fun h => h0 (FP.isZero_iff.2 h)
    rw [if_neg h0, hs]
    simp only [Bool.false_eq_true, if_false]
    rw [FP.value_cast, hs]
    have hsa := FP.sig_lt F a
    generalize FP.sig F a = s at *
    generalize FP.exp F a = E at *
    -- the significand over an even exponent
    obtain ⟨m, j, hm, hmE, hm0, hml⟩ : ∃ m j, (if decide (E % 2 ≠ 0) = true then 2 * s else s) = m ∧
        ((if decide (E % 2 ≠ 0) = true then E - 1 else E) / 2 = j ∧
          (s : ℝ) * 2 ^ E = m * (2 ^ j * 2 ^ j)) ∧ m ≠ 0 ∧ m < 4 * 2 ^ F.fracBits := by
      by_cases hE : E % 2 ≠ 0
      · refine ⟨_, _, rfl, ⟨rfl, ?_⟩, ?_, ?_⟩
        · simp only [decide_eq_true hE, if_true]
          rw [← zpow_add₀ two_ne_zero]
          have : E = 1 + ((E - 1) / 2 + (E - 1) / 2) := by omega
          conv_lhs => rw [this, zpow_add₀ two_ne_zero]
          push_cast; ring
        · simp [hE, hsig]
        · simp [hE]; omega
      · refine ⟨_, _, rfl, ⟨rfl, ?_⟩, ?_, ?_⟩
        · simp only [decide_eq_false hE, Bool.false_eq_true, if_false]
          rw [← zpow_add₀ two_ne_zero]
          congr 2; omega
        · simp [hE, hsig]
        · simp [hE]; omega
    rw [hm, hmE.1]
    simp only [Bool.false_eq_true, if_false, one_mul]
    rw [hmE.2]
    set k := F.fracBits + 3 with hk
    set n := m * 2 ^ (2 * k) with hn
    set e := j - (k : Int) - 1 with he
    have hkf : F.fracBits ≤ 52 := by cases F <;> decide
    have hn192 : n < 2 ^ 192 := by
      calc n < 4 * 2 ^ F.fracBits * 2 ^ (2 * k) := Nat.mul_lt_mul_of_pos_right hml (by positivity)
        _ = 2 ^ (2 + F.fracBits + 2 * k) := by rw [pow_add, pow_add]; norm_num
        _ ≤ 2 ^ 192 := Nat.pow_le_pow_right (by norm_num) (by omega)
    obtain ⟨r1, r2⟩ := natSqrt_spec hn192
    generalize natSqrt n = r at *
    have hpe : (0 : ℝ) < 2 ^ (e + 1) := by positivity
    have hx : √((m : ℝ) * (2 ^ j * 2 ^ j)) = √(n : ℝ) * 2 ^ (e + 1) := by
      have : (m : ℝ) * (2 ^ j * 2 ^ j) = n * (2 ^ (e + 1) * 2 ^ (e + 1)) := by
        rw [hn]; push_cast
        rw [mul_assoc, ← zpow_natCast, ← zpow_add₀ two_ne_zero, ← zpow_add₀ two_ne_zero, ← zpow_add₀ two_ne_zero]
        congr 2; rw [he]; push_cast; ring
      rw [this, Real.sqrt_mul (by positivity), Real.sqrt_mul_self hpe.le]
    have hr1 : (r : ℝ) ≤ √(n : ℝ) := Real.le_sqrt_of_sq_le (by rw [sq]; exact_mod_cast r1)
    have hr2 : √(n : ℝ) < r + 1 := by
      rw [Real.sqrt_lt' (by positivity), sq]; exact_mod_cast r2
    have hstand : StandsFor (withSticky r (decide (r * r ≠ n))) e √((m : ℝ) * (2 ^ j * 2 ^ j)) := by
      rw [hx]
      apply standsFor_withSticky
      · intro h
        have : r * r = n := by simpa using h
        rw [← this]; push_cast; rw [Real.sqrt_mul_self (by positivity)]
      · intro h
        have : r * r ≠ n := by simpa using h
        refine ⟨mul_lt_mul_of_pos_right (lt_of_le_of_ne hr1 fun h' => this ?_) hpe, mul_lt_mul_of_pos_right hr2 hpe⟩
        have : (r : ℝ) * r = n := by rw [h', Real.mul_self_sqrt (by positivity)]
        exact_mod_cast this
    have hbig : 8 * 2 ^ F.fracBits ≤ withSticky r (decide (r * r ≠ n)) := by
      have : 8 * 2 ^ F.fracBits ≤ r := by
        have h8 : 8 * 2 ^ F.fracBits = 2 ^ k := by rw [hk, pow_add]; ring
        rw [h8]
        by_contra hc
        have hle : r + 1 ≤ 2 ^ k := by omega
        have : (r + 1) * (r + 1) ≤ n := by
          calc (r + 1) * (r + 1) ≤ 2 ^ k * 2 ^ k := Nat.mul_le_mul hle hle
            _ = 2 ^ (2 * k) := by generalize k = k'; ring
            _ ≤ n := Nat.le_mul_of_pos_left _ (Nat.pos_of_ne_zero hm0)
        omega
      unfold withSticky; omega
    have := roundPack_roundsTo (rm := rm) (neg := false) (by have : 0 < 2 ^ F.fracBits := by positivity
                                                             omega) hstand (fun _ => hbig)
    simpa using this

end Sys2Proof.Machine
end

