-- ==== Sys2Proof/Laws/PerInstr.lean ====
section
/-! SUPPORT. One lemma for each instruction: its word, under its row's mask, is its row's `match` (30_encoding.md R63). -/

namespace Sys2Proof.Laws.RowMatch

/-- On a variant that has the instruction, its word matches the row of the opcode table that it stands for. -/
def Statement (i : Instr) : Prop := ∀ v : Variant, i.wellFormed v = true → encode i &&& i.rowMask v = i.rowMatch

theorem lb (rd rs1 : RegIdx) (imm : BitVec 12) : Statement (.lb rd rs1 imm) :=
  fun _ _ => (encI_and_0000707f _ _ _ _ _).trans rfl

theorem lh (rd rs1 : RegIdx) (imm : BitVec 12) : Statement (.lh rd rs1 imm) :=
  fun _ _ => (encI_and_0000707f _ _ _ _ _).trans rfl

theorem lw (rd rs1 : RegIdx) (imm : BitVec 12) : Statement (.lw rd rs1 imm) :=
  fun _ _ => (encI_and_0000707f _ _ _ _ _).trans rfl

theorem lbu (rd rs1 : RegIdx) (imm : BitVec 12) : Statement (.lbu rd rs1 imm) :=
  fun _ _ => (encI_and_0000707f _ _ _ _ _).trans rfl

theorem lhu (rd rs1 : RegIdx) (imm : BitVec 12) : Statement (.lhu rd rs1 imm) :=
  fun _ _ => (encI_and_0000707f _ _ _ _ _).trans rfl

theorem addi (rd rs1 : RegIdx) (imm : BitVec 12) : Statement (.addi rd rs1 imm) :=
  fun _ _ => (encI_and_0000707f _ _ _ _ _).trans rfl

theorem slli (rd rs1 : RegIdx) (shamt : BitVec 6) : Statement (.slli rd rs1 shamt) := by
  intro v h
  cases v with
  | mk xlen fp =>
    cases xlen
    · have hs : shamt.toNat < 32 := by simpa [Instr.wellFormed, shamtOk] using h
      exact (encShift_and_fe00707f _ _ _ _ _ _ hs).trans rfl
    · exact (encShift_and_fc00707f _ _ _ _ _ _).trans rfl

theorem slti (rd rs1 : RegIdx) (imm : BitVec 12) : Statement (.slti rd rs1 imm) :=
  fun _ _ => (encI_and_0000707f _ _ _ _ _).trans rfl

theorem sltiu (rd rs1 : RegIdx) (imm : BitVec 12) : Statement (.sltiu rd rs1 imm) :=
  fun _ _ => (encI_and_0000707f _ _ _ _ _).trans rfl

theorem xori (rd rs1 : RegIdx) (imm : BitVec 12) : Statement (.xori rd rs1 imm) :=
  fun _ _ => (encI_and_0000707f _ _ _ _ _).trans rfl

theorem srli (rd rs1 : RegIdx) (shamt : BitVec 6) : Statement (.srli rd rs1 shamt) := by
  intro v h
  cases v with
  | mk xlen fp =>
    cases xlen
    · have hs : shamt.toNat < 32 := by simpa [Instr.wellFormed, shamtOk] using h
      exact (encShift_and_fe00707f _ _ _ _ _ _ hs).trans rfl
    · exact (encShift_and_fc00707f _ _ _ _ _ _).trans rfl

theorem srai (rd rs1 : RegIdx) (shamt : BitVec 6) : Statement (.srai rd rs1 shamt) := by
  intro v h
  cases v with
  | mk xlen fp =>
    cases xlen
    · have hs : shamt.toNat < 32 := by simpa [Instr.wellFormed, shamtOk] using h
      exact (encShift_and_fe00707f _ _ _ _ _ _ hs).trans rfl
    · exact (encShift_and_fc00707f _ _ _ _ _ _).trans rfl

theorem ori (rd rs1 : RegIdx) (imm : BitVec 12) : Statement (.ori rd rs1 imm) :=
  fun _ _ => (encI_and_0000707f _ _ _ _ _).trans rfl

theorem andi (rd rs1 : RegIdx) (imm : BitVec 12) : Statement (.andi rd rs1 imm) :=
  fun _ _ => (encI_and_0000707f _ _ _ _ _).trans rfl

theorem auipc (rd : RegIdx) (upimm : BitVec 20) : Statement (.auipc rd upimm) :=
  fun _ _ => (encU_and_0000007f _ _ _).trans rfl

theorem sb (rs2 rs1 : RegIdx) (imm : BitVec 12) : Statement (.sb rs2 rs1 imm) :=
  fun _ _ => (encS_and_0000707f _ _ _ _ _).trans rfl

theorem sh (rs2 rs1 : RegIdx) (imm : BitVec 12) : Statement (.sh rs2 rs1 imm) :=
  fun _ _ => (encS_and_0000707f _ _ _ _ _).trans rfl

theorem sw (rs2 rs1 : RegIdx) (imm : BitVec 12) : Statement (.sw rs2 rs1 imm) :=
  fun _ _ => (encS_and_0000707f _ _ _ _ _).trans rfl

theorem add (rd rs1 rs2 : RegIdx) : Statement (.add rd rs1 rs2) :=
  fun _ _ => (encR_and_fe00707f _ _ _ _ _ _).trans rfl

theorem sub (rd rs1 rs2 : RegIdx) : Statement (.sub rd rs1 rs2) :=
  fun _ _ => (encR_and_fe00707f _ _ _ _ _ _).trans rfl

theorem sll (rd rs1 rs2 : RegIdx) : Statement (.sll rd rs1 rs2) :=
  fun _ _ => (encR_and_fe00707f _ _ _ _ _ _).trans rfl

theorem slt (rd rs1 rs2 : RegIdx) : Statement (.slt rd rs1 rs2) :=
  fun _ _ => (encR_and_fe00707f _ _ _ _ _ _).trans rfl

theorem sltu (rd rs1 rs2 : RegIdx) : Statement (.sltu rd rs1 rs2) :=
  fun _ _ => (encR_and_fe00707f _ _ _ _ _ _).trans rfl

theorem xor (rd rs1 rs2 : RegIdx) : Statement (.xor rd rs1 rs2) :=
  fun _ _ => (encR_and_fe00707f _ _ _ _ _ _).trans rfl

theorem srl (rd rs1 rs2 : RegIdx) : Statement (.srl rd rs1 rs2) :=
  fun _ _ => (encR_and_fe00707f _ _ _ _ _ _).trans rfl

theorem sra (rd rs1 rs2 : RegIdx) : Statement (.sra rd rs1 rs2) :=
  fun _ _ => (encR_and_fe00707f _ _ _ _ _ _).trans rfl

theorem or (rd rs1 rs2 : RegIdx) : Statement (.or rd rs1 rs2) :=
  fun _ _ => (encR_and_fe00707f _ _ _ _ _ _).trans rfl

theorem and (rd rs1 rs2 : RegIdx) : Statement (.and rd rs1 rs2) :=
  fun _ _ => (encR_and_fe00707f _ _ _ _ _ _).trans rfl

theorem lui (rd : RegIdx) (upimm : BitVec 20) : Statement (.lui rd upimm) :=
  fun _ _ => (encU_and_0000007f _ _ _).trans rfl

theorem beq (rs1 rs2 : RegIdx) (offset : BitVec 13) : Statement (.beq rs1 rs2 offset) :=
  fun _ _ => (encB_and_0000707f _ _ _ _ _).trans rfl

theorem bne (rs1 rs2 : RegIdx) (offset : BitVec 13) : Statement (.bne rs1 rs2 offset) :=
  fun _ _ => (encB_and_0000707f _ _ _ _ _).trans rfl

theorem blt (rs1 rs2 : RegIdx) (offset : BitVec 13) : Statement (.blt rs1 rs2 offset) :=
  fun _ _ => (encB_and_0000707f _ _ _ _ _).trans rfl

theorem bge (rs1 rs2 : RegIdx) (offset : BitVec 13) : Statement (.bge rs1 rs2 offset) :=
  fun _ _ => (encB_and_0000707f _ _ _ _ _).trans rfl

theorem bltu (rs1 rs2 : RegIdx) (offset : BitVec 13) : Statement (.bltu rs1 rs2 offset) :=
  fun _ _ => (encB_and_0000707f _ _ _ _ _).trans rfl

theorem bgeu (rs1 rs2 : RegIdx) (offset : BitVec 13) : Statement (.bgeu rs1 rs2 offset) :=
  fun _ _ => (encB_and_0000707f _ _ _ _ _).trans rfl

theorem jalr (rd rs1 : RegIdx) (imm : BitVec 12) : Statement (.jalr rd rs1 imm) :=
  fun _ _ => (encI_and_0000707f _ _ _ _ _).trans rfl

theorem jal (rd : RegIdx) (offset : BitVec 21) : Statement (.jal rd offset) :=
  fun _ _ => (encJ_and_0000007f _ _ _).trans rfl

theorem ld (rd rs1 : RegIdx) (imm : BitVec 12) : Statement (.ld rd rs1 imm) :=
  fun _ _ => (encI_and_0000707f _ _ _ _ _).trans rfl

theorem lwu (rd rs1 : RegIdx) (imm : BitVec 12) : Statement (.lwu rd rs1 imm) :=
  fun _ _ => (encI_and_0000707f _ _ _ _ _).trans rfl

theorem addiw (rd rs1 : RegIdx) (imm : BitVec 12) : Statement (.addiw rd rs1 imm) :=
  fun _ _ => (encI_and_0000707f _ _ _ _ _).trans rfl

theorem slliw (rd rs1 : RegIdx) (shamt : BitVec 5) : Statement (.slliw rd rs1 shamt) :=
  fun _ _ => (encR_and_fe00707f _ _ _ _ _ _).trans rfl

theorem srliw (rd rs1 : RegIdx) (shamt : BitVec 5) : Statement (.srliw rd rs1 shamt) :=
  fun _ _ => (encR_and_fe00707f _ _ _ _ _ _).trans rfl

theorem sraiw (rd rs1 : RegIdx) (shamt : BitVec 5) : Statement (.sraiw rd rs1 shamt) :=
  fun _ _ => (encR_and_fe00707f _ _ _ _ _ _).trans rfl

theorem sd (rs2 rs1 : RegIdx) (imm : BitVec 12) : Statement (.sd rs2 rs1 imm) :=
  fun _ _ => (encS_and_0000707f _ _ _ _ _).trans rfl

theorem addw (rd rs1 rs2 : RegIdx) : Statement (.addw rd rs1 rs2) :=
  fun _ _ => (encR_and_fe00707f _ _ _ _ _ _).trans rfl

theorem subw (rd rs1 rs2 : RegIdx) : Statement (.subw rd rs1 rs2) :=
  fun _ _ => (encR_and_fe00707f _ _ _ _ _ _).trans rfl

theorem sllw (rd rs1 rs2 : RegIdx) : Statement (.sllw rd rs1 rs2) :=
  fun _ _ => (encR_and_fe00707f _ _ _ _ _ _).trans rfl

theorem srlw (rd rs1 rs2 : RegIdx) : Statement (.srlw rd rs1 rs2) :=
  fun _ _ => (encR_and_fe00707f _ _ _ _ _ _).trans rfl

theorem sraw (rd rs1 rs2 : RegIdx) : Statement (.sraw rd rs1 rs2) :=
  fun _ _ => (encR_and_fe00707f _ _ _ _ _ _).trans rfl

theorem fmaddS (fd fs1 fs2 fs3 : RegIdx) (rm : RmField) : Statement (.fmaddS fd fs1 fs2 fs3 rm) :=
  fun _ _ => (encR4_and_0600007f _ _ _ _ _ _ _).trans rfl

theorem fmaddD (fd fs1 fs2 fs3 : RegIdx) (rm : RmField) : Statement (.fmaddD fd fs1 fs2 fs3 rm) :=
  fun _ _ => (encR4_and_0600007f _ _ _ _ _ _ _).trans rfl

theorem fmsubS (fd fs1 fs2 fs3 : RegIdx) (rm : RmField) : Statement (.fmsubS fd fs1 fs2 fs3 rm) :=
  fun _ _ => (encR4_and_0600007f _ _ _ _ _ _ _).trans rfl

theorem fmsubD (fd fs1 fs2 fs3 : RegIdx) (rm : RmField) : Statement (.fmsubD fd fs1 fs2 fs3 rm) :=
  fun _ _ => (encR4_and_0600007f _ _ _ _ _ _ _).trans rfl

theorem fnmsubS (fd fs1 fs2 fs3 : RegIdx) (rm : RmField) : Statement (.fnmsubS fd fs1 fs2 fs3 rm) :=
  fun _ _ => (encR4_and_0600007f _ _ _ _ _ _ _).trans rfl

theorem fnmsubD (fd fs1 fs2 fs3 : RegIdx) (rm : RmField) : Statement (.fnmsubD fd fs1 fs2 fs3 rm) :=
  fun _ _ => (encR4_and_0600007f _ _ _ _ _ _ _).trans rfl

theorem fnmaddS (fd fs1 fs2 fs3 : RegIdx) (rm : RmField) : Statement (.fnmaddS fd fs1 fs2 fs3 rm) :=
  fun _ _ => (encR4_and_0600007f _ _ _ _ _ _ _).trans rfl

theorem fnmaddD (fd fs1 fs2 fs3 : RegIdx) (rm : RmField) : Statement (.fnmaddD fd fs1 fs2 fs3 rm) :=
  fun _ _ => (encR4_and_0600007f _ _ _ _ _ _ _).trans rfl

theorem faddS (fd fs1 fs2 : RegIdx) (rm : RmField) : Statement (.faddS fd fs1 fs2 rm) :=
  fun _ _ => (encR_and_fe00007f _ _ _ _ _ _).trans rfl

theorem faddD (fd fs1 fs2 : RegIdx) (rm : RmField) : Statement (.faddD fd fs1 fs2 rm) :=
  fun _ _ => (encR_and_fe00007f _ _ _ _ _ _).trans rfl

theorem fsubS (fd fs1 fs2 : RegIdx) (rm : RmField) : Statement (.fsubS fd fs1 fs2 rm) :=
  fun _ _ => (encR_and_fe00007f _ _ _ _ _ _).trans rfl

theorem fsubD (fd fs1 fs2 : RegIdx) (rm : RmField) : Statement (.fsubD fd fs1 fs2 rm) :=
  fun _ _ => (encR_and_fe00007f _ _ _ _ _ _).trans rfl

theorem fmulS (fd fs1 fs2 : RegIdx) (rm : RmField) : Statement (.fmulS fd fs1 fs2 rm) :=
  fun _ _ => (encR_and_fe00007f _ _ _ _ _ _).trans rfl

theorem fmulD (fd fs1 fs2 : RegIdx) (rm : RmField) : Statement (.fmulD fd fs1 fs2 rm) :=
  fun _ _ => (encR_and_fe00007f _ _ _ _ _ _).trans rfl

theorem fdivS (fd fs1 fs2 : RegIdx) (rm : RmField) : Statement (.fdivS fd fs1 fs2 rm) :=
  fun _ _ => (encR_and_fe00007f _ _ _ _ _ _).trans rfl

theorem fdivD (fd fs1 fs2 : RegIdx) (rm : RmField) : Statement (.fdivD fd fs1 fs2 rm) :=
  fun _ _ => (encR_and_fe00007f _ _ _ _ _ _).trans rfl

theorem fsqrtS (fd fs1 : RegIdx) (rm : RmField) : Statement (.fsqrtS fd fs1 rm) :=
  fun _ _ => (encR_and_fff0007f _ _ _ _ _ _).trans rfl

theorem fsqrtD (fd fs1 : RegIdx) (rm : RmField) : Statement (.fsqrtD fd fs1 rm) :=
  fun _ _ => (encR_and_fff0007f _ _ _ _ _ _).trans rfl

theorem fsgnjS (fd fs1 fs2 : RegIdx) : Statement (.fsgnjS fd fs1 fs2) :=
  fun _ _ => (encR_and_fe00707f _ _ _ _ _ _).trans rfl

theorem fsgnjD (fd fs1 fs2 : RegIdx) : Statement (.fsgnjD fd fs1 fs2) :=
  fun _ _ => (encR_and_fe00707f _ _ _ _ _ _).trans rfl

theorem fsgnjnS (fd fs1 fs2 : RegIdx) : Statement (.fsgnjnS fd fs1 fs2) :=
  fun _ _ => (encR_and_fe00707f _ _ _ _ _ _).trans rfl

theorem fsgnjnD (fd fs1 fs2 : RegIdx) : Statement (.fsgnjnD fd fs1 fs2) :=
  fun _ _ => (encR_and_fe00707f _ _ _ _ _ _).trans rfl

theorem fsgnjxS (fd fs1 fs2 : RegIdx) : Statement (.fsgnjxS fd fs1 fs2) :=
  fun _ _ => (encR_and_fe00707f _ _ _ _ _ _).trans rfl

theorem fsgnjxD (fd fs1 fs2 : RegIdx) : Statement (.fsgnjxD fd fs1 fs2) :=
  fun _ _ => (encR_and_fe00707f _ _ _ _ _ _).trans rfl

theorem fminS (fd fs1 fs2 : RegIdx) : Statement (.fminS fd fs1 fs2) :=
  fun _ _ => (encR_and_fe00707f _ _ _ _ _ _).trans rfl

theorem fminD (fd fs1 fs2 : RegIdx) : Statement (.fminD fd fs1 fs2) :=
  fun _ _ => (encR_and_fe00707f _ _ _ _ _ _).trans rfl

theorem fmaxS (fd fs1 fs2 : RegIdx) : Statement (.fmaxS fd fs1 fs2) :=
  fun _ _ => (encR_and_fe00707f _ _ _ _ _ _).trans rfl

theorem fmaxD (fd fs1 fs2 : RegIdx) : Statement (.fmaxD fd fs1 fs2) :=
  fun _ _ => (encR_and_fe00707f _ _ _ _ _ _).trans rfl

theorem feqS (rd fs1 fs2 : RegIdx) : Statement (.feqS rd fs1 fs2) :=
  fun _ _ => (encR_and_fe00707f _ _ _ _ _ _).trans rfl

theorem feqD (rd fs1 fs2 : RegIdx) : Statement (.feqD rd fs1 fs2) :=
  fun _ _ => (encR_and_fe00707f _ _ _ _ _ _).trans rfl

theorem fltS (rd fs1 fs2 : RegIdx) : Statement (.fltS rd fs1 fs2) :=
  fun _ _ => (encR_and_fe00707f _ _ _ _ _ _).trans rfl

theorem fltD (rd fs1 fs2 : RegIdx) : Statement (.fltD rd fs1 fs2) :=
  fun _ _ => (encR_and_fe00707f _ _ _ _ _ _).trans rfl

theorem fleS (rd fs1 fs2 : RegIdx) : Statement (.fleS rd fs1 fs2) :=
  fun _ _ => (encR_and_fe00707f _ _ _ _ _ _).trans rfl

theorem fleD (rd fs1 fs2 : RegIdx) : Statement (.fleD rd fs1 fs2) :=
  fun _ _ => (encR_and_fe00707f _ _ _ _ _ _).trans rfl

theorem fclassS (rd fs1 : RegIdx) : Statement (.fclassS rd fs1) :=
  fun _ _ => (encR_and_fff0707f _ _ _ _ _ _).trans rfl

theorem fclassD (rd fs1 : RegIdx) : Statement (.fclassD rd fs1) :=
  fun _ _ => (encR_and_fff0707f _ _ _ _ _ _).trans rfl

theorem flw (fd rs1 : RegIdx) (imm : BitVec 12) : Statement (.flw fd rs1 imm) :=
  fun _ _ => (encI_and_0000707f _ _ _ _ _).trans rfl

theorem fsw (fs2 rs1 : RegIdx) (imm : BitVec 12) : Statement (.fsw fs2 rs1 imm) :=
  fun _ _ => (encS_and_0000707f _ _ _ _ _).trans rfl

theorem fcvtWS (rd fs1 : RegIdx) (rm : RmField) : Statement (.fcvtWS rd fs1 rm) :=
  fun _ _ => (encR_and_fff0007f _ _ _ _ _ _).trans rfl

theorem fcvtWuS (rd fs1 : RegIdx) (rm : RmField) : Statement (.fcvtWuS rd fs1 rm) :=
  fun _ _ => (encR_and_fff0007f _ _ _ _ _ _).trans rfl

theorem fcvtSW (fd rs1 : RegIdx) (rm : RmField) : Statement (.fcvtSW fd rs1 rm) :=
  fun _ _ => (encR_and_fff0007f _ _ _ _ _ _).trans rfl

theorem fcvtSWu (fd rs1 : RegIdx) (rm : RmField) : Statement (.fcvtSWu fd rs1 rm) :=
  fun _ _ => (encR_and_fff0007f _ _ _ _ _ _).trans rfl

theorem fmvXW (rd fs1 : RegIdx) : Statement (.fmvXW rd fs1) :=
  fun _ _ => (encR_and_fff0707f _ _ _ _ _ _).trans rfl

theorem fmvWX (fd rs1 : RegIdx) : Statement (.fmvWX fd rs1) :=
  fun _ _ => (encR_and_fff0707f _ _ _ _ _ _).trans rfl

theorem fld (fd rs1 : RegIdx) (imm : BitVec 12) : Statement (.fld fd rs1 imm) :=
  fun _ _ => (encI_and_0000707f _ _ _ _ _).trans rfl

theorem fsd (fs2 rs1 : RegIdx) (imm : BitVec 12) : Statement (.fsd fs2 rs1 imm) :=
  fun _ _ => (encS_and_0000707f _ _ _ _ _).trans rfl

theorem fcvtWD (rd fs1 : RegIdx) (rm : RmField) : Statement (.fcvtWD rd fs1 rm) :=
  fun _ _ => (encR_and_fff0007f _ _ _ _ _ _).trans rfl

theorem fcvtWuD (rd fs1 : RegIdx) (rm : RmField) : Statement (.fcvtWuD rd fs1 rm) :=
  fun _ _ => (encR_and_fff0007f _ _ _ _ _ _).trans rfl

theorem fcvtDW (fd rs1 : RegIdx) (rm : RmField) : Statement (.fcvtDW fd rs1 rm) :=
  fun _ _ => (encR_and_fff0007f _ _ _ _ _ _).trans rfl

theorem fcvtDWu (fd rs1 : RegIdx) (rm : RmField) : Statement (.fcvtDWu fd rs1 rm) :=
  fun _ _ => (encR_and_fff0007f _ _ _ _ _ _).trans rfl

theorem fcvtSD (fd fs1 : RegIdx) (rm : RmField) : Statement (.fcvtSD fd fs1 rm) :=
  fun _ _ => (encR_and_fff0007f _ _ _ _ _ _).trans rfl

theorem fcvtDS (fd fs1 : RegIdx) (rm : RmField) : Statement (.fcvtDS fd fs1 rm) :=
  fun _ _ => (encR_and_fff0007f _ _ _ _ _ _).trans rfl

end Sys2Proof.Laws.RowMatch
end

