-- ==== Sys2Proof/Tests/Slice0.lean ====
section
/-! SUPPORT. Tests: ill-formed terms, the decoding of words written out from the spec's encodings, single steps with the
values of spec/95_test_vectors.md or of the rule named, and a witness for the hypotheses of every statement that has some. -/

namespace Sys2Proof.Tests

open Sys2Proof.Machine

/-! ## Well-formedness: what each check refuses -/

def rv32 : Variant := { xlen := .rv32, fp := .fd }
def rv64 : Variant := { xlen := .rv64, fp := .fd }
def rv64f : Variant := { xlen := .rv64, fp := .f }
def rv32f : Variant := { xlen := .rv32, fp := .f }
def rv32i : Variant := { xlen := .rv32, fp := .none }

theorem test_wf_shamt_32_on_rv32 : (Instr.slli 1#5 2#5 32#6).wellFormed rv32 = false := by decide
theorem test_wf_shamt_31_on_rv32 : (Instr.srli 1#5 2#5 31#6).wellFormed rv32 = true := by decide
theorem test_wf_shamt_63_on_rv64 : (Instr.srai 1#5 2#5 63#6).wellFormed rv64 = true := by decide
theorem test_wf_odd_branch_offset : (Instr.beq 1#5 2#5 5#13).wellFormed rv64 = false := by decide
theorem test_wf_odd_jump_offset : (Instr.jal 1#5 3#21).wellFormed rv64 = false := by decide
theorem test_wf_word_instruction_on_rv32 : (Instr.addw 1#5 2#5 3#5).wellFormed rv32 = false := by decide
theorem test_wf_double_without_d : (Instr.faddD 1#5 2#5 3#5 .rne).wellFormed rv64f = false := by decide
theorem test_wf_single_without_f : (Instr.flw 1#5 2#5 0#12).wellFormed rv32i = false := by decide

/-! ## Decoding: one word for each instruction, its fields in the order of its format (30_encoding.md R52 to R59) -/

/-- On RV64 with F and D, the word decodes to the instruction, and the instruction encodes to the word. -/
def decodesTo (w : InstrWord) (i : Instr) : Bool :=
  (match decode rv64 w with
   | .ok j => decide (j = i)
   | .error _ => false) && decide (encode i = w)

theorem decode_lb : decodesTo 0b111111111111_00110_000_00101_0000011#32 (.lb 5#5 6#5 0xfff#12) = true := by decide
theorem decode_lh : decodesTo 0b000000000001_00110_001_00101_0000011#32 (.lh 5#5 6#5 0x001#12) = true := by decide
theorem decode_lw : decodesTo 0b111111111100_00110_010_00101_0000011#32 (.lw 5#5 6#5 0xffc#12) = true := by decide
theorem decode_lbu : decodesTo 0b000000000111_00110_100_00101_0000011#32 (.lbu 5#5 6#5 0x007#12) = true := by decide
theorem decode_lhu : decodesTo 0b000000000010_00110_101_00101_0000011#32 (.lhu 5#5 6#5 0x002#12) = true := by decide
theorem decode_addi : decodesTo 0b111111111111_00110_000_00101_0010011#32 (.addi 5#5 6#5 0xfff#12) = true := by decide
theorem decode_slli : decodesTo 0b000000_111111_00110_001_00101_0010011#32 (.slli 5#5 6#5 63#6) = true := by decide
theorem decode_slti : decodesTo 0b111111111111_00110_010_00101_0010011#32 (.slti 5#5 6#5 0xfff#12) = true := by decide
theorem decode_sltiu : decodesTo 0b111111111111_00110_011_00101_0010011#32 (.sltiu 5#5 6#5 0xfff#12) = true := by decide
theorem decode_xori : decodesTo 0b111111111111_00110_100_00101_0010011#32 (.xori 5#5 6#5 0xfff#12) = true := by decide
theorem decode_srli : decodesTo 0b000000_111111_00110_101_00101_0010011#32 (.srli 5#5 6#5 63#6) = true := by decide
theorem decode_srai : decodesTo 0b010000_111111_00110_101_00101_0010011#32 (.srai 5#5 6#5 63#6) = true := by decide
theorem decode_ori : decodesTo 0b111100000000_00110_110_00101_0010011#32 (.ori 5#5 6#5 0xf00#12) = true := by decide
theorem decode_andi : decodesTo 0b111111111111_00110_111_00101_0010011#32 (.andi 5#5 6#5 0xfff#12) = true := by decide
theorem decode_auipc : decodesTo 0b11111111111111111111_00101_0010111#32 (.auipc 5#5 0xfffff#20) = true := by decide
theorem decode_sb : decodesTo 0b1000000_00111_00110_000_00000_0100011#32 (.sb 7#5 6#5 0x800#12) = true := by decide
theorem decode_sh : decodesTo 0b0000000_00111_00110_001_00010_0100011#32 (.sh 7#5 6#5 0x002#12) = true := by decide
theorem decode_sw : decodesTo 0b1111111_00111_00110_010_11100_0100011#32 (.sw 7#5 6#5 0xffc#12) = true := by decide
theorem decode_add : decodesTo 0b0000000_00111_00110_000_00101_0110011#32 (.add 5#5 6#5 7#5) = true := by decide
theorem decode_sub : decodesTo 0b0100000_00111_00110_000_00101_0110011#32 (.sub 5#5 6#5 7#5) = true := by decide
theorem decode_sll : decodesTo 0b0000000_00111_00110_001_00101_0110011#32 (.sll 5#5 6#5 7#5) = true := by decide
theorem decode_slt : decodesTo 0b0000000_00111_00110_010_00101_0110011#32 (.slt 5#5 6#5 7#5) = true := by decide
theorem decode_sltu : decodesTo 0b0000000_00111_00110_011_00101_0110011#32 (.sltu 5#5 6#5 7#5) = true := by decide
theorem decode_xor : decodesTo 0b0000000_00111_00110_100_00101_0110011#32 (.xor 5#5 6#5 7#5) = true := by decide
theorem decode_srl : decodesTo 0b0000000_00111_00110_101_00101_0110011#32 (.srl 5#5 6#5 7#5) = true := by decide
theorem decode_sra : decodesTo 0b0100000_00111_00110_101_00101_0110011#32 (.sra 5#5 6#5 7#5) = true := by decide
theorem decode_or : decodesTo 0b0000000_00111_00110_110_00101_0110011#32 (.or 5#5 6#5 7#5) = true := by decide
theorem decode_and : decodesTo 0b0000000_00111_00110_111_00101_0110011#32 (.and 5#5 6#5 7#5) = true := by decide
theorem decode_lui : decodesTo 0b11111111111111111111_00101_0110111#32 (.lui 5#5 0xfffff#20) = true := by decide
theorem decode_beq : decodesTo 0b1_111111_00000_00000_000_1100_1_1100011#32 (.beq 0#5 0#5 0x1ff8#13) = true := by decide
theorem decode_bne : decodesTo 0b1_111111_00111_00110_001_1000_1_1100011#32 (.bne 6#5 7#5 0x1ff0#13) = true := by decide
theorem decode_blt : decodesTo 0b1_000000_00111_00110_100_0000_0_1100011#32 (.blt 6#5 7#5 0x1000#13) = true := by decide
theorem decode_bge : decodesTo 0b0_000000_00111_00110_101_0100_0_1100011#32 (.bge 6#5 7#5 0x0008#13) = true := by decide
theorem decode_bltu : decodesTo 0b0_000000_00111_00110_110_0100_0_1100011#32 (.bltu 6#5 7#5 0x0008#13) = true := by decide
theorem decode_bgeu : decodesTo 0b0_000000_00111_00110_111_0100_0_1100011#32 (.bgeu 6#5 7#5 0x0008#13) = true := by decide
theorem decode_jalr : decodesTo 0b111111111111_00110_000_00001_1100111#32 (.jalr 1#5 6#5 0xfff#12) = true := by decide
theorem decode_jal : decodesTo 0b1_1111111110_1_11111111_00000_1101111#32 (.jal 0#5 0x1ffffc#21) = true := by decide
theorem decode_ld : decodesTo 0b111111111000_00110_011_00101_0000011#32 (.ld 5#5 6#5 0xff8#12) = true := by decide
theorem decode_lwu : decodesTo 0b000000000100_00110_110_00101_0000011#32 (.lwu 5#5 6#5 0x004#12) = true := by decide
theorem decode_addiw : decodesTo 0b111111111111_00110_000_00101_0011011#32 (.addiw 5#5 6#5 0xfff#12) = true := by decide
theorem decode_slliw : decodesTo 0b0000000_11111_00110_001_00101_0011011#32 (.slliw 5#5 6#5 31#5) = true := by decide
theorem decode_srliw : decodesTo 0b0000000_11111_00110_101_00101_0011011#32 (.srliw 5#5 6#5 31#5) = true := by decide
theorem decode_sraiw : decodesTo 0b0100000_11111_00110_101_00101_0011011#32 (.sraiw 5#5 6#5 31#5) = true := by decide
theorem decode_sd : decodesTo 0b0000000_00111_00110_011_01000_0100011#32 (.sd 7#5 6#5 0x008#12) = true := by decide
theorem decode_addw : decodesTo 0b0000000_00111_00110_000_00101_0111011#32 (.addw 5#5 6#5 7#5) = true := by decide
theorem decode_subw : decodesTo 0b0100000_00111_00110_000_00101_0111011#32 (.subw 5#5 6#5 7#5) = true := by decide
theorem decode_sllw : decodesTo 0b0000000_00111_00110_001_00101_0111011#32 (.sllw 5#5 6#5 7#5) = true := by decide
theorem decode_srlw : decodesTo 0b0000000_00111_00110_101_00101_0111011#32 (.srlw 5#5 6#5 7#5) = true := by decide
theorem decode_sraw : decodesTo 0b0100000_00111_00110_101_00101_0111011#32 (.sraw 5#5 6#5 7#5) = true := by decide
theorem decode_fmaddS : decodesTo 0b00011_00_00010_00001_000_00100_1000011#32 (.fmaddS 4#5 1#5 2#5 3#5 .rne) = true := by decide
theorem decode_fmaddD : decodesTo 0b00011_01_00010_00001_111_00100_1000011#32 (.fmaddD 4#5 1#5 2#5 3#5 .dyn) = true := by decide
theorem decode_fmsubS : decodesTo 0b00011_00_00010_00001_000_00100_1000111#32 (.fmsubS 4#5 1#5 2#5 3#5 .rne) = true := by decide
theorem decode_fmsubD : decodesTo 0b00011_01_00010_00001_001_00100_1000111#32 (.fmsubD 4#5 1#5 2#5 3#5 .rtz) = true := by decide
theorem decode_fnmsubS : decodesTo 0b00011_00_00010_00001_000_00100_1001011#32 (.fnmsubS 4#5 1#5 2#5 3#5 .rne) = true := by decide
theorem decode_fnmsubD : decodesTo 0b00011_01_00010_00001_000_00011_1001011#32 (.fnmsubD 3#5 1#5 2#5 3#5 .rne) = true := by decide
theorem decode_fnmaddS : decodesTo 0b00011_00_00010_00001_000_00100_1001111#32 (.fnmaddS 4#5 1#5 2#5 3#5 .rne) = true := by decide
theorem decode_fnmaddD : decodesTo 0b00011_01_00010_00001_000_00011_1001111#32 (.fnmaddD 3#5 1#5 2#5 3#5 .rne) = true := by decide
theorem decode_faddS : decodesTo 0b0000000_00010_00001_000_00011_1010011#32 (.faddS 3#5 1#5 2#5 .rne) = true := by decide
theorem decode_faddD : decodesTo 0b0000001_00010_00001_000_00011_1010011#32 (.faddD 3#5 1#5 2#5 .rne) = true := by decide
theorem decode_fsubS : decodesTo 0b0000100_00010_00001_000_00011_1010011#32 (.fsubS 3#5 1#5 2#5 .rne) = true := by decide
theorem decode_fsubD : decodesTo 0b0000101_00010_00001_000_00011_1010011#32 (.fsubD 3#5 1#5 2#5 .rne) = true := by decide
theorem decode_fmulS : decodesTo 0b0001000_00010_00001_000_00011_1010011#32 (.fmulS 3#5 1#5 2#5 .rne) = true := by decide
theorem decode_fmulD : decodesTo 0b0001001_00010_00001_000_00011_1010011#32 (.fmulD 3#5 1#5 2#5 .rne) = true := by decide
theorem decode_fdivS : decodesTo 0b0001100_00010_00001_000_00011_1010011#32 (.fdivS 3#5 1#5 2#5 .rne) = true := by decide
theorem decode_fdivD : decodesTo 0b0001101_00010_00001_000_00011_1010011#32 (.fdivD 3#5 1#5 2#5 .rne) = true := by decide
theorem decode_fsqrtS : decodesTo 0b0101100_00000_00001_000_00011_1010011#32 (.fsqrtS 3#5 1#5 .rne) = true := by decide
theorem decode_fsqrtD : decodesTo 0b0101101_00000_00001_000_00011_1010011#32 (.fsqrtD 3#5 1#5 .rne) = true := by decide
theorem decode_fsgnjS : decodesTo 0b0010000_00010_00001_000_00011_1010011#32 (.fsgnjS 3#5 1#5 2#5) = true := by decide
theorem decode_fsgnjD : decodesTo 0b0010001_00010_00001_000_00011_1010011#32 (.fsgnjD 3#5 1#5 2#5) = true := by decide
theorem decode_fsgnjnS : decodesTo 0b0010000_00010_00001_001_00011_1010011#32 (.fsgnjnS 3#5 1#5 2#5) = true := by decide
theorem decode_fsgnjnD : decodesTo 0b0010001_00010_00001_001_00011_1010011#32 (.fsgnjnD 3#5 1#5 2#5) = true := by decide
theorem decode_fsgnjxS : decodesTo 0b0010000_00010_00001_010_00011_1010011#32 (.fsgnjxS 3#5 1#5 2#5) = true := by decide
theorem decode_fsgnjxD : decodesTo 0b0010001_00010_00001_010_00011_1010011#32 (.fsgnjxD 3#5 1#5 2#5) = true := by decide
theorem decode_fminS : decodesTo 0b0010100_00010_00001_000_00011_1010011#32 (.fminS 3#5 1#5 2#5) = true := by decide
theorem decode_fminD : decodesTo 0b0010101_00010_00001_000_00011_1010011#32 (.fminD 3#5 1#5 2#5) = true := by decide
theorem decode_fmaxS : decodesTo 0b0010100_00010_00001_001_00011_1010011#32 (.fmaxS 3#5 1#5 2#5) = true := by decide
theorem decode_fmaxD : decodesTo 0b0010101_00010_00001_001_00011_1010011#32 (.fmaxD 3#5 1#5 2#5) = true := by decide
theorem decode_feqS : decodesTo 0b1010000_00010_00001_010_00101_1010011#32 (.feqS 5#5 1#5 2#5) = true := by decide
theorem decode_feqD : decodesTo 0b1010001_00010_00001_010_00101_1010011#32 (.feqD 5#5 1#5 2#5) = true := by decide
theorem decode_fltS : decodesTo 0b1010000_00010_00001_001_00101_1010011#32 (.fltS 5#5 1#5 2#5) = true := by decide
theorem decode_fltD : decodesTo 0b1010001_00010_00001_001_00101_1010011#32 (.fltD 5#5 1#5 2#5) = true := by decide
theorem decode_fleS : decodesTo 0b1010000_00010_00001_000_00101_1010011#32 (.fleS 5#5 1#5 2#5) = true := by decide
theorem decode_fleD : decodesTo 0b1010001_00010_00001_000_00101_1010011#32 (.fleD 5#5 1#5 2#5) = true := by decide
theorem decode_fclassS : decodesTo 0b1110000_00000_00001_001_00101_1010011#32 (.fclassS 5#5 1#5) = true := by decide
theorem decode_fclassD : decodesTo 0b1110001_00000_00001_001_00101_1010011#32 (.fclassD 5#5 1#5) = true := by decide
theorem decode_flw : decodesTo 0b000000001000_00110_010_00001_0000111#32 (.flw 1#5 6#5 0x008#12) = true := by decide
theorem decode_fsw : decodesTo 0b0000000_00001_00110_010_01000_0100111#32 (.fsw 1#5 6#5 0x008#12) = true := by decide
theorem decode_fcvtWS : decodesTo 0b1100000_00000_00001_001_00101_1010011#32 (.fcvtWS 5#5 1#5 .rtz) = true := by decide
theorem decode_fcvtWuS : decodesTo 0b1100000_00001_00001_001_00101_1010011#32 (.fcvtWuS 5#5 1#5 .rtz) = true := by decide
theorem decode_fcvtSW : decodesTo 0b1101000_00000_00101_000_00001_1010011#32 (.fcvtSW 1#5 5#5 .rne) = true := by decide
theorem decode_fcvtSWu : decodesTo 0b1101000_00001_00101_000_00001_1010011#32 (.fcvtSWu 1#5 5#5 .rne) = true := by decide
theorem decode_fmvXW : decodesTo 0b1110000_00000_00001_000_00101_1010011#32 (.fmvXW 5#5 1#5) = true := by decide
theorem decode_fmvWX : decodesTo 0b1111000_00000_00101_000_00001_1010011#32 (.fmvWX 1#5 5#5) = true := by decide
theorem decode_fld : decodesTo 0b000000001000_00110_011_00001_0000111#32 (.fld 1#5 6#5 0x008#12) = true := by decide
theorem decode_fsd : decodesTo 0b0000000_00001_00110_011_01000_0100111#32 (.fsd 1#5 6#5 0x008#12) = true := by decide
theorem decode_fcvtWD : decodesTo 0b1100001_00000_00001_001_00101_1010011#32 (.fcvtWD 5#5 1#5 .rtz) = true := by decide
theorem decode_fcvtWuD : decodesTo 0b1100001_00001_00001_001_00101_1010011#32 (.fcvtWuD 5#5 1#5 .rtz) = true := by decide
theorem decode_fcvtDW : decodesTo 0b1101001_00000_00101_000_00001_1010011#32 (.fcvtDW 1#5 5#5 .rne) = true := by decide
theorem decode_fcvtDWu : decodesTo 0b1101001_00001_00101_000_00001_1010011#32 (.fcvtDWu 1#5 5#5 .rne) = true := by decide
theorem decode_fcvtSD : decodesTo 0b0100000_00001_00001_000_00010_1010011#32 (.fcvtSD 2#5 1#5 .rne) = true := by decide
theorem decode_fcvtDS : decodesTo 0b0100001_00000_00001_000_00010_1010011#32 (.fcvtDS 2#5 1#5 .rne) = true := by decide

theorem decode_reserved_rounding_mode : decode rv64 0b0000000_00010_00001_101_00011_1010011#32 =
    .error (.unlisted 0x0020d1d3#32) := by rfl
theorem decode_quad_format : decode rv64 0b00011_11_00010_00001_000_00100_1000011#32 = .error (.unlisted 0x1e208243#32) := by rfl
theorem decode_rv32_shift_by_32 : decode rv32 0b000000_100000_00110_001_00101_0010011#32 = .error (.unlisted 0x02031293#32) := by
  rfl
theorem decode_ecall : decode rv64 0x00000073#32 = .error (.unlisted 0x00000073#32) := by rfl
theorem decode_truncated : decodeBytes rv64 [0x13#8, 0x00#8, 0x00#8] = .error (.truncated 3) := by rfl

/-! ## One step each (95_test_vectors.md section 2)

Text at 0x1000 to 0x1fff and data at 0x2000 to 0x2fff, as the vectors ask. -/

/-- The vectors' machine: the word at `pc`, integer and floating-point registers and bytes of memory as listed. -/
def vec (v : Variant) (word pc : Nat) (x f m : List (Nat × Nat)) : State :=
  let launch : Launch :=
    { Launch.atReset with
      variant := v
      memMap := { read := [{ base := 0x2000, size := 0x1000 }], write := [{ base := 0x2000, size := 0x1000 }],
                  exec := [{ base := 0x1000, size := 0x1000 }] }
      endPc := 0x3000#64 }
  let s : State := { State.reset with launch := launch, pc := BitVec.ofNat 64 pc }
  let s := x.foldl (fun s p => { s with x := s.x.setIfInBounds p.1 (BitVec.ofNat 64 p.2) }) s
  let s := f.foldl (fun s p => { s with f := s.f.setIfInBounds p.1 (BitVec.ofNat 64 p.2) }) s
  let s := m.foldl (fun s p => { s with mem := s.mem.set p.1 (BitVec.ofNat 8 p.2) }) s
  s.withFetchWord 32 word

/-- An integer register after the step, and the flags. -/
def xAfter (r : RegIdx) (s : State) : Option (Nat × Nat) :=
  match step s with
  | .next t => some ((t.gpr r).toNat, t.fflags.toNat)
  | _ => none

/-- A floating-point register after the step, and the flags. -/
def fAfter (r : RegIdx) (s : State) : Option (Nat × Nat) :=
  match step s with
  | .next t => some ((t.fpr r).toNat, t.fflags.toNat)
  | _ => none

/-- The pc after the step, and an integer register. -/
def pcAfter (r : RegIdx) (s : State) : Option (Nat × Nat) :=
  match step s with
  | .next t => some (t.pc.toNat, (t.gpr r).toNat)
  | _ => none

/-- The eight bytes from 0x2000 and the eight after, as numbers, after the step. -/
def memAfter (s : State) : Option (Nat × Nat) :=
  match step s with
  | .next t => some (leNat ((List.range 8).map fun i => t.mem.byte (0x2000 + i)),
      leNat ((List.range 8).map fun i => t.mem.byte (0x2008 + i)))
  | _ => none

/-- The fault the step ends in. -/
def faultOf (s : State) : Option Fault :=
  match step s with
  | .fault e => some e
  | _ => none

/-- The data of the load vectors. -/
def loadData : List (Nat × Nat) :=
  [(0x2000, 0xef), (0x2001, 0xcd), (0x2002, 0xab), (0x2003, 0x89), (0x2004, 0x67), (0x2005, 0x45), (0x2006, 0x23), (0x2007, 0x81)]

/-- The data of the store vectors. -/
def storeData : List (Nat × Nat) :=
  [(0x2000, 0x11), (0x2001, 0x22), (0x2002, 0x33), (0x2003, 0x44), (0x2004, 0x55), (0x2005, 0x66), (0x2006, 0x77), (0x2007, 0x88)]

theorem test_lb_1 :
    xAfter 5#5 (vec rv64 0x00030283 0x1000 [(6, 0x2000)] [] loadData) = some (0xffffffffffffffef, 0) := by
  decide
theorem test_lb_2 :
    xAfter 5#5 (vec rv32 0x00430283 0x1000 [(6, 0x2000)] [] loadData) = some (0x67, 0) := by
  decide
theorem test_lh_1 :
    xAfter 5#5 (vec rv64 0x00031283 0x1000 [(6, 0x2000)] [] loadData) = some (0xffffffffffffcdef, 0) := by
  decide
theorem test_lh_2 :
    faultOf (vec rv32 0x00131283 0x1000 [(6, 0x2000)] [] loadData) = some (.loadAddressMisaligned 0x2001#64) := by
  decide
theorem test_lw_1 :
    xAfter 5#5 (vec rv64 0x7ff32283 0x1000 [(6, 0x1801)] [] loadData) = some (0xffffffff89abcdef, 0) := by
  decide
theorem test_lw_2 :
    faultOf (vec rv32 0x00232283 0x1000 [(6, 0x2000)] [] loadData) = some (.loadAddressMisaligned 0x2002#64) := by
  decide
theorem test_lbu_1 :
    xAfter 5#5 (vec rv64 0x00034283 0x1000 [(6, 0x2000)] [] loadData) = some (0xef, 0) := by
  decide
theorem test_lbu_2 :
    xAfter 5#5 (vec rv32 0x00734283 0x1000 [(6, 0x2000)] [] loadData) = some (0x81, 0) := by
  decide
theorem test_lhu_1 :
    xAfter 5#5 (vec rv64 0x00035283 0x1000 [(6, 0x2000)] [] loadData) = some (0xcdef, 0) := by
  decide
theorem test_lhu_2 :
    xAfter 5#5 (vec rv32 0x00235283 0x1000 [(6, 0x2000)] [] loadData) = some (0x89ab, 0) := by
  decide
theorem test_addi_1 :
    xAfter 5#5 (vec rv64 0xfff30293 0x1000 [(6, 0x0)] [] []) = some (0xffffffffffffffff, 0) := by
  decide
theorem test_addi_2 :
    xAfter 6#5 (vec rv32 0x00530313 0x1000 [(6, 0xa)] [] []) = some (0xf, 0) := by
  decide
theorem test_slli_1 :
    xAfter 5#5 (vec rv64 0x00131293 0x1000 [(6, 0x80000001)] [] []) = some (0x100000002, 0) := by
  decide
theorem test_slli_2 :
    xAfter 5#5 (vec rv32 0x00031293 0x1000 [(6, 0x80000001)] [] []) = some (0x80000001, 0) := by
  decide
theorem test_slti_1 :
    xAfter 5#5 (vec rv64 0x00032293 0x1000 [(6, 0xffffffffffffffff)] [] []) = some (0x1, 0) := by
  decide
theorem test_slti_2 :
    xAfter 5#5 (vec rv32 0xfff32293 0x1000 [(6, 0xfffffffe)] [] []) = some (0x1, 0) := by
  decide
theorem test_sltiu_1 :
    xAfter 5#5 (vec rv64 0xfff33293 0x1000 [(6, 0x5)] [] []) = some (0x1, 0) := by
  decide
theorem test_sltiu_2 :
    xAfter 5#5 (vec rv32 0x00133293 0x1000 [(6, 0x0)] [] []) = some (0x1, 0) := by
  decide
theorem test_xori_1 :
    xAfter 5#5 (vec rv64 0xfff34293 0x1000 [(6, 0xf0f0f0f)] [] []) = some (0xfffffffff0f0f0f0, 0) := by
  decide
theorem test_xori_2 :
    xAfter 5#5 (vec rv32 0x55534293 0x1000 [(6, 0xfff)] [] []) = some (0xaaa, 0) := by
  decide
theorem test_srli_1 :
    xAfter 5#5 (vec rv64 0x00035293 0x1000 [(6, 0xffffffff80000000)] [] []) = some (0xffffffff80000000, 0) := by
  decide
theorem test_srli_2 :
    xAfter 5#5 (vec rv64 0x00135293 0x1000 [(6, 0xffffffff80000000)] [] []) = some (0x7fffffffc0000000, 0) := by
  decide
theorem test_srai_1 :
    xAfter 5#5 (vec rv64 0x41f35293 0x1000 [(6, 0xffffffff80000000)] [] []) = some (0xffffffffffffffff, 0) := by
  decide
theorem test_srai_2 :
    xAfter 5#5 (vec rv64 0x43f35293 0x1000 [(6, 0x8000000000000000)] [] []) = some (0xffffffffffffffff, 0) := by
  decide
theorem test_ori_1 :
    xAfter 5#5 (vec rv64 0x80036293 0x1000 [(6, 0x1)] [] []) = some (0xfffffffffffff801, 0) := by
  decide
theorem test_ori_2 :
    xAfter 5#5 (vec rv32 0x0f036293 0x1000 [(6, 0x1234)] [] []) = some (0x12f4, 0) := by
  decide
theorem test_andi_1 :
    xAfter 5#5 (vec rv64 0xfff37293 0x1000 [(6, 0xffffffffffffffff)] [] []) = some (0xffffffffffffffff, 0) := by
  decide
theorem test_andi_2 :
    xAfter 5#5 (vec rv32 0xff037293 0x1000 [(6, 0x12345678)] [] []) = some (0x12345670, 0) := by
  decide
theorem test_auipc_1 :
    xAfter 5#5 (vec rv64 0x80000297 0x1000 [] [] []) = some (0xffffffff80001000, 0) := by
  decide
theorem test_auipc_2 :
    xAfter 5#5 (vec rv32 0x00000297 0x1000 [] [] []) = some (0x1000, 0) := by
  decide
theorem test_sb_1 :
    memAfter (vec rv64 0x00730023 0x1000 [(6, 0x2000), (7, 0x123456ef)] [] storeData) = some (0x88776655443322ef, 0x0) := by
  decide
theorem test_sb_2 :
    memAfter (vec rv32 0x007301a3 0x1000 [(6, 0x2000), (7, 0xffffffff)] [] storeData) = some (0x88776655ff332211, 0x0) := by
  decide
theorem test_sh_1 :
    memAfter (vec rv64 0x00731123 0x1000 [(6, 0x2000), (7, 0x1234beef)] [] storeData) = some (0x88776655beef2211, 0x0) := by
  decide
theorem test_sh_2 :
    faultOf (vec rv32 0x007310a3 0x1000 [(6, 0x2000), (7, 0xbeef)] [] storeData) = some (.storeAddressMisaligned 0x2001#64) := by
  decide
theorem test_sw_1 :
    memAfter (vec rv64 0x00732023 0x1000 [(6, 0x2000), (7, 0x1122334455667788)] [] storeData) = some (0x8877665555667788, 0x0) := by
  decide
theorem test_sw_2 :
    faultOf (vec rv32 0x00732123 0x1000 [(6, 0x2000), (7, 0xbeef)] [] storeData) = some (.storeAddressMisaligned 0x2002#64) := by
  decide
theorem test_add_1 :
    xAfter 6#5 (vec rv64 0x00730333 0x1000 [(6, 0x3), (7, 0x4)] [] []) = some (0x7, 0) := by
  decide
theorem test_add_2 :
    xAfter 5#5 (vec rv32 0x007302b3 0x1000 [(6, 0x7fffffff), (7, 0x1)] [] []) = some (0x80000000, 0) := by
  decide
theorem test_sub_1 :
    xAfter 5#5 (vec rv64 0x407302b3 0x1000 [(6, 0xffffffff80000000), (7, 0x1)] [] []) = some (0xffffffff7fffffff, 0) := by
  decide
theorem test_sub_2 :
    xAfter 5#5 (vec rv32 0x406002b3 0x1000 [(6, 0x80000000)] [] []) = some (0x80000000, 0) := by
  decide
theorem test_sll_1 :
    xAfter 5#5 (vec rv64 0x007312b3 0x1000 [(6, 0x3), (7, 0xffffffe1)] [] []) = some (0x600000000, 0) := by
  decide
theorem test_sll_2 :
    xAfter 5#5 (vec rv32 0x007312b3 0x1000 [(6, 0x3), (7, 0xffffffe1)] [] []) = some (0x6, 0) := by
  decide
theorem test_slt_1 :
    xAfter 5#5 (vec rv64 0x007322b3 0x1000 [(6, 0xffffffffffffffff), (7, 0x1)] [] []) = some (0x1, 0) := by
  decide
theorem test_slt_2 :
    xAfter 5#5 (vec rv32 0x006322b3 0x1000 [(6, 0x5)] [] []) = some (0x0, 0) := by
  decide
theorem test_sltu_1 :
    xAfter 5#5 (vec rv64 0x007332b3 0x1000 [(6, 0x1), (7, 0xffffffffffffffff)] [] []) = some (0x1, 0) := by
  decide
theorem test_sltu_2 :
    xAfter 5#5 (vec rv32 0x007032b3 0x1000 [(7, 0x5)] [] []) = some (0x1, 0) := by
  decide
theorem test_xor_1 :
    xAfter 5#5 (vec rv64 0x007342b3 0x1000 [(6, 0xff00ff00), (7, 0xff00ff0)] [] []) = some (0xf0f0f0f0, 0) := by
  decide
theorem test_xor_2 :
    xAfter 5#5 (vec rv32 0x006342b3 0x1000 [(6, 0x1234)] [] []) = some (0x0, 0) := by
  decide
theorem test_srl_1 :
    xAfter 5#5 (vec rv64 0x007352b3 0x1000 [(6, 0xfffffffffffffff0), (7, 0x4)] [] []) = some (0xfffffffffffffff, 0) := by
  decide
theorem test_srl_2 :
    xAfter 5#5 (vec rv64 0x007352b3 0x1000 [(6, 0xffffffff80000000), (7, 0x1f)] [] []) = some (0x1ffffffff, 0) := by
  decide
theorem test_sra_1 :
    xAfter 5#5 (vec rv64 0x407352b3 0x1000 [(6, 0xfffffffffffffff0), (7, 0x4)] [] []) = some (0xffffffffffffffff, 0) := by
  decide
theorem test_sra_2 :
    xAfter 5#5 (vec rv64 0x407352b3 0x1000 [(6, 0xffffffff80000000), (7, 0x1f)] [] []) = some (0xffffffffffffffff, 0) := by
  decide
theorem test_or_1 :
    xAfter 5#5 (vec rv64 0x007362b3 0x1000 [(6, 0xff00ff00), (7, 0xff00ff0)] [] []) = some (0xfff0fff0, 0) := by
  decide
theorem test_or_2 :
    xAfter 5#5 (vec rv32 0x000362b3 0x1000 [(6, 0x1234)] [] []) = some (0x1234, 0) := by
  decide
theorem test_and_1 :
    xAfter 5#5 (vec rv64 0x007372b3 0x1000 [(6, 0xff00ff00), (7, 0xff00ff0)] [] []) = some (0xf000f00, 0) := by
  decide
theorem test_and_2 :
    xAfter 5#5 (vec rv32 0x000372b3 0x1000 [(6, 0x1234)] [] []) = some (0x0, 0) := by
  decide
theorem test_lui_1 :
    xAfter 5#5 (vec rv64 0xfffff2b7 0x1000 [] [] []) = some (0xfffffffffffff000, 0) := by
  decide
theorem test_lui_2 :
    xAfter 5#5 (vec rv64 0x800002b7 0x1000 [] [] []) = some (0xffffffff80000000, 0) := by
  decide
theorem test_beq_1 :
    pcAfter 0#5 (vec rv64 0xfe000ce3 0x1000 [] [] []) = some (0xff8, 0x0) := by
  decide
theorem test_beq_2 :
    faultOf (vec rv32 0x00730363 0x1000 [(6, 0x5), (7, 0x5)] [] []) = some (.instructionAddressMisaligned 0x1006#64) := by
  decide
theorem test_bne_1 :
    pcAfter 0#5 (vec rv64 0xfe7318e3 0x1000 [(6, 0x5), (7, 0x6)] [] []) = some (0xff0, 0x0) := by
  decide
theorem test_bne_2 :
    pcAfter 0#5 (vec rv32 0xfe7318e3 0x1000 [(6, 0x5), (7, 0x6)] [] []) = some (0xff0, 0x0) := by
  decide
theorem test_blt_1 :
    pcAfter 0#5 (vec rv64 0x7e734ee3 0x1000 [(6, 0xffffffffffffffff), (7, 0x1)] [] []) = some (0x1ffc, 0x0) := by
  decide
theorem test_blt_2 :
    faultOf (vec rv32 0x7e734fe3 0x1000 [(6, 0xffffffff), (7, 0x1)] [] []) = some (.instructionAddressMisaligned 0x1ffe#64) := by
  decide
theorem test_bge_1 :
    pcAfter 0#5 (vec rv64 0x00735463 0x1000 [(6, 0x1), (7, 0xffffffffffffffff)] [] []) = some (0x1008, 0x0) := by
  decide
theorem test_bge_2 :
    pcAfter 0#5 (vec rv32 0x00735463 0x1000 [(6, 0x1), (7, 0xffffffff)] [] []) = some (0x1008, 0x0) := by
  decide
theorem test_bltu_1 :
    pcAfter 0#5 (vec rv64 0x00736463 0x1000 [(6, 0x1), (7, 0xffffffffffffffff)] [] []) = some (0x1008, 0x0) := by
  decide
theorem test_bltu_2 :
    pcAfter 0#5 (vec rv32 0x00736463 0x1000 [(6, 0x1), (7, 0xffffffff)] [] []) = some (0x1008, 0x0) := by
  decide
theorem test_bgeu_1 :
    pcAfter 0#5 (vec rv64 0x00737463 0x1000 [(6, 0xffffffffffffffff), (7, 0x1)] [] []) = some (0x1008, 0x0) := by
  decide
theorem test_bgeu_2 :
    pcAfter 0#5 (vec rv32 0x00737463 0x1000 [(6, 0xffffffff), (7, 0x1)] [] []) = some (0x1008, 0x0) := by
  decide
theorem test_jalr_1 :
    pcAfter 0#5 (vec rv64 0x00008067 0x1000 [(1, 0x100c)] [] []) = some (0x100c, 0x0) := by
  decide
theorem test_jalr_2 :
    faultOf (vec rv32 0x002300e7 0x1000 [(6, 0x2000)] [] []) = some (.instructionAddressMisaligned 0x2002#64) := by
  decide
theorem test_jal_1 :
    pcAfter 0#5 (vec rv64 0xffdff06f 0x1000 [] [] []) = some (0xffc, 0x0) := by
  decide
theorem test_jal_2 :
    faultOf (vec rv32 0x002000ef 0x1000 [] [] []) = some (.instructionAddressMisaligned 0x1002#64) := by
  decide
theorem test_ld_1 :
    xAfter 5#5 (vec rv64 0xff833283 0x1000 [(6, 0x2008)] [] loadData) = some (0x8123456789abcdef, 0) := by
  decide
theorem test_ld_2 :
    faultOf (vec rv64 0x00433283 0x1000 [(6, 0x2000)] [] loadData) = some (.loadAddressMisaligned 0x2004#64) := by
  decide
theorem test_lwu_1 :
    xAfter 5#5 (vec rv64 0x00036283 0x1000 [(6, 0x2000)] [] loadData) = some (0x89abcdef, 0) := by
  decide
theorem test_lwu_2 :
    faultOf (vec rv64 0x00236283 0x1000 [(6, 0x2000)] [] loadData) = some (.loadAddressMisaligned 0x2002#64) := by
  decide
theorem test_addiw_1 :
    xAfter 5#5 (vec rv64 0x0003029b 0x1000 [(6, 0xffffffff)] [] []) = some (0xffffffffffffffff, 0) := by
  decide
theorem test_addiw_2 :
    xAfter 5#5 (vec rv64 0xfff3029b 0x1000 [(6, 0x0)] [] []) = some (0xffffffffffffffff, 0) := by
  decide
theorem test_slliw_1 :
    xAfter 5#5 (vec rv64 0x0003129b 0x1000 [(6, 0xffffffff80000000)] [] []) = some (0xffffffff80000000, 0) := by
  decide
theorem test_slliw_2 :
    xAfter 5#5 (vec rv64 0x01f3129b 0x1000 [(6, 0x1)] [] []) = some (0xffffffff80000000, 0) := by
  decide
theorem test_srliw_1 :
    xAfter 5#5 (vec rv64 0x0003529b 0x1000 [(6, 0x80000000)] [] []) = some (0xffffffff80000000, 0) := by
  decide
theorem test_srliw_2 :
    xAfter 5#5 (vec rv64 0x0043529b 0x1000 [(6, 0xffffffff80000000)] [] []) = some (0x8000000, 0) := by
  decide
theorem test_sraiw_1 :
    xAfter 5#5 (vec rv64 0x41f3529b 0x1000 [(6, 0x80000000)] [] []) = some (0xffffffffffffffff, 0) := by
  decide
theorem test_sraiw_2 :
    xAfter 5#5 (vec rv64 0x4043529b 0x1000 [(6, 0x80000000)] [] []) = some (0xfffffffff8000000, 0) := by
  decide
theorem test_sd_1 :
    memAfter (vec rv64 0x00733023 0x1000 [(6, 0x2000), (7, 0x102030405060708)] [] storeData) = some (0x102030405060708, 0x0) := by
  decide
theorem test_sd_2 :
    faultOf (vec rv64 0x00733223 0x1000 [(6, 0x2000), (7, 0x1)] [] storeData) = some (.storeAddressMisaligned 0x2004#64) := by
  decide
theorem test_addw_1 :
    xAfter 5#5 (vec rv64 0x007302bb 0x1000 [(6, 0x7fffffff), (7, 0x1)] [] []) = some (0xffffffff80000000, 0) := by
  decide
theorem test_addw_2 :
    xAfter 5#5 (vec rv64 0x007302bb 0x1000 [(6, 0x100000000), (7, 0x200000005)] [] []) = some (0x5, 0) := by
  decide
theorem test_subw_1 :
    xAfter 5#5 (vec rv64 0x407302bb 0x1000 [(6, 0x0), (7, 0x1)] [] []) = some (0xffffffffffffffff, 0) := by
  decide
theorem test_subw_2 :
    xAfter 5#5 (vec rv64 0x407302bb 0x1000 [(6, 0x80000000), (7, 0x1)] [] []) = some (0x7fffffff, 0) := by
  decide
theorem test_sllw_1 :
    xAfter 5#5 (vec rv64 0x007312bb 0x1000 [(6, 0x1), (7, 0x3f)] [] []) = some (0xffffffff80000000, 0) := by
  decide
theorem test_sllw_2 :
    xAfter 5#5 (vec rv64 0x007312bb 0x1000 [(6, 0x1), (7, 0x1f)] [] []) = some (0xffffffff80000000, 0) := by
  decide
theorem test_srlw_1 :
    xAfter 5#5 (vec rv64 0x007352bb 0x1000 [(6, 0xffffffff80000000), (7, 0x20)] [] []) = some (0xffffffff80000000, 0) := by
  decide
theorem test_srlw_2 :
    xAfter 5#5 (vec rv64 0x007352bb 0x1000 [(6, 0x80000000), (7, 0x1f)] [] []) = some (0x1, 0) := by
  decide
theorem test_sraw_1 :
    xAfter 5#5 (vec rv64 0x407352bb 0x1000 [(6, 0x80000000), (7, 0x1f)] [] []) = some (0xffffffffffffffff, 0) := by
  decide
theorem test_sraw_2 :
    xAfter 5#5 (vec rv64 0x407352bb 0x1000 [(6, 0x7fffffff80000000), (7, 0x4)] [] []) = some (0xfffffffff8000000, 0) := by
  decide
theorem test_fmaddS_1 :
    fAfter 4#5 (vec rv64 0x18208243 0x1000 [] [(1, 0xffffffff40000000), (2, 0xffffffff40400000), (3, 0xffffffff3f800000)] []) = some (0xffffffff40e00000, 0) := by
  decide
theorem test_fmaddS_2 :
    fAfter 4#5 (vec rv64f 0x18208243 0x1000 [] [(1, 0x40000000), (2, 0x40400000), (3, 0x3f800000)] []) = some (0x40e00000, 0) := by
  decide
theorem test_fmaddD_1 :
    fAfter 4#5 (vec rv64 0x1a208243 0x1000 [] [(1, 0x4000000000000000), (2, 0x4008000000000000), (3, 0x3ff0000000000000)] []) = some (0x401c000000000000, 0) := by
  decide
theorem test_fmsubS_1 :
    fAfter 4#5 (vec rv64 0x18208247 0x1000 [] [(1, 0xffffffff40000000), (2, 0xffffffff40400000), (3, 0xffffffff3f800000)] []) = some (0xffffffff40a00000, 0) := by
  decide
theorem test_fmsubS_2 :
    fAfter 4#5 (vec rv64f 0x18208247 0x1000 [] [(1, 0x40000000), (2, 0x40400000), (3, 0x3f800000)] []) = some (0x40a00000, 0) := by
  decide
theorem test_fmsubD_1 :
    fAfter 4#5 (vec rv64 0x1a208247 0x1000 [] [(1, 0x4000000000000000), (2, 0x4008000000000000), (3, 0x3ff0000000000000)] []) = some (0x4014000000000000, 0) := by
  decide
theorem test_fnmsubS_1 :
    fAfter 4#5 (vec rv64 0x1820824b 0x1000 [] [(1, 0xffffffff40000000), (2, 0xffffffff40400000), (3, 0xffffffff3f800000)] []) = some (0xffffffffc0a00000, 0) := by
  decide
theorem test_fnmsubS_2 :
    fAfter 4#5 (vec rv64f 0x1820824b 0x1000 [] [(1, 0x40000000), (2, 0x40400000), (3, 0x3f800000)] []) = some (0xc0a00000, 0) := by
  decide
theorem test_fnmsubD_1 :
    fAfter 4#5 (vec rv64 0x1a20824b 0x1000 [] [(1, 0x4000000000000000), (2, 0x4008000000000000), (3, 0x3ff0000000000000)] []) = some (0xc014000000000000, 0) := by
  decide
theorem test_fnmaddS_1 :
    fAfter 4#5 (vec rv64 0x1820824f 0x1000 [] [(1, 0xffffffff40000000), (2, 0xffffffff40400000), (3, 0xffffffff3f800000)] []) = some (0xffffffffc0e00000, 0) := by
  decide
theorem test_fnmaddS_2 :
    fAfter 4#5 (vec rv64f 0x1820824f 0x1000 [] [(1, 0x40000000), (2, 0x40400000), (3, 0x3f800000)] []) = some (0xc0e00000, 0) := by
  decide
theorem test_fnmaddD_1 :
    fAfter 4#5 (vec rv64 0x1a20824f 0x1000 [] [(1, 0x4000000000000000), (2, 0x4008000000000000), (3, 0x3ff0000000000000)] []) = some (0xc01c000000000000, 0) := by
  decide
theorem test_faddS_1 :
    fAfter 3#5 (vec rv64 0x0020c1d3 0x1000 [] [(1, 0xffffffff3f800000), (2, 0xffffffff33800000)] []) = some (0xffffffff3f800001, 1) := by
  decide
theorem test_faddS_2 :
    fAfter 3#5 (vec rv64 0x0020b1d3 0x1000 [] [(1, 0xffffffff3f800000), (2, 0xffffffff33800000)] []) = some (0xffffffff3f800001, 1) := by
  decide
theorem test_faddD_1 :
    fAfter 3#5 (vec rv64 0x022081d3 0x1000 [] [(1, 0x3ff0000000000000), (2, 0x4000000000000000)] []) = some (0x4008000000000000, 0) := by
  decide
theorem test_fsubS_1 :
    fAfter 3#5 (vec rv64 0x0820c1d3 0x1000 [] [(1, 0xffffffff3f800000), (2, 0xffffffff40000000)] []) = some (0xffffffffbf800000, 0) := by
  decide
theorem test_fsubS_2 :
    fAfter 3#5 (vec rv64 0x082081d3 0x1000 [] [(1, 0xffffffff3f800000), (2, 0xffffffff40000000)] []) = some (0xffffffffbf800000, 0) := by
  decide
theorem test_fsubD_1 :
    fAfter 3#5 (vec rv64 0x0a2081d3 0x1000 [] [(1, 0x3ff0000000000000), (2, 0x4000000000000000)] []) = some (0xbff0000000000000, 0) := by
  decide
theorem test_fmulS_1 :
    fAfter 3#5 (vec rv64 0x1020c1d3 0x1000 [] [(1, 0xffffffff40000000), (2, 0xffffffff40400000)] []) = some (0xffffffff40c00000, 0) := by
  decide
theorem test_fmulS_2 :
    fAfter 3#5 (vec rv64 0x102081d3 0x1000 [] [(1, 0xffffffff40000000), (2, 0xffffffff40400000)] []) = some (0xffffffff40c00000, 0) := by
  decide
theorem test_fmulD_1 :
    fAfter 3#5 (vec rv64 0x122081d3 0x1000 [] [(1, 0x4000000000000000), (2, 0x4008000000000000)] []) = some (0x4018000000000000, 0) := by
  decide
theorem test_fdivS_1 :
    fAfter 3#5 (vec rv64 0x182081d3 0x1000 [] [(1, 0xffffffff3f800000), (2, 0xffffffff40400000)] []) = some (0xffffffff3eaaaaab, 1) := by
  decide
theorem test_fdivS_2 :
    fAfter 3#5 (vec rv64 0x182091d3 0x1000 [] [(1, 0xffffffff3f800000), (2, 0xffffffff40400000)] []) = some (0xffffffff3eaaaaaa, 1) := by
  decide
theorem test_fdivD_1 :
    fAfter 3#5 (vec rv64 0x1a2081d3 0x1000 [] [(1, 0x3ff0000000000000), (2, 0x4008000000000000)] []) = some (0x3fd5555555555555, 1) := by
  decide
theorem test_fdivD_2 :
    fAfter 3#5 (vec rv64 0x1a2081d3 0x1000 [] [(1, 0xbff0000000000000), (2, 0x0)] []) = some (0xfff0000000000000, 8) := by
  decide
theorem test_fsqrtS_1 :
    fAfter 3#5 (vec rv64 0x580081d3 0x1000 [] [(1, 0xffffffff40000000), (2, 0xffffffff00000000)] []) = some (0xffffffff3fb504f3, 1) := by
  decide +kernel
theorem test_fsqrtS_2 :
    fAfter 3#5 (vec rv64 0x580091d3 0x1000 [] [(1, 0xffffffffbf800000), (2, 0xffffffff00000000)] []) = some (0xffffffff7fc00000, 16) := by
  decide
theorem test_fsqrtD_1 :
    fAfter 3#5 (vec rv64 0x5a0081d3 0x1000 [] [(1, 0x4010000000000000)] []) = some (0x4000000000000000, 0) := by
  decide +kernel
theorem test_fsgnjS_1 :
    fAfter 3#5 (vec rv64 0x202081d3 0x1000 [] [(1, 0xffffffff3fc00000), (2, 0xffffffffc0000000)] []) = some (0xffffffffbfc00000, 0) := by
  decide
theorem test_fsgnjS_2 :
    fAfter 3#5 (vec rv64f 0x202081d3 0x1000 [] [(1, 0x3fc00000), (2, 0xc0000000)] []) = some (0xbfc00000, 0) := by
  decide
theorem test_fsgnjD_1 :
    fAfter 3#5 (vec rv64 0x222081d3 0x1000 [] [(1, 0x3ff8000000000000), (2, 0xc000000000000000)] []) = some (0xbff8000000000000, 0) := by
  decide
theorem test_fsgnjnS_1 :
    fAfter 3#5 (vec rv64 0x202091d3 0x1000 [] [(1, 0xffffffff3fc00000), (2, 0xffffffffc0000000)] []) = some (0xffffffff3fc00000, 0) := by
  decide
theorem test_fsgnjnS_2 :
    fAfter 3#5 (vec rv64f 0x202091d3 0x1000 [] [(1, 0x3fc00000), (2, 0xc0000000)] []) = some (0x3fc00000, 0) := by
  decide
theorem test_fsgnjnD_1 :
    fAfter 3#5 (vec rv64 0x222091d3 0x1000 [] [(1, 0x3ff8000000000000), (2, 0xc000000000000000)] []) = some (0x3ff8000000000000, 0) := by
  decide
theorem test_fsgnjxS_1 :
    fAfter 3#5 (vec rv64 0x2020a1d3 0x1000 [] [(1, 0xffffffff3fc00000), (2, 0xffffffffc0000000)] []) = some (0xffffffffbfc00000, 0) := by
  decide
theorem test_fsgnjxS_2 :
    fAfter 3#5 (vec rv64 0x2020a1d3 0x1000 [] [(1, 0xffffffffbfc00000), (2, 0xffffffffc0000000)] []) = some (0xffffffff3fc00000, 0) := by
  decide
theorem test_fsgnjxD_1 :
    fAfter 3#5 (vec rv64 0x2220a1d3 0x1000 [] [(1, 0xbff8000000000000), (2, 0xc000000000000000)] []) = some (0x3ff8000000000000, 0) := by
  decide
theorem test_fminS_1 :
    fAfter 3#5 (vec rv64 0x282081d3 0x1000 [] [(1, 0xffffffff7fc00000), (2, 0xffffffff3f800000)] []) = some (0xffffffff3f800000, 0) := by
  decide
theorem test_fminS_2 :
    fAfter 3#5 (vec rv64 0x282081d3 0x1000 [] [(1, 0xffffffff3f800000), (2, 0xffffffffc0000000)] []) = some (0xffffffffc0000000, 0) := by
  decide
theorem test_fminD_1 :
    fAfter 3#5 (vec rv64 0x2a2081d3 0x1000 [] [(1, 0x3ff0000000000000), (2, 0xc000000000000000)] []) = some (0xc000000000000000, 0) := by
  decide
theorem test_fmaxS_1 :
    fAfter 3#5 (vec rv64 0x282091d3 0x1000 [] [(1, 0xffffffff3f800000), (2, 0xffffffffc0000000)] []) = some (0xffffffff3f800000, 0) := by
  decide
theorem test_fmaxS_2 :
    fAfter 3#5 (vec rv64f 0x282091d3 0x1000 [] [(1, 0x3f800000), (2, 0xc0000000)] []) = some (0x3f800000, 0) := by
  decide
theorem test_fmaxD_1 :
    fAfter 3#5 (vec rv64 0x2a2091d3 0x1000 [] [(1, 0x0), (2, 0x8000000000000000)] []) = some (0x0, 0) := by
  decide
theorem test_feqS_1 :
    xAfter 5#5 (vec rv64 0xa020a2d3 0x1000 [] [(1, 0xffffffff00000000), (2, 0xffffffff80000000)] []) = some (0x1, 0) := by
  decide
theorem test_feqS_2 :
    xAfter 5#5 (vec rv64f 0xa020a2d3 0x1000 [] [(1, 0x3f800000), (2, 0x3f800000)] []) = some (0x1, 0) := by
  decide
theorem test_feqD_1 :
    xAfter 5#5 (vec rv64 0xa220a2d3 0x1000 [] [(1, 0x0), (2, 0x8000000000000000)] []) = some (0x1, 0) := by
  decide
theorem test_fltS_1 :
    xAfter 5#5 (vec rv64 0xa02092d3 0x1000 [] [(1, 0xffffffff7fc00000), (2, 0xffffffff3f800000)] []) = some (0x0, 16) := by
  decide
theorem test_fltS_2 :
    xAfter 5#5 (vec rv64f 0xa02092d3 0x1000 [] [(1, 0x7fc00000), (2, 0x3f800000)] []) = some (0x0, 16) := by
  decide
theorem test_fltD_1 :
    xAfter 5#5 (vec rv64 0xa22092d3 0x1000 [] [(1, 0xc008000000000000), (2, 0x4008000000000000)] []) = some (0x1, 0) := by
  decide
theorem test_fleS_1 :
    xAfter 5#5 (vec rv64 0xa02082d3 0x1000 [] [(1, 0xffffffff3f800000), (2, 0xffffffff3f800000)] []) = some (0x1, 0) := by
  decide
theorem test_fleS_2 :
    xAfter 5#5 (vec rv64f 0xa02082d3 0x1000 [] [(1, 0x3f800000), (2, 0x3f800000)] []) = some (0x1, 0) := by
  decide
theorem test_fleD_1 :
    xAfter 5#5 (vec rv64 0xa22082d3 0x1000 [] [(1, 0x4000000000000000), (2, 0x3ff0000000000000)] []) = some (0x0, 0) := by
  decide
theorem test_fclassS_1 :
    xAfter 5#5 (vec rv64 0xe00092d3 0x1000 [] [(1, 0xffffffff7fc00000)] []) = some (0x200, 0) := by
  decide
theorem test_fclassS_2 :
    xAfter 5#5 (vec rv64f 0xe00092d3 0x1000 [] [(1, 0xff800000)] []) = some (0x1, 0) := by
  decide
theorem test_fclassD_1 :
    xAfter 5#5 (vec rv64 0xe20092d3 0x1000 [] [(1, 0x8000000000000000)] []) = some (0x8, 0) := by
  decide
theorem test_flw_1 :
    fAfter 1#5 (vec rv64 0x00832087 0x1000 [(6, 0x2000)] [] [(0x2008, 0x0), (0x2009, 0x0), (0x200a, 0x40), (0x200b, 0x40)]) = some (0xffffffff40400000, 0) := by
  decide
theorem test_flw_2 :
    faultOf (vec rv32f 0x00232087 0x1000 [(6, 0x2000)] [] []) = some (.loadAddressMisaligned 0x2002#64) := by
  decide
theorem test_fsw_1 :
    memAfter (vec rv64 0x00352027 0x1000 [(10, 0x2000)] [(3, 0xffffffff40400000)] []) = some (0x40400000, 0x0) := by
  decide
theorem test_fsw_2 :
    memAfter (vec rv32f 0x00132427 0x1000 [(6, 0x2000)] [(1, 0x40400000)] []) = some (0x0, 0x40400000) := by
  decide
theorem test_fcvtWS_1 :
    xAfter 5#5 (vec rv64 0xc000c2d3 0x1000 [] [(1, 0xffffffffc0200000)] []) = some (0xfffffffffffffffd, 1) := by
  decide
theorem test_fcvtWS_2 :
    xAfter 5#5 (vec rv64f 0xc00082d3 0x1000 [] [(1, 0xc0200000)] []) = some (0xfffffffffffffffe, 1) := by
  decide
theorem test_fcvtWuS_1 :
    xAfter 5#5 (vec rv64 0xc01092d3 0x1000 [] [(1, 0xffffffff501502f9)] []) = some (0xffffffffffffffff, 16) := by
  decide
theorem test_fcvtWuS_2 :
    xAfter 5#5 (vec rv64f 0xc01092d3 0x1000 [] [(1, 0x501502f9)] []) = some (0xffffffffffffffff, 16) := by
  decide
theorem test_fcvtSW_1 :
    fAfter 1#5 (vec rv64 0xd002b0d3 0x1000 [(5, 0x1000001)] [] []) = some (0xffffffff4b800001, 1) := by
  decide
theorem test_fcvtSW_2 :
    fAfter 1#5 (vec rv32 0xd00280d3 0x1000 [(5, 0x1000001)] [] []) = some (0xffffffff4b800000, 1) := by
  decide
theorem test_fcvtSWu_1 :
    fAfter 1#5 (vec rv64 0xd01290d3 0x1000 [(5, 0xffffffff)] [] []) = some (0xffffffff4f7fffff, 1) := by
  decide
theorem test_fcvtSWu_2 :
    fAfter 1#5 (vec rv32 0xd01280d3 0x1000 [(5, 0xffffffff)] [] []) = some (0xffffffff4f800000, 1) := by
  decide
theorem test_fmvXW_1 :
    xAfter 5#5 (vec rv64 0xe00082d3 0x1000 [] [(1, 0xffffffffc0400000)] []) = some (0xffffffffc0400000, 0) := by
  decide
theorem test_fmvXW_2 :
    xAfter 5#5 (vec rv64f 0xe00082d3 0x1000 [] [(1, 0xc0400000)] []) = some (0xffffffffc0400000, 0) := by
  decide
theorem test_fmvWX_1 :
    fAfter 1#5 (vec rv64 0xf00280d3 0x1000 [(5, 0x3f800000)] [] []) = some (0xffffffff3f800000, 0) := by
  decide
theorem test_fmvWX_2 :
    fAfter 1#5 (vec rv32 0xf00000d3 0x1000 [] [] []) = some (0xffffffff00000000, 0) := by
  decide
theorem test_fld_1 :
    fAfter 1#5 (vec rv64 0x00833087 0x1000 [(6, 0x2000)] [] [(0x2008, 0x0), (0x2009, 0x0), (0x200a, 0x0), (0x200b, 0x0), (0x200c, 0x0), (0x200d, 0x0), (0x200e, 0x8), (0x200f, 0x40)]) = some (0x4008000000000000, 0) := by
  decide
theorem test_fld_2 :
    faultOf (vec rv32 0x00433087 0x1000 [(6, 0x2000)] [] []) = some (.loadAddressMisaligned 0x2004#64) := by
  decide
theorem test_fsd_1 :
    memAfter (vec rv64 0x00133427 0x1000 [(6, 0x2000)] [(1, 0x4008000000000000)] []) = some (0x0, 0x4008000000000000) := by
  decide
theorem test_fsd_2 :
    memAfter (vec rv32 0x00133427 0x1000 [(6, 0x2000)] [(1, 0x4008000000000000)] []) = some (0x0, 0x4008000000000000) := by
  decide
theorem test_fcvtWD_1 :
    xAfter 5#5 (vec rv64 0xc20092d3 0x1000 [] [(1, 0xc008000000000000)] []) = some (0xfffffffffffffffd, 0) := by
  decide
theorem test_fcvtWD_2 :
    xAfter 5#5 (vec rv32 0xc20092d3 0x1000 [] [(1, 0x41e0000000000000)] []) = some (0x7fffffff, 16) := by
  decide
theorem test_fcvtWuD_1 :
    xAfter 5#5 (vec rv64 0xc21092d3 0x1000 [] [(1, 0x41efffffffe00000)] []) = some (0xffffffffffffffff, 0) := by
  decide
theorem test_fcvtWuD_2 :
    xAfter 5#5 (vec rv32 0xc21092d3 0x1000 [] [(1, 0x41efffffffe00000)] []) = some (0xffffffff, 0) := by
  decide
theorem test_fcvtDW_1 :
    fAfter 1#5 (vec rv64 0xd20280d3 0x1000 [(5, 0x7fffffff)] [] []) = some (0x41dfffffffc00000, 0) := by
  decide
theorem test_fcvtDW_2 :
    fAfter 1#5 (vec rv32 0xd20280d3 0x1000 [(5, 0x7fffffff)] [] []) = some (0x41dfffffffc00000, 0) := by
  decide
theorem test_fcvtDWu_1 :
    fAfter 1#5 (vec rv64 0xd21280d3 0x1000 [(5, 0xffffffff)] [] []) = some (0x41efffffffe00000, 0) := by
  decide
theorem test_fcvtDWu_2 :
    fAfter 1#5 (vec rv32 0xd21280d3 0x1000 [(5, 0xffffffff)] [] []) = some (0x41efffffffe00000, 0) := by
  decide
theorem test_fcvtSD_1 :
    fAfter 2#5 (vec rv64 0x40109153 0x1000 [] [(1, 0x7e37e43c8800759c)] []) = some (0xffffffff7f7fffff, 5) := by
  decide
theorem test_fcvtSD_2 :
    fAfter 2#5 (vec rv32 0x40108153 0x1000 [] [(1, 0x3fb999999999999a)] []) = some (0xffffffff3dcccccd, 1) := by
  decide
theorem test_fcvtDS_1 :
    fAfter 2#5 (vec rv64 0x42008153 0x1000 [] [(1, 0x3f800000)] []) = some (0x7ff8000000000000, 0) := by
  decide
theorem test_fcvtDS_2 :
    fAfter 2#5 (vec rv32 0x42008153 0x1000 [] [(1, 0x3f800000)] []) = some (0x7ff8000000000000, 0) := by
  decide

/-! ## Witnesses: the hypotheses of each statement are met, each clause at a boundary of its range -/

/-- RV64 with F and D: `addi x0, x0, 0` at 0x1000; x5 = 5, x6 = 0x2000 (data), x7 = 0x2ff8 (the last eight bytes),
x8 = 0x1ff8 (the last eight bytes of text), x9 = 0x1004; f1 = 1.0 in double, f2 a boxed 2.0 in single. -/
def ws : State :=
  vec rv64 0x00000013 0x1000 [(5, 5), (6, 0x2000), (7, 0x2ff8), (8, 0x1ff8), (9, 0x1004)]
    [(1, 0x3ff0000000000000), (2, 0xffffffff40000000)] loadData

/-- The same on RV32, with F and D. -/
def ws32 : State := { vec rv32 0x00000013 0x1000 [(5, 5), (6, 0x2000), (7, 0x2ff8), (8, 0x1ff8), (9, 0x1004)] [] loadData with
  frm := 4#3 }

/-- RV32 with F and without D: `FLEN` = 32. f1 is 1.0 and f2 a signaling NaN. -/
def wsF : State :=
  vec { xlen := .rv32, fp := .f } 0x00000013 0x1000 [(5, 5), (6, 0x2000), (7, 0x2ff8), (8, 0x1ff8), (9, 0x1004)]
    [(1, 0x3f800000), (2, 0x7f800001)] loadData

/-- RV64 with text that a store may also reach through `WRITE`, misaligned accesses split, and the source's `fnmsub`. -/
def wsOpen : State :=
  { ws with
    launch := { ws.launch with
      memMap := { ws.launch.memMap with write := [{ base := 0, size := 2 ^ 64 }] }
      misaligned := .split
      fnm := .source } }

theorem witness_DecodeOfEncode : (Instr.srai 5#5 6#5 63#6).wellFormed rv64 = true := by decide

theorem witness_EncodeOfDecode : decode rv64 0x43f35293#32 = .ok (.srai 5#5 6#5 63#6) := by rfl

theorem witness_DecodedWordMatchesItsRow : decode rv32 0x41f35293#32 = .ok (.srai 5#5 6#5 31#6) := by rfl

theorem witness_NoTwoRowsOverlap : (Instr.add 1#5 2#5 3#5).wellFormed rv64 = true ∧
    (Instr.add 4#5 5#5 6#5).wellFormed rv64 = true ∧
    0x00628233#32 &&& (Instr.add 1#5 2#5 3#5).rowMask rv64 = (Instr.add 1#5 2#5 3#5).rowMatch ∧
    0x00628233#32 &&& (Instr.add 4#5 5#5 6#5).rowMask rv64 = (Instr.add 4#5 5#5 6#5).rowMatch := by decide

theorem witness_RejectedWordsEncodeNothing : decode rv64 0x00000000#32 = .error (.unlisted 0#32) := by rfl

theorem witness_StepRunsTheDecodedInstruction :
    ws.pcX ≠ ws.launch.endPc.setWidth ws.bits ∧
    (∀ k, k < 4 → inRegions ws.launch.memMap.exec (ws.pcX + BitVec.ofNat ws.bits k).toNat = true) ∧
    ws.mem.byte ws.pcX.toNat = 0x13#8 ∧ ws.mem.byte (ws.pcX + 1#ws.bits).toNat = 0#8 ∧
    ws.mem.byte (ws.pcX + 2#ws.bits).toNat = 0#8 ∧ ws.mem.byte (ws.pcX + 3#ws.bits).toNat = 0#8 ∧
    decode ws.launch.variant (0#8 ++ 0#8 ++ 0#8 ++ 0x13#8) = .ok (.addi 0#5 0#5 0#12) :=
  ⟨by decide, by decide, by decide, by decide, by decide, by decide, by rfl⟩

/-- At `END_PC`; at the first byte after the text; at the last word of the text. -/
theorem witness_FetchRule :
    (ws.setPc 0x3000#64).pcX = ws.launch.endPc.setWidth (ws.setPc 0x3000#64).bits ∧
    ((ws.setPc 0x2000#64).pcX ≠ ws.launch.endPc.setWidth (ws.setPc 0x2000#64).bits ∧
      inRegions ws.launch.memMap.exec ((ws.setPc 0x2000#64).pcX + BitVec.ofNat _ 0).toNat = false) ∧
    ((ws.setPc 0x1ffc#64).pcX ≠ ws.launch.endPc.setWidth (ws.setPc 0x1ffc#64).bits ∧
      ∀ k, k < 4 → inRegions ws.launch.memMap.exec ((ws.setPc 0x1ffc#64).pcX + BitVec.ofNat _ k).toNat = true) := by
  decide

theorem witness_UnlistedWordsAreRefused : (ws.setPc 0x1ffc#64).atEnd = false ∧ (ws.setPc 0x1ffc#64).fetch = .ok 0#32 ∧
    decode ws.launch.variant 0#32 = .error (.unlisted 0#32) := ⟨by decide, by rfl, by rfl⟩

theorem witness_LittleEndian : ws.mem.wf = true ∧ ws.fetch = .ok 0x00000013#32 := ⟨by decide, by rfl⟩

/-- `MemRead`'s three cases: one byte off alignment, the first byte after `READ`, the last eight bytes of `READ`. -/
theorem witness_MemReadRule :
    ((0x2001#64).toNat % 8 ≠ 0 ∧ ws.launch.misaligned = .fault) ∧
    ((0x3000#64).toNat % 8 = 0 ∧ inRegions ws.launch.memMap.read (0x3000#64 + BitVec.ofNat 64 0).toNat = false) ∧
    ((0x2ff8#64).toNat % 8 = 0 ∧
      ∀ k, k < 8 → inRegions ws.launch.memMap.read (0x2ff8#64 + BitVec.ofNat 64 k).toNat = true) := by decide

/-- `MemWrite`'s four cases, the last two where `WRITE` reaches over the text. -/
theorem witness_MemWriteRule : ws.mem.wf = true ∧
    ((0x2001#64).toNat % 2 ≠ 0 ∧ ws.launch.misaligned = .fault) ∧
    (inRegions ws.launch.memMap.write (0x2fff#64 + BitVec.ofNat 64 1).toNat = false) ∧
    ((∀ k, k < 2 → inRegions wsOpen.launch.memMap.write (0x0fff#64 + BitVec.ofNat 64 k).toNat = true) ∧
      inRegions wsOpen.launch.memMap.exec (0x0fff#64 + BitVec.ofNat 64 1).toNat = true) ∧
    (∀ k, k < 2 → inRegions wsOpen.launch.memMap.exec (0x0ffe#64 + BitVec.ofNat 64 k).toNat = false) := by decide

/-- The last one, two, four and eight readable bytes. -/
theorem witness_IntegerLoadsComplete :
    ws.Accessible ws.launch.memMap.read (ws.effAddr 7#5 7#12) 1 ∧
    ws.Accessible ws.launch.memMap.read (ws.effAddr 7#5 6#12) 2 ∧
    ws.Accessible ws.launch.memMap.read (ws.effAddr 7#5 4#12) 4 ∧
    ws.Accessible ws.launch.memMap.read (ws.effAddr 7#5 0#12) 8 ∧ ws.launch.variant.is64 = true ∧
    ws32.Accessible ws32.launch.memMap.read (ws32.effAddr 7#5 4#12) 4 :=
  ⟨⟨.inr (by decide), by decide⟩, ⟨.inr (by decide), by decide⟩, ⟨.inr (by decide), by decide⟩,
    ⟨.inr (by decide), by decide⟩, by decide, ⟨.inr (by decide), by decide⟩⟩

/-- Both widths of register: with D, and with F alone. -/
theorem witness_FloatLoadsComplete : ws32.launch.variant.hasF = true ∧ ws32.launch.variant.hasD = true ∧
    ws32.Accessible ws32.launch.memMap.read (ws32.effAddr 6#5 0#12) 4 ∧
    ws32.Accessible ws32.launch.memMap.read (ws32.effAddr 7#5 0#12) 8 ∧
    wsF.launch.variant.hasF = true ∧ wsF.launch.variant.hasD = false ∧
    wsF.Accessible wsF.launch.memMap.read (wsF.effAddr 7#5 4#12) 4 :=
  ⟨by decide, by decide, ⟨.inr (by decide), by decide⟩, ⟨.inr (by decide), by decide⟩, by decide, by decide,
    ⟨.inr (by decide), by decide⟩⟩

/-- A halfword at an odd address; an aligned one just past `READ`; a split one whose last byte is just past `READ`. -/
theorem witness_LoadsFault : (Instr.lh 5#5 7#5 7#12).isLoad = true ∧
    (Instr.lh 5#5 7#5 7#12).memOperand = some (2, 7#5, 7#12) ∧ (Instr.lh 5#5 7#5 7#12).wellFormed ws.launch.variant = true ∧
    (ws.launch.misaligned = .fault ∧ (ws.effAddr 7#5 7#12).toNat % 2 ≠ 0) ∧
    ((ws.effAddr 7#5 8#12).toNat % 2 = 0 ∧
      inRegions ws.launch.memMap.read (ws.effAddr 7#5 8#12 + BitVec.ofNat ws.bits 0).toNat = false) ∧
    (wsOpen.launch.misaligned = .split ∧
      inRegions wsOpen.launch.memMap.read (wsOpen.effAddr 7#5 7#12 + BitVec.ofNat wsOpen.bits 1).toNat = false) := by decide

theorem witness_StoresComplete : ws.mem.wf = true ∧ ws.launch.variant.is64 = true ∧ ws.launch.variant.hasF = true ∧
    ws.launch.variant.hasD = true ∧
    (ws.Accessible ws.launch.memMap.write (ws.effAddr 7#5 7#12) 1 ∧
      ∀ a ∈ ws.accessAddrs (ws.effAddr 7#5 7#12) 1, inRegions ws.launch.memMap.exec a = false) ∧
    (ws.Accessible ws.launch.memMap.write (ws.effAddr 7#5 6#12) 2 ∧
      ∀ a ∈ ws.accessAddrs (ws.effAddr 7#5 6#12) 2, inRegions ws.launch.memMap.exec a = false) ∧
    (ws.Accessible ws.launch.memMap.write (ws.effAddr 7#5 4#12) 4 ∧
      ∀ a ∈ ws.accessAddrs (ws.effAddr 7#5 4#12) 4, inRegions ws.launch.memMap.exec a = false) ∧
    (ws.Accessible ws.launch.memMap.write (ws.effAddr 7#5 0#12) 8 ∧
      ∀ a ∈ ws.accessAddrs (ws.effAddr 7#5 0#12) 8, inRegions ws.launch.memMap.exec a = false) :=
  ⟨by decide, by decide, by decide, by decide, ⟨⟨.inr (by decide), by decide⟩, by decide⟩,
    ⟨⟨.inr (by decide), by decide⟩, by decide⟩, ⟨⟨.inr (by decide), by decide⟩, by decide⟩,
    ⟨⟨.inr (by decide), by decide⟩, by decide⟩⟩

/-- A word off alignment; a word just past `WRITE`; a split word whose first byte is the last of the text. -/
theorem witness_StoresStop : (Instr.sw 5#5 7#5 1#12).isStore = true ∧
    (Instr.sw 5#5 7#5 1#12).memOperand = some (4, 7#5, 1#12) ∧ (Instr.sw 5#5 7#5 1#12).wellFormed ws.launch.variant = true ∧
    (ws.launch.misaligned = .fault ∧ (ws.effAddr 7#5 1#12).toNat % 4 ≠ 0) ∧
    ((ws.effAddr 7#5 8#12).toNat % 4 = 0 ∧
      inRegions ws.launch.memMap.write (ws.effAddr 7#5 8#12 + BitVec.ofNat ws.bits 0).toNat = false) ∧
    (wsOpen.Accessible wsOpen.launch.memMap.write (wsOpen.effAddr 8#5 7#12) 4 ∧
      inRegions wsOpen.launch.memMap.exec (wsOpen.effAddr 8#5 7#12 + BitVec.ofNat wsOpen.bits 0).toNat = true) :=
  ⟨by decide, by decide, by decide, by decide, by decide, ⟨.inl (by decide), by decide⟩, by decide⟩

/-- What follows a step that answers a next state; the state itself otherwise. -/
def after (i : Instr) (s : State) : State :=
  match exec i s with
  | .next t => t
  | _ => s

theorem witness_LoadReturnsTheStoredWord : ws.mem.wf = true ∧
    exec (.sw 5#5 6#5 4#12) ws = .next (after (.sw 5#5 6#5 4#12) ws) ∧
    exec (.lw 3#5 6#5 4#12) (after (.sw 5#5 6#5 4#12) ws) =
      .next (after (.lw 3#5 6#5 4#12) (after (.sw 5#5 6#5 4#12) ws)) := ⟨by decide, by rfl, by rfl⟩

theorem witness_FloatLoadReturnsTheStoredDouble : ws.mem.wf = true ∧
    exec (.fsd 1#5 7#5 0#12) ws = .next (after (.fsd 1#5 7#5 0#12) ws) ∧
    exec (.fld 3#5 7#5 0#12) (after (.fsd 1#5 7#5 0#12) ws) =
      .next (after (.fld 3#5 7#5 0#12) (after (.fsd 1#5 7#5 0#12) ws)) := ⟨by decide, by rfl, by rfl⟩

theorem witness_ImmediateShifts : (63#6).toNat < ws.bits ∧ (31#6).toNat < ws32.bits := by decide

theorem witness_WordImmediateArithmetic : ws.launch.variant.is64 = true := by decide

theorem witness_WordRegisterArithmetic : ws.launch.variant.is64 = true := by decide

/-- A branch to an aligned target, taken (x5 = x5) and with each order of the operands (x5 < x6), and one not taken. -/
theorem witness_BranchesComplete : ws.ux 5#5 = ws.ux 5#5 ∧ ws.ux 5#5 ≠ ws.ux 6#5 ∧ ws.sx 5#5 < ws.sx 6#5 ∧
    ws.sx 5#5 ≤ ws.sx 6#5 ∧ ws.ux 5#5 < ws.ux 6#5 ∧ ws.ux 5#5 ≤ ws.ux 6#5 ∧ ¬ ws.ux 6#5 ≤ ws.ux 5#5 ∧
    (ws.upc + (0x1000#13).toInt) % ws.modulus % 4 = 0 := by decide

theorem witness_JumpsComplete : (ws.upc + (0x100000#21).toInt) % ws.modulus % 4 = 0 ∧
    (ws.ux 9#5 + (0x001#12).toInt) % ws.modulus / 2 * 2 % 4 = 0 := by decide

/-- A taken branch, a `jal` and a `jalr` two bytes off, and a branch with the same offset that is not taken. -/
theorem witness_MisalignedTargetsFault :
    (Instr.beq 5#5 5#5 2#13).isTransfer = true ∧ ws.successor (.beq 5#5 5#5 2#13) % ws.modulus % 4 ≠ 0 ∧
    ws.branchCondition (.beq 5#5 5#5 2#13) = some (true, 2#13) ∧
    ws.branchCondition (.bne 5#5 5#5 2#13) = some (false, 2#13) ∧
    (Instr.jal 1#5 2#21).isTransfer = true ∧ ws.successor (.jal 1#5 2#21) % ws.modulus % 4 ≠ 0 ∧
    (Instr.jalr 1#5 9#5 3#12).isTransfer = true ∧ ws.successor (.jalr 1#5 9#5 3#12) % ws.modulus % 4 ≠ 0 := by decide

/-- A static mode, the dynamic mode at the greatest `frm`, both values of `FNM_CONVENTION`, both precisions. -/
theorem witness_FusedMultiplyAddComplete : ws.effectiveRm .rup = some .rup ∧ ws32.effectiveRm .dyn = some .rmm ∧
    ws.launch.variant.hasF = true ∧ ws.launch.variant.hasD = true ∧ ws.launch.fnm = .ratified ∧
    wsOpen.effectiveRm .rne = some .rne ∧ wsOpen.launch.fnm = .source ∧ wsOpen.launch.variant.hasD = true := by decide

theorem witness_FloatArithmeticComplete : ws32.effectiveRm .dyn = some .rmm ∧ ws32.launch.variant.hasF = true ∧
    ws32.launch.variant.hasD = true := by decide

theorem witness_SignInjection : ws.launch.variant.has .s = true ∧ ws.launch.variant.has .d = true := by decide

/-- A variant with both precisions; a NaN and a number, two NaNs, and the two zeros, which share their place. -/
theorem witness_MinMaxComplete : ws.launch.variant.hasF = true ∧ ws.launch.variant.hasD = true ∧
    FP.isNaN .s 0x7fc00000#32 = true ∧ FP.isNaN .s 0x7f800001#32 = true ∧ FP.isSNaN .s 0x7f800001#32 = true ∧
    FP.isNaN .s 0x00000000#32 = false ∧ FP.isNaN .s 0x80000000#32 = false ∧
    FP.place .s 0x00000000#32 = FP.place .s 0x80000000#32 := by decide +kernel

theorem witness_CompareAndClassifyComplete : ws.launch.variant.hasF = true ∧ ws.launch.variant.hasD = true := by decide

/-- A mode in effect in both precisions; a NaN, both infinities, and the greatest finite single. -/
theorem witness_FloatToIntegerComplete : ws.effectiveRm .rtz = some .rtz ∧ ws.launch.variant.hasF = true ∧
    ws.launch.variant.hasD = true ∧ FP.isNaN .s 0x7fc00000#32 = true ∧
    (FP.isInf .s 0x7f800000#32 = true ∧ FP.sign .s 0x7f800000#32 = false) ∧
    (FP.isInf .s 0xff800000#32 = true ∧ FP.sign .s 0xff800000#32 = true) ∧ FP.isFinite .s 0x7f7fffff#32 = true := by decide

theorem witness_IntegerToFloatComplete : ws.effectiveRm .rdn = some .rdn ∧ ws.launch.variant.hasF = true ∧
    ws.launch.variant.hasD = true := by decide

theorem witness_FloatToFloatComplete : ws.effectiveRm .rmm = some .rmm ∧ ws.launch.variant.hasD = true := by decide

/-- Both widths of register. -/
theorem witness_BitMovesComplete : ws.launch.variant.hasF = true ∧ ws.launch.variant.hasD = true ∧
    wsF.launch.variant.hasF = true ∧ wsF.launch.variant.hasD = false := by decide

/-- With D, f2 is boxed and f1 is not; with F alone, f1 is a single as it lies. -/
theorem witness_NanBoxing : ws.launch.variant.hasF = true ∧ ws.launch.variant.hasD = true ∧
    (ws.fpr 2#5).toNat / 2 ^ 32 = 2 ^ 32 - 1 ∧ (ws.fpr 1#5).toNat / 2 ^ 32 ≠ 2 ^ 32 - 1 ∧
    wsF.launch.variant.hasF = true ∧ wsF.launch.variant.hasD = false ∧ wsF.fgetS 1#5 = 0x3f800000#32 := by decide

theorem witness_ReservedDynamicRoundingIsRefused : (Instr.faddS 3#5 1#5 2#5 .dyn).rmField = some .dyn ∧
    4 < ({ ws with frm := 5#3 } : State).frm.toNat := by decide

theorem witness_UnavailableInstructionsAreRefused : (Instr.addw 1#5 2#5 3#5).wellFormed ws32.launch.variant = false ∧
    (Instr.addw 1#5 2#5 3#5).isTransfer = false ∧ (Instr.slli 1#5 2#5 32#6).wellFormed ws32.launch.variant = false := by
  decide

/-- The states of an invariant's premise: after reset, with an instruction loaded at the pc. -/
theorem witness_StepKeepsInvariant : Inv (State.reset.withFetchWord 32 0x00500293) ∧
    step (State.reset.withFetchWord 32 0x00500293) =
      .next (after (.addi 5#5 0#5 5#12) (State.reset.withFetchWord 32 0x00500293)) :=
  ⟨⟨by decide, by decide, by decide, by decide, by decide, by decide, by decide, by decide, by decide⟩, by rfl⟩

theorem witness_PcRule : exec (.jalr 1#5 9#5 0#12) ws = .next (after (.jalr 1#5 9#5 0#12) ws) := by rfl

theorem witness_OnlyTheDestinationRegisterChanges : exec (.add 3#5 5#5 6#5) ws = .next (after (.add 3#5 5#5 6#5) ws) ∧
    (Instr.add 3#5 5#5 6#5).destX ≠ some 5#5 ∧ (Instr.add 3#5 5#5 6#5).destF ≠ some 5#5 := ⟨by rfl, by decide, by decide⟩

theorem witness_OnlyStoresWriteMemory : exec (.lb 3#5 6#5 0#12) ws = .next (after (.lb 3#5 6#5 0#12) ws) ∧
    (Instr.lb 3#5 6#5 0#12).isStore = false := ⟨by rfl, by decide⟩

theorem witness_IntegerInstructionsLeaveFloatState : exec (.sd 5#5 6#5 0#12) ws = .next (after (.sd 5#5 6#5 0#12) ws) ∧
    (Instr.sd 5#5 6#5 0#12).isFloat = false := ⟨by rfl, by decide⟩

theorem witness_FrmIsFixedAndFlagsOnlyAccrue : step ws = .next (after (.addi 0#5 0#5 0#12) ws) := by rfl

theorem witness_ProgramTextNeverChanges : ws.mem.wf = true ∧ Reaches ws (after (.addi 0#5 0#5 0#12) ws) ∧
    inRegions ws.launch.memMap.exec 0x1000 = true ∧ inRegions ws.launch.memMap.exec 0x1fff = true ∧
    (Instr.sb 5#5 8#5 7#12).isStore = true ∧ (Instr.sb 5#5 8#5 7#12).memOperand = some (1, 8#5, 7#12) ∧
    (Instr.sb 5#5 8#5 7#12).wellFormed wsOpen.launch.variant = true ∧
    wsOpen.Accessible wsOpen.launch.memMap.write (wsOpen.effAddr 8#5 7#12) 1 ∧
    ∃ a ∈ wsOpen.accessAddrs (wsOpen.effAddr 8#5 7#12) 1, inRegions wsOpen.launch.memMap.exec a = true :=
  ⟨by decide, .tail (.refl ws) (by rfl), by decide, by decide, by decide, by decide, by decide, ⟨.inl (by decide), by decide⟩,
    by decide⟩

/-- One of each kind: a transfer, a misaligned load, a load past `READ`, a store past `WRITE`. -/
theorem witness_OnlyTheseExceptions :
    exec (.jal 1#5 2#21) ws = .fault (.instructionAddressMisaligned 0x1002#64) ∧
    exec (.lw 3#5 6#5 2#12) ws = .fault (.loadAddressMisaligned 0x2002#64) ∧
    exec (.lb 3#5 7#5 8#12) ws = .fault (.loadAccessFault 0x3000#64) ∧
    exec (.sb 3#5 7#5 8#12) ws = .fault (.storeAccessFault 0x3000#64) ∧
    exec (.sh 3#5 7#5 5#12) ws = .fault (.storeAddressMisaligned 0x2ffd#64) :=
  ⟨by rfl, by rfl, by rfl, by rfl, by rfl⟩

/-- A signaling and a quiet NaN, both infinities, and the least and the greatest finite singles. -/
theorem witness_ComparisonsOrderValues : FP.isNaN .s 0x7f800001#32 = true ∧ FP.isSNaN .s 0x7f800001#32 = true ∧
    FP.isNaN .s 0x7fc00000#32 = true ∧ FP.isSNaN .s 0x7fc00000#32 = false ∧ FP.isNaN .s 0x7f800000#32 = false ∧
    FP.isNaN .s 0xff800000#32 = false ∧ FP.isFinite .s 0x00000001#32 = true ∧ FP.isFinite .s 0x7f7fffff#32 = true := by decide

/-- The greatest finite single and zero, whose sum is as large as the premise allows. -/
theorem witness_SumsAreRoundedInTheirDirection : FP.isFinite .s 0x7f7fffff#32 = true ∧ FP.isFinite .s 0x00000000#32 = true ∧
    |FP.value .s 0x7f7fffff#32 + FP.value .s 0x00000000#32| ≤ FP.maxFinite .s := by decide +kernel

/-- Finite operands with a zero and a nonzero divisor, a root's operand, sums and products that are 0; a NaN, a signaling one,
both infinities, and zero times infinity. -/
theorem witness_ArithmeticValues :
    (FP.isFinite .s 0x3f800000#32 = true ∧ FP.isFinite .s 0x80000000#32 = true ∧ FP.isZero .s 0x80000000#32 = true ∧
      FP.isZero .s 0x3f800000#32 = false ∧ FP.sign .s 0x3f800000#32 = false) ∧
    FP.value .s 0x00000000#32 = 0 ∧
    (FP.isFinite .d 0x7fefffffffffffff#64 = true ∧ FP.isZero .d 0x0000000000000000#64 = true) ∧
    (FP.isNaN .s 0x7fc00000#32 = true ∧ FP.isSNaN .s 0x7fc00000#32 = false ∧ FP.isSNaN .s 0x7f800001#32 = true) ∧
    (FP.isInf .s 0x7f800000#32 = true ∧ FP.isNaN .s 0xff800000#32 = false ∧ FP.isInf .s 0xff800000#32 = true) ∧
    (FP.isInf .d 0x7ff0000000000000#64 = true ∧ FP.isNaN .d 0x7ff0000000000001#64 = true) ∧
    (FP.sign .s 0xbf800000#32 = true ∧ FP.isNaN .s 0xbf800000#32 = false ∧ FP.isZero .s 0xbf800000#32 = false) := by
  decide +kernel

theorem witness_ProductsAreRoundedToNearest : FP.isFinite .s 0x3f800001#32 = true ∧
    FP.isFinite .s 0x7f7fffff#32 = true ∧ (FP.mul .s .rne 0x3f800001#32 0x3f800001#32).2 &&& flagOF = 0#5 ∧
    (FP.mul .s .rmm 0x00000001#32 0x3f800001#32).2 &&& flagOF = 0#5 := by decide

/-! ## The machine as the host meets it -/

/-- An empty image: the first step after reset is refused, since the word 0 is unlisted (notes/assumptions/7.md). -/
theorem test_reset_refuses_empty_memory : step State.reset = .refused (.unlistedEncoding 0#32) := by rfl

theorem test_reset_memory_is_canonical : State.reset.mem.wf = true := by decide

theorem test_reset_launch_is_allowed : State.reset.launch.wf = true := by decide

theorem test_decodeTableWord_add : decodeTableWord 32 0x007302b3 = some (.add 5#5 6#5 7#5) := by decide

theorem test_decodeTableWord_short_row : decodeTableWord 7 0x33 = some (.add 0#5 0#5 0#5) := by decide

theorem test_step_ends_at_end_pc : faultOf (ws.setPc 0x3000#64) = some .runEnded := by decide

/-- Register 0 discards a write and reads as zero. -/
theorem test_register_zero : xAfter 0#5 (vec rv64 0x00500013 0x1000 [(0, 7)] [] []) = some (0, 0) := by decide

/-- A misaligned load is performed under `split` (20_memory.md R35). -/
theorem test_split_load : (match exec (.lw 3#5 6#5 2#12) wsOpen with
    | .next t => some (t.gpr 3#5).toNat
    | _ => none) = some 0x456789ab := by decide

/-- Under `FNM_CONVENTION = source`, 2 * 3 + 1 is negated by `fnmsub` (46_rvfd_compute.md R187). -/
theorem test_fnmsub_source : 
    (wsOpen.fnmsub .s .rne 0x40000000#32 0x40400000#32 0x3f800000#32).1.toNat = 0xc0e00000 := by decide

end Sys2Proof.Tests
end

/-! PROOFS. The family of 20_memory.md: addresses, byte order, `MemRead`, `MemWrite`, fetch, and the immutability of
program text. -/

namespace Sys2Proof.Machine

/-! ## Bytes of a value (20_memory.md R32) -/

/-- Byte `i` of a value, by division. -/
theorem extractLsb'_byte {w : Nat} (v : BitVec w) (i : Nat) :
    v.extractLsb' (8 * i) 8 = BitVec.ofNat 8 (v.toNat / 256 ^ i) := by
  apply BitVec.eq_of_toNat_eq
  rw [BitVec.extractLsb'_toNat, BitVec.toNat_ofNat, Nat.shiftRight_eq_div_pow, Nat.pow_mul]

/-- A byte appended below a value: one step of `leNat`. -/
theorem toNat_append_byte {w : Nat} (v : BitVec w) (b : Byte) : (v ++ b).toNat = b.toNat + 256 * v.toNat := by
  rw [BitVec.toNat_append, ← Nat.shiftLeft_add_eq_or_of_lt b.isLt, Nat.shiftLeft_eq]
  omega

/-- Byte `i` of the number whose bytes are given is the byte at place `i`. -/
theorem ofNat_leNat_div (bs : List Byte) (i : Nat) (h : i < bs.length) :
    BitVec.ofNat 8 (leNat bs / 256 ^ i) = bs[i] := by
  rw [← leBytes_getElem bs.length (leNat bs) i h]
  simp only [leBytes_leNat]

/-! ## The addresses of an access (20_memory.md R30) -/

theorem State.getElem?_accessAddrs (s : State) (addr : BitVec s.bits) {n k : Nat} (h : k < n) :
    (s.accessAddrs addr n)[k]? = some (addr + BitVec.ofNat s.bits k).toNat := by
  simp [State.accessAddrs, h]

theorem State.mem_accessAddrs {s : State} {addr : BitVec s.bits} {n a : Nat} :
    a ∈ s.accessAddrs addr n ↔ ∃ k, k < n ∧ (addr + BitVec.ofNat s.bits k).toNat = a := by
  simp only [State.accessAddrs, List.mem_map, List.mem_range]

/-- Some byte of the access lies inside a set of regions (or outside it), said of the addresses and of the places. -/
theorem State.exists_touched {s : State} {addr : BitVec s.bits} {n : Nat} {regions : List Region} {b : Bool} :
    (∃ a ∈ s.accessAddrs addr n, inRegions regions a = b) ↔
      ∃ k, k < n ∧ inRegions regions (addr + BitVec.ofNat s.bits k).toNat = b := by
  simp [State.accessAddrs]

/-- The same of every byte. -/
theorem State.forall_touched {s : State} {addr : BitVec s.bits} {n : Nat} {regions : List Region} {b : Bool} :
    (∀ a ∈ s.accessAddrs addr n, inRegions regions a = b) ↔
      ∀ k, k < n → inRegions regions (addr + BitVec.ofNat s.bits k).toNat = b := by
  simp [State.accessAddrs]

/-- A number and its register-wide value agree modulo `2^XLEN`. -/
theorem State.natCast_emod (s : State) (k : Nat) : (k : Int) % s.modulus = (BitVec.ofNat s.bits k).toNat := by
  rw [BitVec.toNat_ofNat]; unfold State.modulus; push_cast; rfl

theorem State.effAddr_emod (s : State) (rs1 : RegIdx) (imm : BitVec 12) :
    (s.ux rs1 + imm.toInt) % s.modulus = (s.effAddr rs1 imm).toNat :=
  s.add_emod (s.ux_emod rs1) (s.sext_emod imm s.twelve_le_bits)

/-- Settles O11: both sums are register-wide additions, read modulo `2^XLEN`. -/
theorem effectiveAddress : Obligations.EffectiveAddress := by
  intro s rs1 imm
  refine ⟨(s.effAddr_emod rs1 imm).symm, fun n k hk => ?_⟩
  rw [s.getElem?_accessAddrs _ hk]
  exact congrArg some (s.add_emod (s.effAddr_emod rs1 imm) (s.natCast_emod k)).symm

/-! ## Bytes read, bytes written (20_memory.md R32) -/

theorem State.loadBits_toNat (s : State) (addr : BitVec s.bits) (n : Nat) :
    (s.loadBits addr n).toNat = leNat ((s.accessAddrs addr n).map s.mem.byte) := by
  have h := leNat_lt ((s.accessAddrs addr n).map s.mem.byte)
  rw [List.length_map, s.accessAddrs_length, show 256 = 2 ^ 8 from rfl, ← Nat.pow_mul] at h
  rw [State.loadBits, BitVec.toNat_ofNat, Nat.mod_eq_of_lt h]

theorem State.extractLsb'_loadBits (s : State) (addr : BitVec s.bits) {n i : Nat} (h : i < n) :
    (s.loadBits addr n).extractLsb' (8 * i) 8 = s.mem.byte (addr + BitVec.ofNat s.bits i).toNat := by
  rw [extractLsb'_byte, s.loadBits_toNat, ofNat_leNat_div _ i (by simpa using h)]
  simp [State.accessAddrs]

/-- The four bytes of a word, the one at the lowest address last. -/
theorem State.loadBits_four (s : State) (addr : BitVec s.bits) :
    s.loadBits addr 4 = s.mem.byte (addr + 3#s.bits).toNat ++ s.mem.byte (addr + 2#s.bits).toNat ++
      s.mem.byte (addr + 1#s.bits).toNat ++ s.mem.byte addr.toNat := by
  apply BitVec.eq_of_toNat_eq
  have haddrs : s.accessAddrs addr 4 = [(addr + 0#s.bits).toNat, (addr + 1#s.bits).toNat, (addr + 2#s.bits).toNat,
      (addr + 3#s.bits).toNat] := rfl
  rw [s.loadBits_toNat, haddrs, BitVec.add_zero]
  simp only [toNat_append_byte, List.map_cons, List.map_nil, leNat, Nat.mul_zero, Nat.add_zero]

theorem State.byte_storeBits {s : State} (hm : s.mem.wf = true) (addr : BitVec s.bits) {n i : Nat} (hn : n ≤ 8)
    (v : BitVec (8 * n)) (hi : i < n) :
    (s.storeBits addr n v).byte (addr + BitVec.ofNat s.bits i).toNat = v.extractLsb' (8 * i) 8 := by
  rw [extractLsb'_byte]
  exact (State.storeBits_stored hm addr hn v).stored i hi

theorem State.byte_storeBits_of_notMem {s : State} (hm : s.mem.wf = true) {addr : BitVec s.bits} {n a : Nat}
    (v : BitVec (8 * n)) (ha : a ∉ s.accessAddrs addr n) : (s.storeBits addr n v).byte a = s.mem.byte a :=
  Memory.byte_setAll_of_notMem hm ha

/-! ## MemRead and MemWrite: which check stops an access (20_memory.md R33, R34) -/

theorem State.misaligned_eq_true {s : State} {addr : BitVec s.bits} {n : Nat} :
    s.misaligned addr n = true ↔ addr.toNat % n ≠ 0 ∧ s.launch.misaligned = .fault := by
  unfold State.misaligned; cases s.launch.misaligned <;> simp

/-- An access is accessible unless one of the first two checks of R33 and R34 stops it. -/
theorem State.accessible_iff {s : State} {regions : List Region} {addr : BitVec s.bits} {n : Nat} :
    s.Accessible regions addr n ↔
      s.misaligned addr n = false ∧ (s.accessAddrs addr n).all (inRegions regions) = true := by
  rw [State.misaligned_eq_false, List.all_eq_true]; rfl

theorem State.all_inRegions_eq_false {s : State} {regions : List Region} {addr : BitVec s.bits} {n : Nat} :
    (s.accessAddrs addr n).all (inRegions regions) = false ↔
      ∃ a ∈ s.accessAddrs addr n, inRegions regions a = false := by
  simp

/-- What the first two checks leave: the access is accessible. -/
theorem State.accessible_of_checks {s : State} {regions : List Region} {addr : BitVec s.bits} {n : Nat}
    (haligned : ¬ (addr.toNat % n ≠ 0 ∧ s.launch.misaligned = .fault))
    (hinside : ¬ ∃ a ∈ s.accessAddrs addr n, inRegions regions a = false) : s.Accessible regions addr n := by
  rw [← State.misaligned_eq_true, Bool.not_eq_true] at haligned
  rw [← State.all_inRegions_eq_false, Bool.not_eq_false] at hinside
  exact State.accessible_iff.2 ⟨haligned, hinside⟩

theorem State.memRead_misaligned {s : State} {addr : BitVec s.bits} {n : Nat} (h : s.misaligned addr n = true) :
    s.memRead addr n = .error (.loadAddressMisaligned (addr.setWidth 64)) := if_pos h

theorem State.memRead_outside {s : State} {addr : BitVec s.bits} {n : Nat} (haligned : s.misaligned addr n = false)
    (h : ∃ a ∈ s.accessAddrs addr n, inRegions s.launch.memMap.read a = false) :
    s.memRead addr n = .error (.loadAccessFault (addr.setWidth 64)) := by
  rw [State.memRead, haligned, State.all_inRegions_eq_false.2 h]; rfl

theorem State.memWrite_misaligned {s : State} {addr : BitVec s.bits} {n : Nat} (v : BitVec (8 * n))
    (h : s.misaligned addr n = true) : s.memWrite addr n v = .fault (.storeAddressMisaligned (addr.setWidth 64)) :=
  if_pos h

theorem State.memWrite_outside {s : State} {addr : BitVec s.bits} {n : Nat} (v : BitVec (8 * n))
    (haligned : s.misaligned addr n = false)
    (h : ∃ a ∈ s.accessAddrs addr n, inRegions s.launch.memMap.write a = false) :
    s.memWrite addr n v = .fault (.storeAccessFault (addr.setWidth 64)) := by
  rw [State.memWrite, haligned, State.all_inRegions_eq_false.2 h]; rfl

theorem State.memWrite_text {s : State} {addr : BitVec s.bits} {n : Nat} (v : BitVec (8 * n))
    (haccess : s.Accessible s.launch.memMap.write addr n)
    (h : ∃ a ∈ s.accessAddrs addr n, inRegions s.launch.memMap.exec a = true) :
    s.memWrite addr n v = .refused (.storeToProgramText (addr.setWidth 64)) := by
  obtain ⟨haligned, hinside⟩ := State.accessible_iff.1 haccess
  rw [State.memWrite, haligned, hinside, List.any_eq_true.2 h]; rfl

/-- A store that reaches program text is refused. -/
theorem State.store_text {s : State} {addr : BitVec s.bits} {n : Nat} (v : BitVec (8 * n))
    (haccess : s.Accessible s.launch.memMap.write addr n)
    (h : ∃ a ∈ s.accessAddrs addr n, inRegions s.launch.memMap.exec a = true) :
    s.store addr n v = .refused (.storeToProgramText (addr.setWidth 64)) := by
  rw [State.store, State.memWrite_text v haccess h]; rfl

theorem le_eight_of_size {n : Nat} (h : n = 1 ∨ n = 2 ∨ n = 4 ∨ n = 8) : n ≤ 8 := by omega

/-- Settles O13: one lemma about `memRead` for each of the three cases of R33, in their order. -/
theorem memReadRule : Obligations.MemReadRule := by
  intro s addr n _
  split_ifs with hmis hout
  · exact State.memRead_misaligned (State.misaligned_eq_true.2 hmis)
  · rw [← State.misaligned_eq_true, Bool.not_eq_true] at hmis
    exact State.memRead_outside hmis (State.exists_touched.2 hout)
  · rw [← State.exists_touched] at hout
    exact ⟨_, State.memRead_ok.2 ⟨State.accessible_of_checks hmis hout, rfl⟩, fun i => s.extractLsb'_loadBits addr⟩

/-- Settles O14: one lemma about `memWrite` for each of the four cases of R34, in their order. -/
theorem memWriteRule : Obligations.MemWriteRule := by
  intro s addr n v hn hm
  split_ifs with hmis hout htext
  · exact State.memWrite_misaligned v (State.misaligned_eq_true.2 hmis)
  · rw [← State.misaligned_eq_true, Bool.not_eq_true] at hmis
    exact State.memWrite_outside v hmis (State.exists_touched.2 hout)
  · rw [← State.exists_touched] at hout htext
    exact State.memWrite_text v (State.accessible_of_checks hmis hout) htext
  · rw [← State.exists_touched] at hout htext
    refine ⟨_, State.memWrite_next.2 ⟨State.accessible_of_checks hmis hout, by simpa using htext, rfl⟩,
      ⟨rfl, fun _ => rfl, fun _ => rfl, rfl, rfl, rfl⟩,
      fun i => State.byte_storeBits hm addr (le_eight_of_size hn) v, fun a ha => ?_⟩
    refine State.byte_storeBits_of_notMem hm v fun hmem => ?_
    obtain ⟨i, hi, rfl⟩ := State.mem_accessAddrs.1 hmem
    exact ha i hi rfl

/-! ## Fetch and the start of a step (20_memory.md R36, 70_reset_and_hazards.md R262) -/

theorem State.fetch_ok {s : State} {w : InstrWord} :
    s.fetch = .ok w ↔ (∀ a ∈ s.accessAddrs s.pcX 4, inRegions s.launch.memMap.exec a = true) ∧ w = s.loadBits s.pcX 4 := by
  rw [← List.all_eq_true, State.fetch]
  cases (s.accessAddrs s.pcX 4).all (inRegions s.launch.memMap.exec) <;> simp [eq_comm]

theorem State.fetch_outside {s : State} (h : ∃ a ∈ s.accessAddrs s.pcX 4, inRegions s.launch.memMap.exec a = false) :
    s.fetch = .error (.instructionAccessFault (s.pcX.setWidth 64)) := by
  rw [State.fetch, State.all_inRegions_eq_false.2 h]; rfl

theorem step_of_atEnd {s : State} (h : s.atEnd = true) : step s = .fault .runEnded := if_pos h

/-- Away from `END_PC`, what stops the fetch stops the step. -/
theorem step_of_fetch_error {s : State} {e : Fault} (hend : s.atEnd = false) (hfetch : s.fetch = .error e) :
    step s = .fault e := by
  rw [step, hend, hfetch]; rfl

theorem step_of_decode {s : State} {w : InstrWord} {i : Instr} (hend : s.atEnd = false) (hfetch : s.fetch = .ok w)
    (hdecode : decode s.launch.variant w = .ok i) : step s = exec i s := by
  simp only [step, hend, hfetch, hdecode, Bool.false_eq_true, if_false]

/-- Settles O12: the byte at each place of `loadBits` and of `storeBits`; a fetched word is the `loadBits` at the pc. -/
theorem littleEndian : Obligations.LittleEndian := by
  intro s addr n hn
  refine ⟨fun i => s.extractLsb'_loadBits addr, fun v hm i => State.byte_storeBits hm addr (le_eight_of_size hn) v,
    fun w hw i hi => ?_⟩
  obtain ⟨-, rfl⟩ := State.fetch_ok.1 hw
  exact s.extractLsb'_loadBits s.pcX hi

/-- Settles O8: at `END_PC`, with a byte outside `EXEC`, and with all four inside. -/
theorem fetchRule : Obligations.FetchRule := by
  intro s
  refine ⟨fun hpc t ht => ?_, fun hpc => ⟨fun hout => ?_, fun hin => ?_⟩⟩
  · rw [step_of_atEnd (decide_eq_true hpc)] at ht
    cases ht
  · exact step_of_fetch_error (decide_eq_false hpc) (State.fetch_outside (State.exists_touched.2 hout))
  · have hfetch := State.fetch_ok.2 ⟨State.forall_touched.2 hin, rfl⟩
    rw [s.loadBits_four] at hfetch
    exact ⟨hfetch, fun i => step_of_decode (decide_eq_false hpc) hfetch⟩

/-! ## What executing an instruction does to memory (20_memory.md R39)

Every meaning ends in one of a few shared operations. `KeepsMem` is proved once for each of them, and then read off for the
instructions that are no store; the six stores all come down to `State.store`. -/

/-- Whatever next state the result holds, it has the memory and the launch of `s`. -/
structure KeepsMem (s : State) (r : Result) : Prop where
  mem : ∀ {t}, r = .next t → t.mem = s.mem
  launch : ∀ {t}, r = .next t → t.launch = s.launch

theorem keepsMem_next {s t : State} (hmem : t.mem = s.mem) (hlaunch : t.launch = s.launch) : KeepsMem s (.next t) :=
  ⟨by rintro _ ⟨⟩; exact hmem, by rintro _ ⟨⟩; exact hlaunch⟩

/-- It is enough to ask every next state of the result. -/
theorem keepsMem_of_next {s : State} {r : Result} (h : ∀ t, r = .next t → KeepsMem s (.next t)) : KeepsMem s r :=
  ⟨fun ht => (h _ ht).mem rfl, fun ht => (h _ ht).launch rfl⟩

theorem keepsMem_retireX (s : State) (rd : RegIdx) (v : BitVec s.bits) : KeepsMem s (s.retireX rd v) :=
  keepsMem_next (by simp) (by simp)

theorem keepsMem_retireXF (s : State) (rd : RegIdx) (v : BitVec s.bits) (fl : FpFlags) :
    KeepsMem s (s.retireXF rd v fl) :=
  keepsMem_next (by simp) (by simp)

theorem keepsMem_retireF (s : State) (F : Prec) (fd : RegIdx) (r : BitVec F.width × FpFlags) :
    KeepsMem s (s.retireF F fd r) :=
  keepsMem_next rfl rfl

theorem keepsMem_fput (s : State) (F : Prec) (fd : RegIdx) (v : BitVec F.width) :
    KeepsMem s (.next (s.fput F fd v).advance) :=
  keepsMem_next rfl rfl

theorem keepsMem_listed {s : State} {i : Instr} {r : Result} (h : KeepsMem s r) : KeepsMem s (s.listed i r) :=
  keepsMem_of_next fun _ ht => (State.listed_next.1 ht).2 ▸ h

theorem keepsMem_load {s : State} {addr : BitVec s.bits} {n : Nat} {k : BitVec (8 * n) → Result}
    (h : ∀ d, KeepsMem s (k d)) : KeepsMem s (s.load addr n k) :=
  keepsMem_of_next fun _ ht => (State.load_next.1 ht).2 ▸ h _

theorem keepsMem_roundedF (s : State) (i : Instr) (rm : RmField) (F : Prec) (fd : RegIdx)
    (op : RoundMode → BitVec F.width × FpFlags) : KeepsMem s (s.roundedF i rm F fd op) := by
  refine keepsMem_of_next fun t ht => ?_
  obtain ⟨-, r, -, hr⟩ := State.roundedF_next.1 ht
  exact hr ▸ keepsMem_retireF s F fd (op r)

theorem keepsMem_roundedX (s : State) (i : Instr) (rm : RmField) (rd : RegIdx) (op : RoundMode → BitVec 32 × FpFlags) :
    KeepsMem s (s.roundedX i rm rd op) := by
  refine keepsMem_of_next fun t ht => ?_
  obtain ⟨-, r, -, hr⟩ := State.roundedX_next.1 ht
  exact hr ▸ keepsMem_retireXF s rd _ _

theorem keepsMem_branch (s : State) (c : Bool) (offset : BitVec 13) : KeepsMem s (s.branch c offset) := by
  refine keepsMem_of_next fun t ht => ?_
  obtain ⟨-, -, rfl⟩ | ⟨-, rfl⟩ := State.branch_next.1 ht
  · exact keepsMem_next rfl rfl
  · exact keepsMem_next rfl rfl

theorem keepsMem_jump (s : State) (rd : RegIdx) (target : BitVec s.bits) : KeepsMem s (s.jump rd target) := by
  refine keepsMem_of_next fun t ht => ?_
  obtain ⟨-, rfl⟩ := State.jump_next.1 ht
  exact keepsMem_next (by simp) (by simp)

/-- An instruction that is no store leaves memory and the launch alone, by the shared operation its meaning ends in. -/
theorem exec_keepsMem {s : State} {i : Instr} (hi : i.isStore = false) : KeepsMem s (exec i s) := by
  cases i with
  | sb | sh | sw | sd | fsw | fsd => cases hi
  | lb | lh | lw | lbu | lhu => exact keepsMem_load fun _ => keepsMem_retireX ..
  | ld | lwu => exact keepsMem_listed (keepsMem_load fun _ => keepsMem_retireX ..)
  | flw | fld => exact keepsMem_listed (keepsMem_load fun _ => keepsMem_fput ..)
  | addi | slti | sltiu | xori | ori | andi | auipc | lui | add | sub | sll | slt | sltu | xor | srl | sra | or | and =>
    exact keepsMem_retireX ..
  | slli | srli | srai | addiw | slliw | srliw | sraiw | addw | subw | sllw | srlw | sraw | fclassS | fclassD | fmvXW =>
    exact keepsMem_listed (keepsMem_retireX ..)
  | beq | bne | blt | bge | bltu | bgeu => exact keepsMem_branch ..
  | jal | jalr => exact keepsMem_jump ..
  | fmaddS | fmaddD | fmsubS | fmsubD | fnmsubS | fnmsubD | fnmaddS | fnmaddD | faddS | faddD | fsubS | fsubD | fmulS | fmulD
    | fdivS | fdivD | fsqrtS | fsqrtD | fcvtSW | fcvtSWu | fcvtDW | fcvtDWu | fcvtSD | fcvtDS => exact keepsMem_roundedF ..
  | fcvtWS | fcvtWuS | fcvtWD | fcvtWuD => exact keepsMem_roundedX ..
  | fsgnjS | fsgnjD | fsgnjnS | fsgnjnD | fsgnjxS | fsgnjxD | fmvWX => exact keepsMem_listed (keepsMem_fput ..)
  | fminS | fminD | fmaxS | fmaxD => exact keepsMem_listed (keepsMem_retireF ..)
  | feqS | feqD | fltS | fltD | fleS | fleD => exact keepsMem_listed (keepsMem_retireXF ..)

theorem State.listed_of_wellFormed {s : State} {i : Instr} (h : i.wellFormed s.launch.variant = true) (k : Result) :
    s.listed i k = k := if_pos h

/-- A store is `State.store` of some value at its operand's effective address. -/
theorem exec_store_eq {s : State} {i : Instr} {n : Nat} {rs1 : RegIdx} {imm : BitVec 12} (hstore : i.isStore = true)
    (hop : i.memOperand = some (n, rs1, imm)) (hwf : i.wellFormed s.launch.variant = true) :
    ∃ v, exec i s = s.store (s.effAddr rs1 imm) n v := by
  cases i with
  | sb | sh | sw => cases hop; exact ⟨_, rfl⟩
  | sd | fsw | fsd => cases hop; exact ⟨_, State.listed_of_wellFormed hwf _⟩
  | _ => cases hstore

theorem memOperand_of_isStore {i : Instr} (h : i.isStore = true) :
    ∃ n rs1 imm, i.memOperand = some (n, rs1, imm) := by
  cases i with
  | sb | sh | sw | sd | fsw | fsd => exact ⟨_, _, _, rfl⟩
  | _ => cases h

/-! ## Program text along a run (20_memory.md R43) -/

/-- What every step keeps of a state with a canonical memory: the launch, which says where `EXEC` lies, the canonical form,
without which a write says nothing of the other bytes, and every byte of `EXEC`. -/
structure KeepsText (s t : State) : Prop where
  launch : t.launch = s.launch
  mem_wf : t.mem.wf = true
  text : ∀ a, inRegions s.launch.memMap.exec a = true → t.mem.byte a = s.mem.byte a

theorem KeepsText.refl {s : State} (hm : s.mem.wf = true) : KeepsText s s := ⟨rfl, hm, fun _ _ => rfl⟩

theorem KeepsText.trans {s t u : State} (hst : KeepsText s t) (htu : KeepsText t u) : KeepsText s u where
  launch := htu.launch.trans hst.launch
  mem_wf := htu.mem_wf
  text a ha := (htu.text a (hst.launch ▸ ha)).trans (hst.text a ha)

/-- A store that completes has passed the check that none of its bytes is in `EXEC`. -/
theorem State.store_keepsText {s t : State} {addr : BitVec s.bits} {n : Nat} {v : BitVec (8 * n)} (hm : s.mem.wf = true)
    (h : s.store addr n v = .next t) : KeepsText s t := by
  obtain ⟨-, hno, rfl⟩ := State.store_next.1 h
  refine ⟨rfl, Memory.setAll_wf hm, fun a ha => State.byte_storeBits_of_notMem hm v fun hmem => ?_⟩
  rw [hno a hmem] at ha
  cases ha

theorem exec_keepsText {s t : State} {i : Instr} (hm : s.mem.wf = true) (hwf : i.wellFormed s.launch.variant = true)
    (h : exec i s = .next t) : KeepsText s t := by
  cases hstore : i.isStore with
  | true =>
    obtain ⟨n, rs1, imm, hop⟩ := memOperand_of_isStore hstore
    obtain ⟨v, hv⟩ := exec_store_eq hstore hop hwf
    exact State.store_keepsText hm (hv.symm.trans h)
  | false =>
    have hmem := (exec_keepsMem hstore).mem h
    exact ⟨(exec_keepsMem hstore).launch h, hmem ▸ hm, fun a _ => by rw [hmem]⟩

theorem step_keepsText {s t : State} (hm : s.mem.wf = true) (h : step s = .next t) : KeepsText s t := by
  obtain ⟨-, w, i, -, hdecode, hexec⟩ := step_next h
  exact exec_keepsText hm (decode_wellFormed hdecode) hexec

theorem Reaches.keepsText {s t : State} (hm : s.mem.wf = true) (h : Reaches s t) : KeepsText s t := by
  induction h with
  | refl => exact KeepsText.refl hm
  | tail _ hstep ih => exact ih.trans (step_keepsText ih.mem_wf hstep)

/-- Settles O53: `KeepsText` along the run, and the refusal from the last check of `MemWrite`. -/
theorem programTextNeverChanges : Obligations.ProgramTextNeverChanges := by
  refine ⟨fun s t hm h => (h.keepsText hm).text, fun s i n rs1 imm hstore hop hwf haccess htext => ?_⟩
  obtain ⟨v, hv⟩ := exec_store_eq hstore hop hwf
  rw [hv, State.store_text v haccess htext]

end Sys2Proof.Machine

/-! PROOFS. The family of 30_encoding.md: what the step answers for a word that decodes to no instruction. -/

namespace Sys2Proof.Machine

/-! ## A fetched word that does not decode (30_encoding.md R66) -/

/-- The companion of `step_of_decode`: whatever the decoder's reason, the refusal names the fetched word. -/
theorem step_of_decode_error {s : State} {w : InstrWord} {e : DecodeError} (hend : s.atEnd = false)
    (hfetch : s.fetch = .ok w) (hdecode : decode s.launch.variant w = .error e) :
    step s = .refused (.unlistedEncoding w) := by
  simp only [step, hend, hfetch, hdecode, Bool.false_eq_true, if_false, refuse]

/-- Settles O9, by `step_of_decode_error`; the refusal holds no state, so there is none to compare. -/
theorem unlistedWordsAreRefused : Obligations.UnlistedWordsAreRefused :=
  fun _ _ _ hend hfetch hdecode => step_of_decode_error hend hfetch hdecode

end Sys2Proof.Machine

/-! PROOFS. The family of 30_encoding.md: the decoder and the encoder are inverse to each other, and the rows of the opcode
table. -/

namespace Sys2Proof

/-! ## Decoding an encoded instruction (30_encoding.md R51 to R63) -/

/-- The fixed fields of an encoded word select its row, and the other fields are its operands. -/
theorem decodeRow_encode {v : Variant} {i : Instr} (hwf : i.wellFormed v = true) : decodeRow (encode i) = some i := by
  cases i with
  | lb | lh | lw | lbu | lhu | ld | lwu => simp [encode, decodeRow, decodeLoad]
  | addi | slti | sltiu | xori | ori | andi | slli | srli | srai => simp [encode, decodeRow, decodeOpImm]
  | addiw | slliw | srliw | sraiw => simp [encode, decodeRow, decodeOpImm32]
  | auipc | lui => simp [encode, decodeRow]
  | sb | sh | sw | sd => simp [encode, decodeRow, decodeStore]
  | add | sub | sll | slt | sltu | xor | srl | sra | or | and => simp [encode, decodeRow, decodeOp]
  | addw | subw | sllw | srlw | sraw => simp [encode, decodeRow, decodeOp32]
  | beq _ _ o | bne _ _ o | blt _ _ o | bge _ _ o | bltu _ _ o | bgeu _ _ o =>
    simp [encode, decodeRow, decodeBranch, encB_immBOf o _ _ _ _ hwf]
  | jalr => simp [encode, decodeRow, decodeJalr]
  | jal _ o => simp [encode, decodeRow, encJ_immJOf o _ _ hwf]
  | fmaddS | fmaddD | fmsubS | fmsubD | fnmsubS | fnmsubD | fnmaddS | fnmaddD => simp [encode, decodeRow, decodeFma]
  | faddS | faddD | fsubS | fsubD | fmulS | fmulD | fdivS | fdivD | fsqrtS | fsqrtD | fcvtWS | fcvtWuS | fcvtSW | fcvtSWu
    | fcvtWD | fcvtWuD | fcvtDW | fcvtDWu | fcvtSD | fcvtDS => simp [encode, decodeRow, decodeFp, withRm]
  | fsgnjS | fsgnjD | fsgnjnS | fsgnjnD | fsgnjxS | fsgnjxD => simp [encode, decodeRow, decodeFp, decodeSgnj]
  | fminS | fminD | fmaxS | fmaxD => simp [encode, decodeRow, decodeFp, decodeMinMax]
  | feqS | feqD | fltS | fltD | fleS | fleD => simp [encode, decodeRow, decodeFp, decodeCompare]
  | fclassS | fclassD | fmvXW | fmvWX => simp [encode, decodeRow, decodeFp]
  | flw | fld => simp [encode, decodeRow, decodeFpLoad]
  | fsw | fsd => simp [encode, decodeRow, decodeFpStore]

theorem decode_ok {v : Variant} {w : InstrWord} {i : Instr} :
    decode v w = .ok i ↔ decodeRow w = some i ∧ i.wellFormed v = true := by
  cases hrow : decodeRow w with
  | none => simp [decode, hrow]
  | some j =>
    by_cases hwf : j.wellFormed v = true
    · simp only [decode, hrow, hwf, if_true, Except.ok.injEq, Option.some.injEq]
      exact ⟨fun h => ⟨h, h ▸ hwf⟩, And.left⟩
    · simp only [decode, hrow, hwf, if_false, reduceCtorEq, Option.some.injEq, false_iff, not_and]
      rintro rfl
      exact hwf

/-- Settles O2: the row and the operands read back, on a variant that has the row. -/
theorem decodeOfEncode : Obligations.DecodeOfEncode :=
  fun _ _ hwf => decode_ok.2 ⟨decodeRow_encode hwf, hwf⟩

/-- Settles O1: the decoder, run on each of the eight words. -/
theorem knownWordsDecode : Obligations.KnownWordsDecode := ⟨rfl, rfl, rfl, rfl, rfl, rfl, rfl, rfl⟩

/-! ## Encoding a decoded word

Each decoder has read the fields that the row fixes, and takes every other field as an operand: put together again in the
row's format they are the word. -/

section Formats

variable {w : InstrWord} {op : BitVec 7} {f3 : BitVec 3}

theorem encR_eq {f7 : BitVec 7} (hop : opOf w = op) (h3 : funct3Of w = f3) (h7 : funct7Of w = f7) :
    encR f7 (rs2Of w) (rs1Of w) f3 (rdOf w) op = w := by
  subst hop h3 h7; exact encR_of w

/-- A row that fixes `rs2` too. -/
theorem encR_eq_rs2 {f7 : BitVec 7} {r2 : RegIdx} (hop : opOf w = op) (h3 : funct3Of w = f3) (h7 : funct7Of w = f7)
    (h2 : rs2Of w = r2) : encR f7 r2 (rs1Of w) f3 (rdOf w) op = w := by
  subst h2; exact encR_eq hop h3 h7

theorem encI_eq (hop : opOf w = op) (h3 : funct3Of w = f3) : encI (immIOf w) (rs1Of w) f3 (rdOf w) op = w := by
  subst hop h3; exact encI_of w

theorem encShift_eq {f6 : BitVec 6} (hop : opOf w = op) (h3 : funct3Of w = f3) (h6 : funct6Of w = f6) :
    encShift f6 (shamtOf w) (rs1Of w) f3 (rdOf w) op = w := by
  subst hop h3 h6; exact encShift_of w

theorem encS_eq (hop : opOf w = op) (h3 : funct3Of w = f3) : encS (immSOf w) (rs2Of w) (rs1Of w) f3 op = w := by
  subst hop h3; exact encS_of w

theorem encB_eq (hop : opOf w = op) (h3 : funct3Of w = f3) : encB (immBOf w) (rs2Of w) (rs1Of w) f3 op = w := by
  subst hop h3; exact encB_of w

theorem encU_eq (hop : opOf w = op) : encU (upimmOf w) (rdOf w) op = w := by
  subst hop; exact encU_of w

theorem encJ_eq (hop : opOf w = op) : encJ (immJOf w) (rdOf w) op = w := by
  subst hop; exact encJ_of w

theorem encR4_eq {f2 : BitVec 2} (hop : opOf w = op) (h3 : funct3Of w = f3) (h2 : funct2Of w = f2) :
    encR4 (rs3Of w) f2 (rs2Of w) (rs1Of w) f3 (rdOf w) op = w := by
  subst hop h3 h2; exact encR4_of w

end Formats

section Families

variable {w : InstrWord} {i : Instr}

theorem encode_of_decodeLoad (hop : opOf w = 0b0000011#7) (h : decodeLoad w = some i) : encode i = w := by
  unfold decodeLoad at h
  split at h <;> cases h <;> exact encI_eq hop ‹_›

theorem encode_of_decodeFpLoad (hop : opOf w = 0b0000111#7) (h : decodeFpLoad w = some i) : encode i = w := by
  unfold decodeFpLoad at h
  split at h <;> cases h <;> exact encI_eq hop ‹_›

theorem encode_of_decodeOpImm (hop : opOf w = 0b0010011#7) (h : decodeOpImm w = some i) : encode i = w := by
  unfold decodeOpImm at h
  split at h
  case h_2 | h_6 => split at h <;> cases h <;> exact encShift_eq hop ‹_› ‹_›
  all_goals cases h <;> exact encI_eq hop ‹_›

theorem encode_of_decodeOpImm32 (hop : opOf w = 0b0011011#7) (h : decodeOpImm32 w = some i) : encode i = w := by
  unfold decodeOpImm32 at h
  split at h
  case h_1 => cases h; exact encI_eq hop ‹_›
  case h_2 | h_3 => split at h <;> cases h <;> exact encR_eq hop ‹_› ‹_›
  case h_4 => cases h

theorem encode_of_decodeStore (hop : opOf w = 0b0100011#7) (h : decodeStore w = some i) : encode i = w := by
  unfold decodeStore at h
  split at h <;> cases h <;> exact encS_eq hop ‹_›

theorem encode_of_decodeFpStore (hop : opOf w = 0b0100111#7) (h : decodeFpStore w = some i) : encode i = w := by
  unfold decodeFpStore at h
  split at h <;> cases h <;> exact encS_eq hop ‹_›

theorem encode_of_decodeOp (hop : opOf w = 0b0110011#7) (h : decodeOp w = some i) : encode i = w := by
  unfold decodeOp at h
  split at h
  case h_1 | h_2 => split at h <;> cases h <;> exact encR_eq hop ‹_› ‹_›
  case h_3 => cases h

theorem encode_of_decodeOp32 (hop : opOf w = 0b0111011#7) (h : decodeOp32 w = some i) : encode i = w := by
  unfold decodeOp32 at h
  split at h
  case h_1 | h_2 => split at h <;> cases h <;> exact encR_eq hop ‹_› ‹_›
  case h_3 => cases h

theorem encode_of_decodeBranch (hop : opOf w = 0b1100011#7) (h : decodeBranch w = some i) : encode i = w := by
  unfold decodeBranch at h
  split at h <;> cases h <;> exact encB_eq hop ‹_›

theorem encode_of_decodeJalr (hop : opOf w = 0b1100111#7) (h : decodeJalr w = some i) : encode i = w := by
  unfold decodeJalr at h
  split at h <;> cases h
  exact encI_eq hop ‹_›

/-- The four R4-type opcodes, each with its two instructions. -/
theorem encode_of_decodeFma {op : BitVec 7} {single double : RegIdx → RegIdx → RegIdx → RegIdx → RmField → Instr}
    (hop : opOf w = op)
    (hs : ∀ fd fs1 fs2 fs3 rm, encode (single fd fs1 fs2 fs3 rm) = encR4 fs3 0b00#2 fs2 fs1 rm.toBits fd op)
    (hd : ∀ fd fs1 fs2 fs3 rm, encode (double fd fs1 fs2 fs3 rm) = encR4 fs3 0b01#2 fs2 fs1 rm.toBits fd op)
    (h : decodeFma w single double = some i) : encode i = w := by
  unfold decodeFma at h
  split at h
  · cases h
  · rename_i rm hrm
    have h3 := (RmField.toBits_of_ofBits hrm).symm
    split at h <;> cases h
    · rw [hs]; exact encR4_eq hop h3 ‹_›
    · rw [hd]; exact encR4_eq hop h3 ‹_›

/-- A row whose funct3 cell is `rm`. -/
theorem encode_of_withRm {row : RmField → Instr} (h : withRm w row = some i)
    (hrow : ∀ rm, funct3Of w = rm.toBits → encode (row rm) = w) : encode i = w := by
  unfold withRm at h
  split at h <;> cases h
  exact hrow _ (RmField.toBits_of_ofBits ‹_›).symm

theorem encode_of_decodeSgnj {op f7 : BitVec 7} {j n x : RegIdx → RegIdx → RegIdx → Instr} (hop : opOf w = op)
    (h7 : funct7Of w = f7) (hj : ∀ fd fs1 fs2, encode (j fd fs1 fs2) = encR f7 fs2 fs1 0b000#3 fd op)
    (hn : ∀ fd fs1 fs2, encode (n fd fs1 fs2) = encR f7 fs2 fs1 0b001#3 fd op)
    (hx : ∀ fd fs1 fs2, encode (x fd fs1 fs2) = encR f7 fs2 fs1 0b010#3 fd op)
    (h : decodeSgnj w j n x = some i) : encode i = w := by
  unfold decodeSgnj at h
  split at h <;> cases h
  · rw [hj]; exact encR_eq hop ‹_› h7
  · rw [hn]; exact encR_eq hop ‹_› h7
  · rw [hx]; exact encR_eq hop ‹_› h7

theorem encode_of_decodeMinMax {op f7 : BitVec 7} {mn mx : RegIdx → RegIdx → RegIdx → Instr} (hop : opOf w = op)
    (h7 : funct7Of w = f7) (hmn : ∀ fd fs1 fs2, encode (mn fd fs1 fs2) = encR f7 fs2 fs1 0b000#3 fd op)
    (hmx : ∀ fd fs1 fs2, encode (mx fd fs1 fs2) = encR f7 fs2 fs1 0b001#3 fd op)
    (h : decodeMinMax w mn mx = some i) : encode i = w := by
  unfold decodeMinMax at h
  split at h <;> cases h
  · rw [hmn]; exact encR_eq hop ‹_› h7
  · rw [hmx]; exact encR_eq hop ‹_› h7

/-- The comparisons have the shape of the sign injections, in another order. -/
theorem encode_of_decodeCompare {op f7 : BitVec 7} {le lt eq : RegIdx → RegIdx → RegIdx → Instr} (hop : opOf w = op)
    (h7 : funct7Of w = f7) (hle : ∀ rd fs1 fs2, encode (le rd fs1 fs2) = encR f7 fs2 fs1 0b000#3 rd op)
    (hlt : ∀ rd fs1 fs2, encode (lt rd fs1 fs2) = encR f7 fs2 fs1 0b001#3 rd op)
    (heq : ∀ rd fs1 fs2, encode (eq rd fs1 fs2) = encR f7 fs2 fs1 0b010#3 rd op)
    (h : decodeCompare w le lt eq = some i) : encode i = w :=
  encode_of_decodeSgnj hop h7 hle hlt heq h

/-- `op` 1010011: the cases are the rows in the order of `decodeFp`, by the fields that they fix. -/
theorem encode_of_decodeFp (hop : opOf w = 0b1010011#7) (h : decodeFp w = some i) : encode i = w := by
  unfold decodeFp at h
  split at h
  case h_1 | h_2 | h_3 | h_4 | h_5 | h_6 | h_7 | h_8 =>
    exact encode_of_withRm h fun rm h3 => encR_eq hop h3 ‹_›
  case h_9 | h_10 | h_17 | h_18 =>
    split at h
    · exact encode_of_withRm h fun rm h3 => encR_eq_rs2 hop h3 ‹_› ‹_›
    · cases h
  case h_19 | h_20 | h_21 | h_22 =>
    split at h
    · exact encode_of_withRm h fun rm h3 => encR_eq_rs2 hop h3 ‹_› ‹_›
    · exact encode_of_withRm h fun rm h3 => encR_eq_rs2 hop h3 ‹_› ‹_›
    · cases h
  case h_11 | h_12 => exact encode_of_decodeSgnj hop ‹_› (fun _ _ _ => rfl) (fun _ _ _ => rfl) (fun _ _ _ => rfl) h
  case h_13 | h_14 => exact encode_of_decodeMinMax hop ‹_› (fun _ _ _ => rfl) (fun _ _ _ => rfl) h
  case h_15 | h_16 => exact encode_of_decodeCompare hop ‹_› (fun _ _ _ => rfl) (fun _ _ _ => rfl) (fun _ _ _ => rfl) h
  case h_23 | h_24 | h_25 =>
    split at h
    · split at h <;> cases h <;> exact encR_eq_rs2 hop ‹_› ‹_› ‹_›
    · cases h
  case h_26 => cases h

/-- The word that a row was read from is the encoding of the row and the operands read. -/
theorem encode_of_decodeRow (h : decodeRow w = some i) : encode i = w := by
  unfold decodeRow at h
  split at h
  case h_1 => exact encode_of_decodeLoad ‹_› h
  case h_2 => exact encode_of_decodeFpLoad ‹_› h
  case h_3 => exact encode_of_decodeOpImm ‹_› h
  case h_5 => exact encode_of_decodeOpImm32 ‹_› h
  case h_6 => exact encode_of_decodeStore ‹_› h
  case h_7 => exact encode_of_decodeFpStore ‹_› h
  case h_8 => exact encode_of_decodeOp ‹_› h
  case h_10 => exact encode_of_decodeOp32 ‹_› h
  case h_11 | h_12 | h_13 | h_14 =>
    exact encode_of_decodeFma ‹_› (fun _ _ _ _ _ => rfl) (fun _ _ _ _ _ => rfl) h
  case h_15 => exact encode_of_decodeFp ‹_› h
  case h_16 => exact encode_of_decodeBranch ‹_› h
  case h_17 => exact encode_of_decodeJalr ‹_› h
  case h_4 | h_9 => cases h; exact encU_eq ‹_›
  case h_18 => cases h; exact encJ_eq ‹_›
  case h_19 => cases h

end Families

/-- Settles O3: the word put back together from the fields read. -/
theorem encodeOfDecode : Obligations.EncodeOfDecode := by
  intro v w i h
  obtain ⟨hrow, hwf⟩ := decode_ok.1 h
  exact ⟨encode_of_decodeRow hrow, hwf⟩

/-! ## The opcode table (30_encoding.md R63, R64) -/

open Laws in
/-- Every encoded instruction matches its row: the table of the lemmas that say so for each mnemonic. -/
theorem encode_and_rowMask : ∀ i, Laws.RowMatch.Statement i
  | .lb .. => RowMatch.lb _ _ _ | .lh .. => RowMatch.lh _ _ _ | .lw .. => RowMatch.lw _ _ _
  | .lbu .. => RowMatch.lbu _ _ _ | .lhu .. => RowMatch.lhu _ _ _ | .addi .. => RowMatch.addi _ _ _
  | .slli .. => RowMatch.slli _ _ _ | .slti .. => RowMatch.slti _ _ _ | .sltiu .. => RowMatch.sltiu _ _ _
  | .xori .. => RowMatch.xori _ _ _ | .srli .. => RowMatch.srli _ _ _ | .srai .. => RowMatch.srai _ _ _
  | .ori .. => RowMatch.ori _ _ _ | .andi .. => RowMatch.andi _ _ _ | .auipc .. => RowMatch.auipc _ _
  | .sb .. => RowMatch.sb _ _ _ | .sh .. => RowMatch.sh _ _ _ | .sw .. => RowMatch.sw _ _ _
  | .add .. => RowMatch.add _ _ _ | .sub .. => RowMatch.sub _ _ _ | .sll .. => RowMatch.sll _ _ _
  | .slt .. => RowMatch.slt _ _ _ | .sltu .. => RowMatch.sltu _ _ _ | .xor .. => RowMatch.xor _ _ _
  | .srl .. => RowMatch.srl _ _ _ | .sra .. => RowMatch.sra _ _ _ | .or .. => RowMatch.or _ _ _
  | .and .. => RowMatch.and _ _ _ | .lui .. => RowMatch.lui _ _ | .beq .. => RowMatch.beq _ _ _
  | .bne .. => RowMatch.bne _ _ _ | .blt .. => RowMatch.blt _ _ _ | .bge .. => RowMatch.bge _ _ _
  | .bltu .. => RowMatch.bltu _ _ _ | .bgeu .. => RowMatch.bgeu _ _ _ | .jalr .. => RowMatch.jalr _ _ _
  | .jal .. => RowMatch.jal _ _ | .ld .. => RowMatch.ld _ _ _ | .lwu .. => RowMatch.lwu _ _ _
  | .addiw .. => RowMatch.addiw _ _ _ | .slliw .. => RowMatch.slliw _ _ _ | .srliw .. => RowMatch.srliw _ _ _
  | .sraiw .. => RowMatch.sraiw _ _ _ | .sd .. => RowMatch.sd _ _ _ | .addw .. => RowMatch.addw _ _ _
  | .subw .. => RowMatch.subw _ _ _ | .sllw .. => RowMatch.sllw _ _ _ | .srlw .. => RowMatch.srlw _ _ _
  | .sraw .. => RowMatch.sraw _ _ _ | .fmaddS .. => RowMatch.fmaddS _ _ _ _ _
  | .fmaddD .. => RowMatch.fmaddD _ _ _ _ _ | .fmsubS .. => RowMatch.fmsubS _ _ _ _ _
  | .fmsubD .. => RowMatch.fmsubD _ _ _ _ _ | .fnmsubS .. => RowMatch.fnmsubS _ _ _ _ _
  | .fnmsubD .. => RowMatch.fnmsubD _ _ _ _ _ | .fnmaddS .. => RowMatch.fnmaddS _ _ _ _ _
  | .fnmaddD .. => RowMatch.fnmaddD _ _ _ _ _ | .faddS .. => RowMatch.faddS _ _ _ _
  | .faddD .. => RowMatch.faddD _ _ _ _ | .fsubS .. => RowMatch.fsubS _ _ _ _ | .fsubD .. => RowMatch.fsubD _ _ _ _
  | .fmulS .. => RowMatch.fmulS _ _ _ _ | .fmulD .. => RowMatch.fmulD _ _ _ _ | .fdivS .. => RowMatch.fdivS _ _ _ _
  | .fdivD .. => RowMatch.fdivD _ _ _ _ | .fsqrtS .. => RowMatch.fsqrtS _ _ _ | .fsqrtD .. => RowMatch.fsqrtD _ _ _
  | .fsgnjS .. => RowMatch.fsgnjS _ _ _ | .fsgnjD .. => RowMatch.fsgnjD _ _ _ | .fsgnjnS .. => RowMatch.fsgnjnS _ _ _
  | .fsgnjnD .. => RowMatch.fsgnjnD _ _ _ | .fsgnjxS .. => RowMatch.fsgnjxS _ _ _
  | .fsgnjxD .. => RowMatch.fsgnjxD _ _ _ | .fminS .. => RowMatch.fminS _ _ _ | .fminD .. => RowMatch.fminD _ _ _
  | .fmaxS .. => RowMatch.fmaxS _ _ _ | .fmaxD .. => RowMatch.fmaxD _ _ _ | .feqS .. => RowMatch.feqS _ _ _
  | .feqD .. => RowMatch.feqD _ _ _ | .fltS .. => RowMatch.fltS _ _ _ | .fltD .. => RowMatch.fltD _ _ _
  | .fleS .. => RowMatch.fleS _ _ _ | .fleD .. => RowMatch.fleD _ _ _ | .fclassS .. => RowMatch.fclassS _ _
  | .fclassD .. => RowMatch.fclassD _ _ | .flw .. => RowMatch.flw _ _ _ | .fsw .. => RowMatch.fsw _ _ _
  | .fcvtWS .. => RowMatch.fcvtWS _ _ _ | .fcvtWuS .. => RowMatch.fcvtWuS _ _ _ | .fcvtSW .. => RowMatch.fcvtSW _ _ _
  | .fcvtSWu .. => RowMatch.fcvtSWu _ _ _ | .fmvXW .. => RowMatch.fmvXW _ _ | .fmvWX .. => RowMatch.fmvWX _ _
  | .fld .. => RowMatch.fld _ _ _ | .fsd .. => RowMatch.fsd _ _ _ | .fcvtWD .. => RowMatch.fcvtWD _ _ _
  | .fcvtWuD .. => RowMatch.fcvtWuD _ _ _ | .fcvtDW .. => RowMatch.fcvtDW _ _ _
  | .fcvtDWu .. => RowMatch.fcvtDWu _ _ _ | .fcvtSD .. => RowMatch.fcvtSD _ _ _ | .fcvtDS .. => RowMatch.fcvtDS _ _ _

/-- Settles O4: a decoded word is the encoding of its instruction, which matches its row. -/
theorem decodedWordMatchesItsRow : Obligations.DecodedWordMatchesItsRow := by
  intro v w i h
  obtain ⟨rfl, hwf⟩ := encodeOfDecode v w i h
  exact encode_and_rowMask i v hwf

theorem decode_eq_error {v : Variant} {w : InstrWord} :
    decode v w = .error (.unlisted w) ↔ ∀ i, decode v w ≠ .ok i := by
  unfold decode
  split
  · simp
  · split <;> simp

/-- Settles O6: a word that decodes is an encoding (O3), and an encoding decodes (O2). -/
theorem rejectedWordsEncodeNothing : Obligations.RejectedWordsEncodeNothing := by
  intro v w
  rw [decode_eq_error]
  constructor
  · rintro h i hwf rfl
    exact h i (decodeOfEncode v i hwf)
  · intro h i hdecode
    obtain ⟨henc, hwf⟩ := encodeOfDecode v w i hdecode
    exact h i hwf henc

/-! ## No two rows overlap (30_encoding.md R64)

A word that matches an instruction's row has the fields that the row fixes, so the decoder selects that row: it answers an
instruction of the same mnemonic, or nothing, when the row leaves `rm` open and the word's is not one of the listed six. -/

section Fields

variable {w mask row : InstrWord}

/-- A field that lies under the mask is the field of `match`. -/
theorem field_of_match (h : w &&& mask = row) {start len : Nat}
    (hmask : mask.extractLsb' start len = BitVec.allOnes len) : w.extractLsb' start len = row.extractLsb' start len := by
  subst h
  rw [BitVec.extractLsb'_and, hmask, BitVec.and_allOnes]

theorem opOf_of_match (h : w &&& mask = row) (hmask : opOf mask = BitVec.allOnes 7) : opOf w = opOf row :=
  field_of_match h hmask

theorem funct3Of_of_match (h : w &&& mask = row) (hmask : funct3Of mask = BitVec.allOnes 3) :
    funct3Of w = funct3Of row := field_of_match h hmask

theorem funct7Of_of_match (h : w &&& mask = row) (hmask : funct7Of mask = BitVec.allOnes 7) :
    funct7Of w = funct7Of row := field_of_match h hmask

theorem funct6Of_of_match (h : w &&& mask = row) (hmask : funct6Of mask = BitVec.allOnes 6) :
    funct6Of w = funct6Of row := field_of_match h hmask

theorem funct2Of_of_match (h : w &&& mask = row) (hmask : funct2Of mask = BitVec.allOnes 2) :
    funct2Of w = funct2Of row := field_of_match h hmask

theorem rs2Of_of_match (h : w &&& mask = row) (hmask : rs2Of mask = BitVec.allOnes 5) : rs2Of w = rs2Of row :=
  field_of_match h hmask

end Fields

/-- What the decoder makes of a word of the row of `i`: the mnemonic of `i`, or nothing for want of a listed `rm`. -/
def SelectsRow (v : Variant) (i : Instr) (w : InstrWord) : Prop :=
  (decodeRow w).map Instr.ctorIdx = some i.ctorIdx ∨
    (decodeRow w = none ∧ RmField.ofBits (funct3Of w) = none ∧ i.rowMask v &&& 0xffff8fff#32 = i.rowMask v)

theorem shiftMask_fields (v : Variant) : opOf (shiftMask v) = BitVec.allOnes 7 ∧ funct3Of (shiftMask v) = BitVec.allOnes 3 ∧
    funct6Of (shiftMask v) = BitVec.allOnes 6 := by
  unfold shiftMask; cases v.xlen <;> decide

/-- A row that leaves `rm` open is selected when the word's `rm` is a listed one. -/
theorem selectsRow_of_rm {v : Variant} {i : Instr} {w : InstrWord}
    (hsome : ∀ rm, RmField.ofBits (funct3Of w) = some rm → (decodeRow w).map Instr.ctorIdx = some i.ctorIdx)
    (hnone : RmField.ofBits (funct3Of w) = none → decodeRow w = none)
    (hmask : i.rowMask v &&& 0xffff8fff#32 = i.rowMask v) : SelectsRow v i w := by
  cases hrm : RmField.ofBits (funct3Of w) with
  | none => exact .inr ⟨hnone hrm, hrm, hmask⟩
  | some rm => exact .inl (hsome rm hrm)

/-- Such a row of `op` 1010011 goes through `withRm`. -/
theorem selectsRow_of_withRm {v : Variant} {i : Instr} {w : InstrWord} {row : RmField → Instr}
    (hrow : decodeRow w = withRm w row) (hidx : ∀ rm, (row rm).ctorIdx = i.ctorIdx)
    (hmask : i.rowMask v &&& 0xffff8fff#32 = i.rowMask v) : SelectsRow v i w := by
  refine selectsRow_of_rm (fun rm hrm => ?_) (fun hrm => ?_) hmask
  · simp only [hrow, withRm, hrm, Option.map_some, hidx]
  · simp only [hrow, withRm, hrm]

/-- The rows without an `rm` field, by their opcodes; the other fields that the row fixes then select its arm of the
decoder. -/
theorem selectsRow_of_match_fixed {v : Variant} {i : Instr} {w : InstrWord} (hi : i.rmField = none)
    (h : w &&& i.rowMask v = i.rowMatch) : SelectsRow v i w := by
  cases i with
  | lb | lh | lw | lbu | lhu | ld | lwu =>
    simp only [Instr.rowMask, Instr.rowMatch] at h
    have hop : opOf w = 0b0000011#7 := opOf_of_match h rfl
    have h3 : funct3Of w = _ := funct3Of_of_match h rfl
    left
    simp only [decodeRow, hop, decodeLoad, h3]; rfl
  | flw | fld =>
    simp only [Instr.rowMask, Instr.rowMatch] at h
    have hop : opOf w = 0b0000111#7 := opOf_of_match h rfl
    have h3 : funct3Of w = _ := funct3Of_of_match h rfl
    left
    simp only [decodeRow, hop, decodeFpLoad, h3]; rfl
  | addi | slti | sltiu | xori | ori | andi =>
    simp only [Instr.rowMask, Instr.rowMatch] at h
    have hop : opOf w = 0b0010011#7 := opOf_of_match h rfl
    have h3 : funct3Of w = _ := funct3Of_of_match h rfl
    left
    simp only [decodeRow, hop, decodeOpImm, h3]; rfl
  | addiw =>
    simp only [Instr.rowMask, Instr.rowMatch] at h
    have hop : opOf w = 0b0011011#7 := opOf_of_match h rfl
    have h3 : funct3Of w = _ := funct3Of_of_match h rfl
    left
    simp only [decodeRow, hop, decodeOpImm32, h3]; rfl
  | slliw | srliw | sraiw =>
    simp only [Instr.rowMask, Instr.rowMatch] at h
    have hop : opOf w = 0b0011011#7 := opOf_of_match h rfl
    have h3 : funct3Of w = _ := funct3Of_of_match h rfl
    have h7 : funct7Of w = _ := funct7Of_of_match h rfl
    left
    simp only [decodeRow, hop, decodeOpImm32, h3, h7]; rfl
  | sb | sh | sw | sd =>
    simp only [Instr.rowMask, Instr.rowMatch] at h
    have hop : opOf w = 0b0100011#7 := opOf_of_match h rfl
    have h3 : funct3Of w = _ := funct3Of_of_match h rfl
    left
    simp only [decodeRow, hop, decodeStore, h3]; rfl
  | fsw | fsd =>
    simp only [Instr.rowMask, Instr.rowMatch] at h
    have hop : opOf w = 0b0100111#7 := opOf_of_match h rfl
    have h3 : funct3Of w = _ := funct3Of_of_match h rfl
    left
    simp only [decodeRow, hop, decodeFpStore, h3]; rfl
  | add | sub | sll | slt | sltu | xor | srl | sra | or | and =>
    simp only [Instr.rowMask, Instr.rowMatch] at h
    have hop : opOf w = 0b0110011#7 := opOf_of_match h rfl
    have h3 : funct3Of w = _ := funct3Of_of_match h rfl
    have h7 : funct7Of w = _ := funct7Of_of_match h rfl
    left
    simp only [decodeRow, hop, decodeOp, h3, h7]; rfl
  | addw | subw | sllw | srlw | sraw =>
    simp only [Instr.rowMask, Instr.rowMatch] at h
    have hop : opOf w = 0b0111011#7 := opOf_of_match h rfl
    have h3 : funct3Of w = _ := funct3Of_of_match h rfl
    have h7 : funct7Of w = _ := funct7Of_of_match h rfl
    left
    simp only [decodeRow, hop, decodeOp32, h3, h7]; rfl
  | beq | bne | blt | bge | bltu | bgeu =>
    simp only [Instr.rowMask, Instr.rowMatch] at h
    have hop : opOf w = 0b1100011#7 := opOf_of_match h rfl
    have h3 : funct3Of w = _ := funct3Of_of_match h rfl
    left
    simp only [decodeRow, hop, decodeBranch, h3]; rfl
  | jalr =>
    simp only [Instr.rowMask, Instr.rowMatch] at h
    have hop : opOf w = 0b1100111#7 := opOf_of_match h rfl
    have h3 : funct3Of w = _ := funct3Of_of_match h rfl
    left
    simp only [decodeRow, hop, decodeJalr, h3]; rfl
  | auipc =>
    simp only [Instr.rowMask, Instr.rowMatch] at h
    have hop : opOf w = 0b0010111#7 := opOf_of_match h rfl
    left
    simp only [decodeRow, hop]; rfl
  | lui =>
    simp only [Instr.rowMask, Instr.rowMatch] at h
    have hop : opOf w = 0b0110111#7 := opOf_of_match h rfl
    left
    simp only [decodeRow, hop]; rfl
  | jal =>
    simp only [Instr.rowMask, Instr.rowMatch] at h
    have hop : opOf w = 0b1101111#7 := opOf_of_match h rfl
    left
    simp only [decodeRow, hop]; rfl
  | fsgnjS | fsgnjD | fsgnjnS | fsgnjnD | fsgnjxS | fsgnjxD =>
    simp only [Instr.rowMask, Instr.rowMatch] at h
    have hop : opOf w = 0b1010011#7 := opOf_of_match h rfl
    have h7 : funct7Of w = _ := funct7Of_of_match h rfl
    have h3 : funct3Of w = _ := funct3Of_of_match h rfl
    left
    simp only [decodeRow, hop, decodeFp, decodeSgnj, h7, h3]; rfl
  | fminS | fminD | fmaxS | fmaxD =>
    simp only [Instr.rowMask, Instr.rowMatch] at h
    have hop : opOf w = 0b1010011#7 := opOf_of_match h rfl
    have h7 : funct7Of w = _ := funct7Of_of_match h rfl
    have h3 : funct3Of w = _ := funct3Of_of_match h rfl
    left
    simp only [decodeRow, hop, decodeFp, decodeMinMax, h7, h3]; rfl
  | feqS | feqD | fltS | fltD | fleS | fleD =>
    simp only [Instr.rowMask, Instr.rowMatch] at h
    have hop : opOf w = 0b1010011#7 := opOf_of_match h rfl
    have h7 : funct7Of w = _ := funct7Of_of_match h rfl
    have h3 : funct3Of w = _ := funct3Of_of_match h rfl
    left
    simp only [decodeRow, hop, decodeFp, decodeCompare, h7, h3]; rfl
  | fclassS | fclassD | fmvXW | fmvWX =>
    simp only [Instr.rowMask, Instr.rowMatch] at h
    have hop : opOf w = 0b1010011#7 := opOf_of_match h rfl
    have h7 : funct7Of w = _ := funct7Of_of_match h rfl
    have hrs2 : rs2Of w = _ := rs2Of_of_match h rfl
    have h3 : funct3Of w = _ := funct3Of_of_match h rfl
    left
    simp only [decodeRow, hop, decodeFp, h7, hrs2, h3]; rfl
  | slli | srli | srai =>
    obtain ⟨mop, m3, m6⟩ := shiftMask_fields v
    simp only [Instr.rowMask, Instr.rowMatch] at h
    have hop : opOf w = 0b0010011#7 := opOf_of_match h mop
    have h3 : funct3Of w = _ := funct3Of_of_match h m3
    have h6 : funct6Of w = _ := funct6Of_of_match h m6
    left
    simp only [decodeRow, hop, decodeOpImm, h3, h6]; rfl
  | _ => cases hi

/-- The rows with an `rm` field. -/
theorem selectsRow_of_match_open {v : Variant} {i : Instr} {w : InstrWord} (hi : i.rmField ≠ none)
    (h : w &&& i.rowMask v = i.rowMatch) : SelectsRow v i w := by
  cases i with
  | fmaddS | fmaddD =>
    simp only [Instr.rowMask, Instr.rowMatch] at h
    have hop : opOf w = 0b1000011#7 := opOf_of_match h rfl
    have hf2 : funct2Of w = _ := funct2Of_of_match h rfl
    refine selectsRow_of_rm (fun rm hrm => ?_) (fun hrm => ?_) (by rw [Instr.rowMask]; rfl)
    · simp only [decodeRow, hop, decodeFma, hrm, hf2]; rfl
    · simp only [decodeRow, hop, decodeFma, hrm]
  | fmsubS | fmsubD =>
    simp only [Instr.rowMask, Instr.rowMatch] at h
    have hop : opOf w = 0b1000111#7 := opOf_of_match h rfl
    have hf2 : funct2Of w = _ := funct2Of_of_match h rfl
    refine selectsRow_of_rm (fun rm hrm => ?_) (fun hrm => ?_) (by rw [Instr.rowMask]; rfl)
    · simp only [decodeRow, hop, decodeFma, hrm, hf2]; rfl
    · simp only [decodeRow, hop, decodeFma, hrm]
  | fnmsubS | fnmsubD =>
    simp only [Instr.rowMask, Instr.rowMatch] at h
    have hop : opOf w = 0b1001011#7 := opOf_of_match h rfl
    have hf2 : funct2Of w = _ := funct2Of_of_match h rfl
    refine selectsRow_of_rm (fun rm hrm => ?_) (fun hrm => ?_) (by rw [Instr.rowMask]; rfl)
    · simp only [decodeRow, hop, decodeFma, hrm, hf2]; rfl
    · simp only [decodeRow, hop, decodeFma, hrm]
  | fnmaddS | fnmaddD =>
    simp only [Instr.rowMask, Instr.rowMatch] at h
    have hop : opOf w = 0b1001111#7 := opOf_of_match h rfl
    have hf2 : funct2Of w = _ := funct2Of_of_match h rfl
    refine selectsRow_of_rm (fun rm hrm => ?_) (fun hrm => ?_) (by rw [Instr.rowMask]; rfl)
    · simp only [decodeRow, hop, decodeFma, hrm, hf2]; rfl
    · simp only [decodeRow, hop, decodeFma, hrm]
  | faddS | faddD | fsubS | fsubD | fmulS | fmulD | fdivS | fdivD =>
    simp only [Instr.rowMask, Instr.rowMatch] at h
    have hop : opOf w = 0b1010011#7 := opOf_of_match h rfl
    have h7 : funct7Of w = _ := funct7Of_of_match h rfl
    refine selectsRow_of_withRm (row := ?_) ?_ (fun rm => ?_) (by rw [Instr.rowMask]; rfl)
    rotate_left
    · rw [decodeRow, hop, decodeFp, h7]; rfl
    · rfl
  | fsqrtS | fsqrtD | fcvtWS | fcvtWuS | fcvtSW | fcvtSWu | fcvtWD | fcvtWuD | fcvtDW | fcvtDWu | fcvtSD | fcvtDS =>
    simp only [Instr.rowMask, Instr.rowMatch] at h
    have hop : opOf w = 0b1010011#7 := opOf_of_match h rfl
    have h7 : funct7Of w = _ := funct7Of_of_match h rfl
    have hrs2 : rs2Of w = _ := rs2Of_of_match h rfl
    refine selectsRow_of_withRm (row := ?_) ?_ (fun rm => ?_) (by rw [Instr.rowMask]; rfl)
    rotate_left
    · rw [decodeRow, hop, decodeFp, h7, hrs2]; rfl
    · rfl

  | _ => exact absurd rfl hi

theorem selectsRow_of_match {v : Variant} {i : Instr} {w : InstrWord} (h : w &&& i.rowMask v = i.rowMatch) :
    SelectsRow v i w :=
  if hi : i.rmField = none then selectsRow_of_match_fixed hi h else selectsRow_of_match_open hi h

/-- The word with its `rm` field at `rne`. -/
def withRne (w : InstrWord) : InstrWord := w &&& 0xffff8fff#32

theorem funct3Of_withRne (w : InstrWord) : funct3Of (withRne w) = 0b000#3 := by
  rw [withRne, funct3Of, BitVec.extractLsb'_and, show (0xffff8fff#32).extractLsb' 12 3 = 0#3 from rfl, BitVec.and_zero]

/-- A row that leaves `rm` open matches the word whatever its `rm`. -/
theorem withRne_match {w mask row : InstrWord} (h : w &&& mask = row) (hmask : mask &&& 0xffff8fff#32 = mask) :
    withRne w &&& mask = row := by
  rw [withRne, BitVec.and_assoc, BitVec.and_comm 0xffff8fff#32, hmask, h]

/-- Settles O5: the decoder selects the row of each of the two; when it answers nothing both rows leave `rm` open, and the
word with a listed `rm` matches them as well. -/
theorem noTwoRowsOverlap : Obligations.NoTwoRowsOverlap := by
  intro v i j w _ _ hi hj
  rcases selectsRow_of_match hi with hri | ⟨hni, -, hmi⟩ <;> rcases selectsRow_of_match hj with hrj | ⟨hnj, -, hmj⟩
  · exact Option.some.inj (hri.symm.trans hrj)
  · rw [hnj] at hri; cases hri
  · rw [hni] at hrj; cases hrj
  · have listed : RmField.ofBits (funct3Of (withRne w)) ≠ none := by rw [funct3Of_withRne]; exact Option.some_ne_none _
    have hri := (selectsRow_of_match (withRne_match hi hmi)).resolve_right fun ⟨_, hnone, _⟩ => listed hnone
    have hrj := (selectsRow_of_match (withRne_match hj hmj)).resolve_right fun ⟨_, hnone, _⟩ => listed hnone
    exact Option.some.inj (hri.symm.trans hrj)

end Sys2Proof

/-! PROOFS. The rules of the whole machine: what a step does, how executing an instruction can end, and what every
instruction keeps (10_state.md, 60_exceptions.md). -/

namespace Sys2Proof.Machine

/-! ## One step -/

/-- What a step away from `END_PC` answers: what stops the fetch, a refusal, or what the decoded instruction answers. -/
theorem step_eq_of_fetch {s : State} (hend : s.atEnd = false) :
    (∃ e, s.fetch = .error e ∧ step s = .fault e) ∨ (∃ r, step s = .refused r) ∨
      ∃ w i, s.fetch = .ok w ∧ decode s.launch.variant w = .ok i ∧ step s = exec i s := by
  cases hfetch : s.fetch with
  | error e => exact .inl ⟨e, rfl, step_of_fetch_error hend hfetch⟩
  | ok w =>
    cases hdecode : decode s.launch.variant w with
    | error e => exact .inr (.inl ⟨_, step_of_decode_error hend hfetch hdecode⟩)
    | ok i => exact .inr (.inr ⟨w, i, rfl, hdecode, step_of_decode hend hfetch hdecode⟩)

/-- Settles O7: the four bytes are the word that the fetch answers. -/
theorem stepRunsTheDecodedInstruction : Obligations.StepRunsTheDecodedInstruction := by
  rintro s b0 b1 b2 b3 i hpc hexec rfl rfl rfl rfl hdecode
  obtain ⟨hfetch, hrun⟩ := ((fetchRule s).2 hpc).2 hexec
  exact hrun i hdecode

/-! ## Branches and jumps (44_rv32i_control.md) -/

theorem State.upc_emod (s : State) : s.upc % s.modulus = s.pcX.toNat := s.toNat_emod _

/-- `pc` plus an offset, as an integer modulo `2^XLEN`. -/
theorem State.pcTarget_emod (s : State) {n : Nat} (offset : BitVec n) (h : n ≤ 32) :
    ((s.pcX + s.sext offset).toNat : Int) = (s.upc + offset.toInt) % s.modulus :=
  (s.add_emod s.upc_emod (s.sext_emod offset (h.trans s.thirtyTwo_le_bits))).symm

theorem State.nextPc_emod (s : State) : (s.upc + 4) % s.modulus = s.nextPc.toNat := by
  rw [← s.nextPc_toNat, s.toNat_setWidth]

/-- Clearing bit 0 of a value. -/
theorem toNat_and_not_one {n : Nat} (v : BitVec n) : (v &&& ~~~1#n).toNat = v.toNat / 2 * 2 := by
  have hshift : v &&& ~~~1#n = (v >>> 1) <<< 1 := by
    refine BitVec.eq_of_getLsbD_eq fun i hi => ?_
    cases i with
    | zero => simp [BitVec.getLsbD_ofNat]
    | succ i => simp [hi, Nat.add_comm 1 i]
  have hlt := v.isLt
  rw [hshift, BitVec.toNat_shiftLeft, BitVec.toNat_ushiftRight, Nat.shiftLeft_eq, Nat.shiftRight_eq_div_pow,
    Nat.mod_eq_of_lt (by omega), pow_one]

theorem State.jalrTarget_toNat (s : State) (rs1 : RegIdx) (imm : BitVec 12) :
    (((s.readX rs1 + s.sext imm) &&& ~~~1#s.bits).toNat : Int) = (s.ux rs1 + imm.toInt) % s.modulus / 2 * 2 := by
  rw [toNat_and_not_one, ← State.effAddr, s.effAddr_emod]
  push_cast; rfl

theorem readX_eq_iff {s : State} {a b : RegIdx} : s.readX a = s.readX b ↔ s.ux a = s.ux b := by
  rw [← BitVec.toNat_inj, State.ux, State.ux, Int.natCast_inj]

/-- A conditional branch is `State.branch` under its condition. -/
theorem exec_branch {s : State} {i : Instr} {c : Bool} {offset : BitVec 13} (h : s.branchCondition i = some (c, offset)) :
    exec i s = s.branch c offset := by
  cases i with
  | beq | bne => cases h; simp only [exec, execBeq, execBne, readX_eq_iff, ne_eq]
  | blt => cases h; rfl
  | bltu => cases h; simp only [exec, execBltu, BitVec.ult, State.ux, Int.ofNat_lt]
  | bge => cases h; exact congrArg (s.branch · offset) (by rw [BitVec.slt, ← decide_not]; exact decide_eq_decide.2 not_lt)
  | bgeu =>
    cases h
    exact congrArg (s.branch · offset) (by rw [BitVec.ult, ← decide_not]; exact decide_eq_decide.2 (by simp [State.ux]))
  | _ => cases h

theorem successor_of_branch {s : State} {i : Instr} {c : Bool} {offset : BitVec 13}
    (h : s.branchCondition i = some (c, offset)) : s.successor i = if c then s.upc + offset.toInt else s.upc + 4 := by
  cases i with
  | beq | bne | blt | bge | bltu | bgeu => simp only [State.successor, h]; cases c <;> rfl
  | _ => cases h

/-- A jump ends in the linked state of `WroteX`, with the pc at the target. -/
theorem State.jump_completes {s : State} {rd : RegIdx} {target : BitVec s.bits} {z : Int}
    (haligned : target.toNat % 4 = 0) (htarget : (target.toNat : Int) = z % s.modulus) :
    ∃ t, s.jump rd target = .next t ∧ WroteX s t rd (s.upc + 4) 0#5 z := by
  obtain ⟨u, hu, hwrote⟩ := s.retireX_eq rd s.nextPc
  cases hu
  have hlink := hwrote.congr ((s.toNat_emod s.nextPc).trans s.nextPc_emod.symm)
  refine ⟨_, State.jump_next.2 ⟨haligned, rfl⟩, { hlink with pc := ?_ }⟩
  rw [State.setPc_pc, s.toNat_setWidth, htarget]

theorem State.jalrTarget_emod (s : State) (rs1 : RegIdx) (imm : BitVec 12) :
    (((s.readX rs1 + s.sext imm) &&& ~~~1#s.bits).toNat : Int) =
      (s.ux rs1 + imm.toInt) % s.modulus / 2 * 2 % s.modulus := by
  rw [← s.jalrTarget_toNat, s.toNat_emod]

/-- Settles O30: both are `State.jump`, to targets that are computed before the link register is written. -/
theorem jumpsComplete : Obligations.JumpsComplete := by
  intro s rd rs1 offset imm
  constructor
  · intro h
    rw [← s.pcTarget_emod offset (by decide)] at h
    exact State.jump_completes (by exact_mod_cast h) (s.pcTarget_emod offset (by decide))
  · intro h
    rw [← s.jalrTarget_toNat] at h
    exact State.jump_completes (by exact_mod_cast h) (s.jalrTarget_emod rs1 imm)

theorem sameButPc_setPc (s : State) (target : XWord) : SameButPc s (s.setPc target) :=
  ⟨rfl, fun _ => rfl, fun _ => rfl, rfl, rfl, fun _ => rfl⟩

/-- A branch under the condition `taken`. -/
theorem branch_completes {s : State} {i : Instr} {taken : Prop} [Decidable taken] {offset : BitVec 13}
    (h : s.branchCondition i = some (decide taken, offset)) :
    (taken → (s.upc + offset.toInt) % s.modulus % 4 = 0 → CompletesJump i s (s.upc + offset.toInt)) ∧
      (¬ taken → CompletesJump i s (s.upc + 4)) := by
  constructor
  · intro htaken haligned
    rw [decide_eq_true htaken] at h
    rw [← s.pcTarget_emod offset (by decide)] at haligned
    refine ⟨_, (exec_branch h).trans (State.branch_next.2 (.inl ⟨rfl, by exact_mod_cast haligned, rfl⟩)),
      sameButPc_setPc s _, ?_⟩
    rw [State.setPc_pc, s.toNat_setWidth, s.pcTarget_emod offset (by decide)]
  · intro htaken
    rw [decide_eq_false htaken] at h
    exact ⟨_, (exec_branch h).trans (State.branch_next.2 (.inr ⟨rfl, rfl⟩)), sameButPc_setPc s _, s.nextPc_toNat⟩

/-- Settles O29: the conditions are those of `State.branchCondition`. -/
theorem branchesComplete : Obligations.BranchesComplete := fun _ _ _ _ =>
  ⟨branch_completes rfl, branch_completes rfl, branch_completes rfl, branch_completes rfl, branch_completes rfl,
    branch_completes rfl⟩

/-- What a transfer faults with, and when: its target is the successor, unless it is a branch that is not taken. -/
theorem exec_transfer_fault {s : State} {i : Instr} (hi : i.isTransfer = true) :
    ∃ target : BitVec s.bits, (target.toNat : Int) = s.successor i % s.modulus ∧ ∀ e, exec i s = .fault e ↔
      (target.toNat % 4 ≠ 0 ∧ ∀ offset, s.branchCondition i ≠ some (false, offset)) ∧
        e = .instructionAddressMisaligned (target.setWidth 64) := by
  have branch : ∀ c offset, s.branchCondition i = some (c, offset) → ∃ target : BitVec s.bits,
      (target.toNat : Int) = s.successor i % s.modulus ∧ ∀ e, exec i s = .fault e ↔
        (target.toNat % 4 ≠ 0 ∧ ∀ offset, s.branchCondition i ≠ some (false, offset)) ∧
          e = .instructionAddressMisaligned (target.setWidth 64) := by
    intro c offset h
    rw [successor_of_branch h, exec_branch h, h]
    cases c with
    | false => exact ⟨s.nextPc, s.nextPc_emod.symm, fun e => by simp [State.branch_fault]⟩
    | true => exact ⟨_, s.pcTarget_emod offset (by decide), fun e => by simp [State.branch_fault]⟩
  cases i with
  | beq | bne | blt | bge | bltu | bgeu => exact branch _ _ rfl
  | jal rd offset =>
    exact ⟨_, s.pcTarget_emod offset (by decide), fun e => State.jump_fault.trans (by simp [State.branchCondition])⟩
  | jalr rd rs1 imm =>
    exact ⟨_, s.jalrTarget_emod rs1 imm, fun e => State.jump_fault.trans (by simp [State.branchCondition])⟩
  | _ => cases hi

/-- Settles O31, by `exec_transfer_fault`. -/
theorem misalignedTargetsFault : Obligations.MisalignedTargetsFault := by
  intro s i hi
  obtain ⟨target, htarget, hfault⟩ := exec_transfer_fault hi
  rw [← htarget]
  refine ⟨?_, fun a ha => ?_⟩
  · constructor
    · rintro ⟨a, ha⟩
      obtain ⟨⟨hmis, hno⟩, -⟩ := (hfault _).1 ha
      exact ⟨by exact_mod_cast hmis, hno⟩
    · rintro ⟨hmis, hno⟩
      exact ⟨_, (hfault _).2 ⟨⟨by exact_mod_cast hmis, hno⟩, rfl⟩⟩
  · obtain ⟨-, he⟩ := (hfault _).1 ha
    cases he
    rw [s.toNat_setWidth]

/-! ## Refused terms (30_encoding.md R65 to R67) -/

/-- Settles O32: by the eight values of `frm`. -/
theorem effectiveRoundingMode : Obligations.EffectiveRoundingMode := by
  intro s
  refine ⟨rfl, rfl, rfl, rfl, rfl, ?_⟩
  have hall : ∀ b : BitVec 3, roundModeOfBits b = if b = 0#3 then some .rne else if b = 1#3 then some .rtz
      else if b = 2#3 then some .rdn else if b = 3#3 then some .rup else if b = 4#3 then some .rmm else none := by decide
  exact hall s.frm

theorem State.listed_of_not_wellFormed {s : State} {i : Instr} (h : i.wellFormed s.launch.variant = false) (k : Result) :
    s.listed i k = .refused (.unlistedEncoding (encode i)) := by
  rw [State.listed_eq, h]; rfl

/-- Settles O44: an instruction that some variant lacks is listed before it runs. -/
theorem unavailableInstructionsAreRefused : Obligations.UnavailableInstructionsAreRefused := by
  intro s i hwf htransfer
  have listed : ∀ k, exec i s = s.listed i k → exec i s = .refused (.unlistedEncoding (encode i)) :=
    fun k hk => hk.trans (State.listed_of_not_wellFormed hwf k)
  cases i with
  | beq | bne | blt | bge | bltu | bgeu | jal | jalr => cases htransfer
  | lb | lh | lw | lbu | lhu | addi | slti | sltiu | xori | ori | andi | auipc | sb | sh | sw | add | sub | sll | slt | sltu
    | xor | srl | sra | or | and | lui => cases hwf
  | _ => exact listed _ rfl

theorem State.withRounding_reserved {s : State} {i : Instr} {rm : RmField} (h : s.effectiveRm rm = none)
    (k : RoundMode → Result) : s.withRounding i rm k = .refused (.unlistedEncoding (encode i)) := by
  rw [State.withRounding, h]; rfl

/-- Settles O43: listed or not, the instruction is refused by its word. -/
theorem reservedDynamicRoundingIsRefused : Obligations.ReservedDynamicRoundingIsRefused := by
  intro s i hrm hfrm
  have hnone : s.effectiveRm .dyn = none := State.effectiveRm_eq_none.2 ⟨rfl, hfrm⟩
  have rounded : ∀ k, exec i s = s.listed i (s.withRounding i .dyn k) →
      exec i s = .refused (.unlistedEncoding (encode i)) := by
    intro k hk
    rw [hk, State.withRounding_reserved hnone, State.listed_eq, ite_self]
  cases i with
  | fmaddS | fmaddD | fmsubS | fmsubD | fnmsubS | fnmsubD | fnmaddS | fnmaddD | faddS | faddD | fsubS | fsubD | fmulS | fmulD
    | fdivS | fdivD | fsqrtS | fsqrtD | fcvtWS | fcvtWuS | fcvtSW | fcvtSWu | fcvtWD | fcvtWuD | fcvtDW | fcvtDWu | fcvtSD
    | fcvtDS => cases hrm; exact rounded _ rfl
  | _ => cases hrm

/-! ## How executing an instruction can end

`Ends` says it once, for every instruction; the rules below are read off its cases. -/

/-- The exceptions that an instruction raises, when, and with what information (60_exceptions.md R241). -/
inductive Raises (i : Instr) (s : State) : Fault → Prop
  | target {target : BitVec s.bits} (htransfer : i.isTransfer = true)
      (htarget : (target.toNat : Int) = s.successor i % s.modulus) (hmis : target.toNat % 4 ≠ 0) :
      Raises i s (.instructionAddressMisaligned (target.setWidth 64))
  | loadMisaligned {n : Nat} {rs1 : RegIdx} {imm : BitVec 12} (hload : i.isLoad = true)
      (hop : i.memOperand = some (n, rs1, imm)) (hmis : s.misaligned (s.effAddr rs1 imm) n = true) :
      Raises i s (.loadAddressMisaligned ((s.effAddr rs1 imm).setWidth 64))
  | loadOutside {n : Nat} {rs1 : RegIdx} {imm : BitVec 12} (hload : i.isLoad = true)
      (hop : i.memOperand = some (n, rs1, imm))
      (hout : ∃ a ∈ s.accessAddrs (s.effAddr rs1 imm) n, inRegions s.launch.memMap.read a = false) :
      Raises i s (.loadAccessFault ((s.effAddr rs1 imm).setWidth 64))
  | storeMisaligned {n : Nat} {rs1 : RegIdx} {imm : BitVec 12} (hstore : i.isStore = true)
      (hop : i.memOperand = some (n, rs1, imm)) (hmis : s.misaligned (s.effAddr rs1 imm) n = true) :
      Raises i s (.storeAddressMisaligned ((s.effAddr rs1 imm).setWidth 64))
  | storeOutside {n : Nat} {rs1 : RegIdx} {imm : BitVec 12} (hstore : i.isStore = true)
      (hop : i.memOperand = some (n, rs1, imm))
      (hout : ∃ a ∈ s.accessAddrs (s.effAddr rs1 imm) n, inRegions s.launch.memMap.write a = false) :
      Raises i s (.storeAccessFault ((s.effAddr rs1 imm).setWidth 64))

/-- What executing `i` in `s` can answer: a refusal, an exception of `Raises`, or a state that differs from `s` in the one
place that the instruction writes, and in the pc. -/
inductive Ends (i : Instr) (s : State) : Result → Prop
  | refused (r : Refusal) : Ends i s (.refused r)
  | raised {e : Fault} (h : Raises i s e) : Ends i s (.fault e)
  | wroteX (rd : RegIdx) (v : BitVec s.bits) (fl : FpFlags) (hdest : i.destX = some rd)
      (hfloat : i.isFloat = false → fl = 0#5) (hpc : s.successor i = s.upc + 4) :
      Ends i s (.next ((s.writeX rd v).accrue fl).advance)
  | wroteF (fd : RegIdx) (F : Prec) (v : BitVec F.width) (fl : FpFlags) (hdest : i.destF = some fd)
      (hhas : s.launch.variant.has F = true) (hfloat : i.isFloat = true) (hpc : s.successor i = s.upc + 4) :
      Ends i s (.next ((s.fput F fd v).accrue fl).advance)
  | stored {n : Nat} (addr : BitVec s.bits) (v : BitVec (8 * n)) (hstore : i.isStore = true)
      (hpc : s.successor i = s.upc + 4) : Ends i s (.next ({ s with mem := s.storeBits addr n v } : State).advance)
  | moved (target : BitVec s.bits) (haligned : target.toNat % 4 = 0 ∨ target = s.nextPc)
      (htarget : (target.toNat : Int) = s.successor i % s.modulus) : Ends i s (.next (s.setPc (target.setWidth 64)))
  | linked (rd : RegIdx) (target : BitVec s.bits) (hdest : i.destX = some rd) (haligned : target.toNat % 4 = 0)
      (htarget : (target.toNat : Int) = s.successor i % s.modulus) :
      Ends i s (.next ((s.writeX rd s.nextPc).setPc (target.setWidth 64)))

@[simp] theorem State.accrue_none (s : State) : s.accrue 0#5 = s := by simp [State.accrue]

section Ends

variable {i : Instr} {s : State}

theorem ends_retireX {rd : RegIdx} (v : BitVec s.bits) (hdest : i.destX = some rd) (hpc : s.successor i = s.upc + 4) :
    Ends i s (s.retireX rd v) := by
  have h := Ends.wroteX rd v 0#5 hdest (fun _ => rfl) hpc
  rwa [State.accrue_none] at h

theorem ends_retireXF {rd : RegIdx} (v : BitVec s.bits) (fl : FpFlags) (hdest : i.destX = some rd)
    (hfloat : i.isFloat = true) (hpc : s.successor i = s.upc + 4) : Ends i s (s.retireXF rd v fl) :=
  .wroteX rd v fl hdest (fun h => by rw [hfloat] at h; cases h) hpc

theorem ends_fput {fd : RegIdx} (F : Prec) (v : BitVec F.width) (hdest : i.destF = some fd)
    (hhas : s.launch.variant.has F = true) (hfloat : i.isFloat = true) (hpc : s.successor i = s.upc + 4) :
    Ends i s (.next (s.fput F fd v).advance) := by
  have h := Ends.wroteF fd F v 0#5 hdest hhas hfloat hpc
  rwa [State.accrue_none] at h

theorem ends_retireF {fd : RegIdx} (F : Prec) (r : BitVec F.width × FpFlags) (hdest : i.destF = some fd)
    (hhas : s.launch.variant.has F = true) (hfloat : i.isFloat = true) (hpc : s.successor i = s.upc + 4) :
    Ends i s (s.retireF F fd r) :=
  .wroteF fd F r.1 r.2 hdest hhas hfloat hpc

theorem ends_listed {k : Result} (h : i.wellFormed s.launch.variant = true → Ends i s k) : Ends i s (s.listed i k) := by
  rw [State.listed_eq]
  split
  · exact h ‹_›
  · exact .refused _

theorem ends_withRounding {rm : RmField} {k : RoundMode → Result} (h : ∀ r, Ends i s (k r)) :
    Ends i s (s.withRounding i rm k) := by
  unfold State.withRounding refuse
  split
  · exact .refused _
  · exact h _

theorem ends_roundedF {rm : RmField} {F : Prec} {fd : RegIdx} {op : RoundMode → BitVec F.width × FpFlags}
    (hdest : i.destF = some fd) (hhas : i.wellFormed s.launch.variant = true → s.launch.variant.has F = true)
    (hfloat : i.isFloat = true) (hpc : s.successor i = s.upc + 4) : Ends i s (s.roundedF i rm F fd op) :=
  ends_listed fun hwf => ends_withRounding fun _ => ends_retireF F _ hdest (hhas hwf) hfloat hpc

theorem ends_roundedX {rm : RmField} {rd : RegIdx} {op : RoundMode → BitVec 32 × FpFlags}
    (hdest : i.destX = some rd) (hfloat : i.isFloat = true) (hpc : s.successor i = s.upc + 4) :
    Ends i s (s.roundedX i rm rd op) :=
  ends_listed fun _ => ends_withRounding fun _ => ends_retireXF _ _ hdest hfloat hpc

/-- A load: one of its two faults, or what follows the read. -/
theorem ends_load {n : Nat} {rs1 : RegIdx} {imm : BitVec 12} {k : BitVec (8 * n) → Result} (hload : i.isLoad = true)
    (hop : i.memOperand = some (n, rs1, imm)) (h : ∀ d, Ends i s (k d)) :
    Ends i s (s.load (s.effAddr rs1 imm) n k) := by
  unfold State.load
  cases hmis : s.misaligned (s.effAddr rs1 imm) n with
  | true => rw [State.memRead_misaligned hmis]; exact .raised (.loadMisaligned hload hop hmis)
  | false =>
    by_cases hout : ∃ a ∈ s.accessAddrs (s.effAddr rs1 imm) n, inRegions s.launch.memMap.read a = false
    · rw [State.memRead_outside hmis hout]; exact .raised (.loadOutside hload hop hout)
    · rw [← State.all_inRegions_eq_false, Bool.not_eq_false] at hout
      rw [State.memRead_ok.2 ⟨State.accessible_iff.2 ⟨hmis, hout⟩, rfl⟩]
      exact h _

/-- A store: one of its two faults, the refusal of program text, or the bytes written. -/
theorem ends_store {n : Nat} {rs1 : RegIdx} {imm : BitVec 12} (v : BitVec (8 * n)) (hstore : i.isStore = true)
    (hop : i.memOperand = some (n, rs1, imm)) (hpc : s.successor i = s.upc + 4) :
    Ends i s (s.store (s.effAddr rs1 imm) n v) := by
  cases hmis : s.misaligned (s.effAddr rs1 imm) n with
  | true => rw [State.store, State.memWrite_misaligned v hmis]; exact .raised (.storeMisaligned hstore hop hmis)
  | false =>
    by_cases hout : ∃ a ∈ s.accessAddrs (s.effAddr rs1 imm) n, inRegions s.launch.memMap.write a = false
    · rw [State.store, State.memWrite_outside v hmis hout]; exact .raised (.storeOutside hstore hop hout)
    · rw [← State.all_inRegions_eq_false, Bool.not_eq_false] at hout
      have haccess := State.accessible_iff.2 ⟨hmis, hout⟩
      by_cases htext : ∃ a ∈ s.accessAddrs (s.effAddr rs1 imm) n, inRegions s.launch.memMap.exec a = true
      · rw [State.store_text v haccess htext]; exact .refused _
      · rw [State.store_next.2 ⟨haccess, by simpa using htext, rfl⟩]; exact .stored _ v hstore hpc

theorem ends_branch {c : Bool} {offset : BitVec 13} (hi : i.isTransfer = true)
    (h : s.branchCondition i = some (c, offset)) : Ends i s (s.branch c offset) := by
  have hsucc := successor_of_branch h
  cases c with
  | false => exact .moved s.nextPc (.inr rfl) (by rw [hsucc]; exact s.nextPc_emod.symm)
  | true =>
    have htarget : ((s.pcX + s.sext offset).toNat : Int) = s.successor i % s.modulus := by
      rw [hsucc]; exact s.pcTarget_emod offset (by decide)
    by_cases hal : (s.pcX + s.sext offset).toNat % 4 = 0
    · rw [State.branch_next.2 (.inl ⟨rfl, hal, rfl⟩)]; exact .moved _ (.inl hal) htarget
    · rw [State.branch_fault.2 ⟨rfl, hal, rfl⟩]; exact .raised (.target hi htarget hal)

theorem ends_jump {rd : RegIdx} {target : BitVec s.bits} (hi : i.isTransfer = true) (hdest : i.destX = some rd)
    (htarget : (target.toNat : Int) = s.successor i % s.modulus) : Ends i s (s.jump rd target) := by
  by_cases hal : target.toNat % 4 = 0
  · rw [State.jump_next.2 ⟨hal, rfl⟩]; exact .linked rd target hdest hal htarget
  · rw [State.jump_fault.2 ⟨hal, rfl⟩]; exact .raised (.target hi htarget hal)

end Ends

/-- `HAS_D` implies `HAS_F` (00_scope.md R3). -/
theorem hasF_of_hasD {v : Variant} (h : v.hasD = true) : v.hasF = true := by
  revert h; unfold Variant.hasD Variant.hasF; cases v.fp <;> simp

/-- Every instruction, by the shared operation that its meaning ends in. -/
theorem exec_ends (i : Instr) (s : State) : Ends i s (exec i s) := by
  cases i with
  | lb | lh | lw | lbu | lhu => exact ends_load rfl rfl fun _ => ends_retireX _ rfl rfl
  | ld | lwu => exact ends_listed fun _ => ends_load rfl rfl fun _ => ends_retireX _ rfl rfl
  | flw | fld => exact ends_listed fun hwf => ends_load rfl rfl fun _ => ends_fput _ _ rfl hwf rfl rfl
  | sb | sh | sw => exact ends_store _ rfl rfl rfl
  | sd | fsw | fsd => exact ends_listed fun _ => ends_store _ rfl rfl rfl
  | addi | slti | sltiu | xori | ori | andi | auipc | lui | add | sub | sll | slt | sltu | xor | srl | sra | or | and =>
    exact ends_retireX _ rfl rfl
  | slli | srli | srai | addiw | slliw | srliw | sraiw | addw | subw | sllw | srlw | sraw | fclassS | fclassD | fmvXW =>
    exact ends_listed fun _ => ends_retireX _ rfl rfl
  | beq | bne | blt | bge | bltu | bgeu => rw [exec_branch rfl]; exact ends_branch rfl rfl
  | jal _ offset => exact ends_jump rfl rfl (s.pcTarget_emod offset (by decide))
  | jalr _ rs1 imm => exact ends_jump rfl rfl (s.jalrTarget_emod rs1 imm)
  | fmaddS | fmaddD | fmsubS | fmsubD | fnmsubS | fnmsubD | fnmaddS | fnmaddD | faddS | faddD | fsubS | fsubD | fmulS | fmulD
    | fdivS | fdivD | fsqrtS | fsqrtD | fcvtSW | fcvtSWu | fcvtDW | fcvtDWu | fcvtDS =>
    exact ends_roundedF rfl id rfl rfl
  | fcvtSD => -- the result is a single, on a variant that has doubles
    exact ends_roundedF rfl hasF_of_hasD rfl rfl
  | fcvtWS | fcvtWuS | fcvtWD | fcvtWuD => exact ends_roundedX rfl rfl rfl
  | fsgnjS | fsgnjD | fsgnjnS | fsgnjnD | fsgnjxS | fsgnjxD | fmvWX =>
    exact ends_listed fun hwf => ends_fput _ _ rfl hwf rfl rfl
  | fminS | fminD | fmaxS | fmaxD => exact ends_listed fun hwf => ends_retireF _ _ rfl hwf rfl rfl
  | feqS | feqD | fltS | fltD | fleS | fleD => exact ends_listed fun _ => ends_retireXF _ _ rfl rfl rfl

/-! ## Rules read off `Ends` -/

theorem ends_of_next {i : Instr} {s t : State} (h : exec i s = .next t) : Ends i s (.next t) := h ▸ exec_ends i s

/-- Settles O48: every way to end leaves the pc at the successor. -/
theorem pcRule : Obligations.PcRule := by
  intro s t i h
  cases ends_of_next h with
  | wroteX rd v fl _ _ hpc =>
    obtain ⟨u, hu, hwrote⟩ := s.retireXF_eq rd v fl
    cases hu
    rw [hpc]; exact hwrote.pc
  | wroteF fd F v fl _ _ _ hpc => rw [hpc]; exact s.nextPc_toNat
  | stored addr v _ hpc => rw [hpc]; exact s.nextPc_toNat
  | moved target _ htarget => rw [← htarget, State.setPc_pc, s.toNat_setWidth]
  | linked rd target _ _ htarget => rw [← htarget, State.setPc_pc, s.toNat_setWidth]

theorem State.gpr_writeX_of_dest {s : State} {i : Instr} {rd j : RegIdx} (v : BitVec s.bits) (hdest : i.destX = some rd)
    (hj : i.destX ≠ some j) : (s.writeX rd v).gpr j = s.gpr j := by
  rw [State.writeX_gpr, if_neg]
  rintro ⟨rfl, -⟩
  exact hj hdest

/-- Settles O49: what is written is the destination of the one file, and nothing of the other. -/
theorem onlyTheDestinationRegisterChanges : Obligations.OnlyTheDestinationRegisterChanges := by
  intro s t i h
  refine ⟨fun j hj => ?_, fun j hj => ?_, State.gpr_zero t⟩
  · cases ends_of_next h with
    | wroteX rd v fl hdest => exact State.gpr_writeX_of_dest v hdest hj
    | linked rd target hdest => exact State.gpr_writeX_of_dest _ hdest hj
    | wroteF | stored | moved => rfl
  · cases ends_of_next h with
    | wroteX rd v fl hdest => simp
    | linked rd target hdest => simp
    | wroteF fd F v fl hdest =>
      rw [State.advance_fpr, State.accrue_fpr, State.fput_fpr, if_neg]
      rintro rfl
      exact hj hdest
    | stored | moved => rfl

/-- Settles O50, by the frame of every instruction that is no store. -/
theorem onlyStoresWriteMemory : Obligations.OnlyStoresWriteMemory :=
  fun _ _ _ h hstore => (exec_keepsMem hstore).mem h

/-- Settles O51: an integer instruction writes no floating-point register and accrues nothing. -/
theorem integerInstructionsLeaveFloatState : Obligations.IntegerInstructionsLeaveFloatState := by
  intro s t i h hi
  cases ends_of_next h with
  | wroteX rd v fl _ hfloat => simp [hfloat hi]
  | wroteF fd F v fl _ _ hfloat => rw [hi] at hfloat; cases hfloat
  | linked => simp
  | stored | moved => exact ⟨rfl, rfl, rfl⟩

/-- Flags accrued on top of others leave those set. -/
theorem or_and_self_left (a b : FpFlags) : (a ||| b) &&& a = a := by
  refine BitVec.eq_of_getLsbD_eq fun i _ => ?_
  rw [BitVec.getLsbD_and, BitVec.getLsbD_or]
  cases a.getLsbD i <;> simp

theorem exec_keepsLaunch {s t : State} {i : Instr} (h : exec i s = .next t) :
    t.launch = s.launch ∧ t.frm = s.frm ∧ t.fflags &&& s.fflags = s.fflags := by
  cases ends_of_next h with
  | wroteX rd v fl => simp [or_and_self_left]
  | wroteF fd F v fl => simp [or_and_self_left]
  | linked => simp
  | stored | moved => exact ⟨rfl, rfl, BitVec.and_self⟩

/-- Settles O52: of the instruction that the step executes. -/
theorem frmIsFixedAndFlagsOnlyAccrue : Obligations.FrmIsFixedAndFlagsOnlyAccrue := by
  intro s t h
  obtain ⟨-, w, i, -, -, hexec⟩ := step_next h
  exact exec_keepsLaunch hexec

theorem memOperand_size {i : Instr} {n : Nat} {rs1 : RegIdx} {imm : BitVec 12} (h : i.memOperand = some (n, rs1, imm)) :
    n = 1 ∨ n = 2 ∨ n = 4 ∨ n = 8 := by
  unfold Instr.memOperand at h
  split at h <;> cases h <;> simp

/-- A byte is always aligned. -/
theorem one_lt_of_misaligned {i : Instr} {n a : Nat} {rs1 : RegIdx} {imm : BitVec 12}
    (hop : i.memOperand = some (n, rs1, imm)) (hmis : a % n ≠ 0) : 1 < n := by
  rcases memOperand_size hop with rfl | rfl | rfl | rfl <;> omega

/-- Settles O54: the exceptions are those of `Raises`, case by case. -/
theorem onlyTheseExceptions : Obligations.OnlyTheseExceptions := by
  intro s i e h
  have hends := exec_ends i s
  rw [h] at hends
  cases hends with
  | raised hraises =>
    cases hraises with
    | target htransfer htarget hmis =>
      refine .inl ⟨_, rfl, htransfer, ?_, ?_⟩ <;> rw [s.toNat_setWidth]
      · exact htarget
      · exact hmis
    | @loadMisaligned n rs1 imm hload hop hmis =>
      obtain ⟨hmis, hlaunch⟩ := State.misaligned_eq_true.1 hmis
      exact .inr ⟨n, rs1, imm, hop, .inl ⟨hload, .inl ⟨rfl, one_lt_of_misaligned hop hmis, hmis, hlaunch⟩⟩⟩
    | @loadOutside n rs1 imm hload hop hout => exact .inr ⟨n, rs1, imm, hop, .inl ⟨hload, .inr ⟨rfl, hout⟩⟩⟩
    | @storeMisaligned n rs1 imm hstore hop hmis =>
      obtain ⟨hmis, hlaunch⟩ := State.misaligned_eq_true.1 hmis
      exact .inr ⟨n, rs1, imm, hop, .inr ⟨hstore, .inl ⟨rfl, one_lt_of_misaligned hop hmis, hmis, hlaunch⟩⟩⟩
    | @storeOutside n rs1 imm hstore hop hout => exact .inr ⟨n, rs1, imm, hop, .inr ⟨hstore, .inr ⟨rfl, hout⟩⟩⟩

theorem State.fetch_error {s : State} {e : Fault} (h : s.fetch = .error e) :
    e = .instructionAccessFault (s.pcX.setWidth 64) := by
  unfold State.fetch at h
  split at h <;> cases h
  rfl

theorem exec_ne_runEnded (i : Instr) (s : State) : exec i s ≠ .fault .runEnded := by
  intro h
  have hends := exec_ends i s
  rw [h] at hends
  cases hends with
  | raised hraises => cases hraises

/-- Settles O10: away from `END_PC` the step answers the fetch's exception, a refusal, or what the instruction answers. -/
theorem runEndedExactlyAtEndPc : Obligations.RunEndedExactlyAtEndPc := by
  refine fun s => ⟨fun h => ?_, step_of_atEnd⟩
  by_contra hend
  rcases step_eq_of_fetch (Bool.not_eq_true _ ▸ hend) with ⟨e, hfetch, he⟩ | ⟨r, hr⟩ | ⟨w, i, -, -, hi⟩
  · rw [he, State.fetch_error hfetch] at h; cases h
  · rw [hr] at h; cases h
  · exact exec_ne_runEnded i s (hi.symm.trans h)

/-! ## Reset and the invariant -/

/-- Settles O45: by evaluation. -/
theorem resetState : Obligations.ResetState := ⟨rfl, rfl, rfl, rfl, by decide, rfl⟩

/-- Settles O46: every register holds zero, and memory lists nothing. -/
theorem invariantAtReset : Obligations.InvariantAtReset where
  launch_wf := by decide
  pc_lt := by decide
  pc_aligned := by decide
  x_lt i := by simp [State.reset]
  x_zero := rfl
  f_lt i := by simp [State.reset]
  frm_reset := rfl
  mem_wf := rfl
  mem_below := rfl

/-- The container of a result is within `FLEN` bits. -/
theorem State.resultBits_lt (s : State) {F : Prec} (hhas : s.launch.variant.has F = true) (v : BitVec F.width) :
    (s.resultBits F v).toNat < 2 ^ s.launch.variant.flen := by
  cases hfp : s.launch.variant.fp with
  | none => cases F <;> simp [Variant.has, Variant.hasF, Variant.hasD, hfp] at hhas
  | f =>
    cases F with
    | s =>
      simp only [State.resultBits, State.singleBits, Variant.flen, hfp]
      exact (BitVec.toNat_setWidth_of_le (by decide : 32 ≤ 64) : (v.setWidth 64).toNat = v.toNat) ▸ v.isLt
    | d => simp [Variant.has, Variant.hasD, hfp] at hhas
  | fd => simp only [Variant.flen, hfp]; exact BitVec.isLt _

section Invariant

variable {s : State} (h : Inv s)
include h

theorem Inv.setPc {target : XWord} (hlt : target.toNat < 2 ^ s.bits) (haligned : target.toNat % 4 = 0) :
    Inv (s.setPc target) :=
  { h with pc_lt := hlt, pc_aligned := haligned }

theorem Inv.accrue (fl : FpFlags) : Inv (s.accrue fl) := { h with }

theorem Inv.nextPc_aligned : s.nextPc.toNat % 4 = 0 := by
  have haligned := h.pc_aligned
  have hpc : s.pcX.toNat = s.pc.toNat := by rw [State.pcX, BitVec.toNat_setWidth, Nat.mod_eq_of_lt h.pc_lt]
  have hdvd : 4 ∣ 2 ^ s.bits := by rcases s.bits_cases with hb | hb <;> rw [hb] <;> norm_num
  rw [State.nextPc, BitVec.toNat_add, BitVec.toNat_ofNat, Nat.add_mod_mod, hpc, Nat.mod_mod_of_dvd _ hdvd]
  omega

theorem Inv.advance : Inv s.advance :=
  h.setPc (by rw [s.toNat_setWidth]; exact s.toNat_lt _) (by rw [s.toNat_setWidth]; exact h.nextPc_aligned)

theorem Inv.writeX (rd : RegIdx) (v : BitVec s.bits) : Inv (s.writeX rd v) := by
  unfold State.writeX
  split
  · exact h
  · rename_i hrd
    have hne : rd.toNat ≠ 0 := fun h0 => hrd (BitVec.eq_of_toNat_eq h0)
    refine { h with x_lt := fun i => ?_, x_zero := ?_ }
    · by_cases hi : rd.toNat = i
      · simpa [hi] using lt_of_le_of_lt (Nat.mod_le _ _) (s.toNat_lt v)
      · simpa [Vector.getElem_set, hi] using h.x_lt i
    · simpa [Vector.getElem_set, hne] using h.x_zero

theorem Inv.fput {F : Prec} (hhas : s.launch.variant.has F = true) (fd : RegIdx) (v : BitVec F.width) :
    Inv (s.fput F fd v) := by
  refine { h with f_lt := fun i => ?_ }
  by_cases hi : fd.toNat = i
  · simpa [Vector.getElem_set, hi] using s.resultBits_lt hhas v
  · simpa [Vector.getElem_set, hi] using h.f_lt i

theorem Inv.withStoreBits (addr : BitVec s.bits) {n : Nat} (v : BitVec (8 * n)) :
    Inv ({ s with mem := s.storeBits addr n v } : State) :=
  { h with
    mem_wf := Memory.setAll_wf h.mem_wf
    mem_below := Memory.setAll_below (s.accessAddrs_lt addr n) h.mem_below }

end Invariant

/-- Settles O47: each way for the executed instruction to end is a chain of updates that keep the invariant. -/
theorem stepKeepsInvariant : Obligations.StepKeepsInvariant := by
  intro s t hinv hstep
  obtain ⟨-, w, i, -, -, hexec⟩ := step_next hstep
  cases ends_of_next hexec with
  | wroteX rd v fl => exact ((hinv.writeX _ v).accrue fl).advance
  | wroteF fd F v fl _ hhas => exact ((hinv.fput hhas _ v).accrue fl).advance
  | stored addr v => exact (hinv.withStoreBits addr v).advance
  | moved target haligned =>
    refine hinv.setPc (by rw [s.toNat_setWidth]; exact s.toNat_lt _) ?_
    rw [s.toNat_setWidth]
    rcases haligned with haligned | rfl
    · exact haligned
    · exact hinv.nextPc_aligned
  | linked rd target _ haligned =>
    refine (hinv.writeX rd s.nextPc).setPc ?_ ?_ <;> rw [s.toNat_setWidth]
    · unfold State.bits; rw [State.writeX_launch]; exact s.toNat_lt target
    · exact haligned

end Sys2Proof.Machine

/-! PROOFS. The integer instructions: each completes with its result and its frame (40_rv32i_loads.md to 45_rv64i.md). -/

namespace Sys2Proof.Machine

/-- An instruction that the variant has runs what stands behind the check. -/
theorem exec_of_listed {s : State} {i : Instr} {k : Result} (hi : exec i s = s.listed i k)
    (hwf : i.wellFormed s.launch.variant = true) : exec i s = k := hi.trans (State.listed_of_wellFormed hwf k)

/-! ## Loads -/

theorem State.load_of_accessible {s : State} {addr : BitVec s.bits} {n : Nat}
    (h : s.Accessible s.launch.memMap.read addr n) (k : BitVec (8 * n) → Result) :
    s.load addr n k = k (s.loadBits addr n) := by
  rw [State.load, State.memRead_ok.2 ⟨h, rfl⟩]

theorem State.zext_emod (s : State) {n : Nat} (v : BitVec n) : (v.toNat : Int) % s.modulus = (s.zext v).toNat := by
  rw [State.zext, BitVec.toNat_setWidth]; unfold State.modulus; push_cast; rfl

/-- A load that extends its data into an integer register. -/
theorem CompletesX.of_load {s : State} {i : Instr} {rd : RegIdx} {addr : BitVec s.bits} {n : Nat}
    {extend : BitVec (8 * n) → BitVec s.bits} {z : Int}
    (hi : exec i s = s.load addr n fun data => s.retireX rd (extend data))
    (haccess : s.Accessible s.launch.memMap.read addr n)
    (hz : z % s.modulus = (extend (s.loadBits addr n)).toNat) : CompletesX i s rd z 0#5 :=
  .of_retireX (hi.trans (State.load_of_accessible haccess _)) hz

/-- Settles O15: each is `State.load` and an extension into `x[rd]`. -/
theorem integerLoadsComplete : Obligations.IntegerLoadsComplete := by
  intro s rd rs1 imm addr readable
  have hbits := s.thirtyTwo_le_bits
  refine ⟨fun h => .of_load rfl h (s.sext_emod _ ?_), fun h => .of_load rfl h (s.sext_emod _ ?_),
    fun h => .of_load rfl h (s.sext_emod _ ?_), fun h => .of_load rfl h (s.zext_emod _),
    fun h => .of_load rfl h (s.zext_emod _), fun h64 => ⟨fun h => ?_, fun h => ?_⟩⟩
  · omega
  · omega
  · omega
  · exact .of_load (exec_of_listed rfl h64) h (s.sext_emod _ (State.bits_of_is64 h64).ge)
  · exact .of_load (exec_of_listed rfl h64) h (s.zext_emod _)

/-- A single in its container, by the width of the registers (46_rvfd_compute.md R183). -/
theorem State.singleBits_eq {s : State} (hF : s.launch.variant.hasF = true) (v : BitVec 32) :
    s.singleBits v = if s.launch.variant.hasD = true then 0xffffffff#32 ++ v else 0#32 ++ v := by
  unfold State.singleBits
  revert hF
  unfold Variant.hasF Variant.hasD
  cases s.launch.variant.fp with
  | none => simp
  | f =>
    intro _
    exact BitVec.setWidth_eq_append (by decide : 32 ≤ 64)
  | fd => intro _; rfl

/-- Settles O16: each is `State.load` and `State.fput`. -/
theorem floatLoadsComplete : Obligations.FloatLoadsComplete := by
  intro s fd rs1 imm addr
  refine ⟨fun hF h => ?_, fun hD h => ?_⟩
  · rw [← State.singleBits_eq hF]
    exact ⟨_, (exec_of_listed (i := .flw fd rs1 imm) rfl hF).trans (State.load_of_accessible h _), s.fput_wrote .s fd _⟩
  · exact ⟨_, (exec_of_listed (i := .fld fd rs1 imm) rfl hD).trans (State.load_of_accessible h _), s.fput_wrote .d fd _⟩

/-- A load is `State.load` at its operand's effective address. -/
theorem exec_load_eq {s : State} {i : Instr} {n : Nat} {rs1 : RegIdx} {imm : BitVec 12} (hload : i.isLoad = true)
    (hop : i.memOperand = some (n, rs1, imm)) (hwf : i.wellFormed s.launch.variant = true) :
    ∃ k, exec i s = s.load (s.effAddr rs1 imm) n k := by
  cases i with
  | lb | lh | lw | lbu | lhu => cases hop; exact ⟨_, rfl⟩
  | ld | lwu | flw | fld => cases hop; exact ⟨_, State.listed_of_wellFormed hwf _⟩
  | _ => cases hload

/-- Settles O17: the two checks of `memRead`, before anything else of the load. -/
theorem loadsFault : Obligations.LoadsFault := by
  intro s i n rs1 imm hload hop hwf addr
  obtain ⟨k, hk⟩ := exec_load_eq hload hop hwf
  refine ⟨fun hfault hmis => ?_, fun haligned hout => ?_⟩
  · rw [hk, State.load, State.memRead_misaligned (State.misaligned_eq_true.2 ⟨hmis, hfault⟩)]; rfl
  · rw [hk, State.load,
      State.memRead_outside (State.misaligned_eq_false.2 haligned) (State.exists_touched.2 hout)]; rfl

/-! ## Stores -/

theorem CompletesStore.of_store {s : State} {i : Instr} {addr : BitVec s.bits} {n : Nat} {v : BitVec (8 * n)} {z : Nat}
    (hi : exec i s = s.store addr n v) (hm : s.mem.wf = true) (hn : n ≤ 8) (hz : v.toNat = z)
    (h : s.Accessible s.launch.memMap.write addr n ∧
      ∀ a ∈ s.accessAddrs addr n, inRegions s.launch.memMap.exec a = false) : CompletesStore i s addr n z := by
  obtain ⟨haccess, htext⟩ := h
  exact ⟨_, hi.trans (State.store_next.2 ⟨haccess, htext, rfl⟩), hz ▸ State.storeBits_stored hm addr hn v⟩

/-- Settles O18: each is `State.store` of its register at the effective address. -/
theorem storesComplete : Obligations.StoresComplete := by
  intro s rs2 rs1 imm hm addr writable
  refine ⟨.of_store rfl hm (by decide) (BitVec.toNat_setWidth ..), .of_store rfl hm (by decide) (BitVec.toNat_setWidth ..),
    .of_store rfl hm (by decide) (BitVec.toNat_setWidth ..), fun h64 => ?_, fun hF => ?_, fun hD => ?_⟩
  · exact .of_store (exec_of_listed rfl h64) hm le_rfl (s.toNat_setWidth _)
  · exact .of_store (exec_of_listed rfl hF) hm (by decide) (BitVec.toNat_setWidth ..)
  · exact .of_store (exec_of_listed rfl hD) hm le_rfl rfl

/-- Settles O19: the three checks of `memWrite`, in their order. -/
theorem storesStop : Obligations.StoresStop := by
  intro s i n rs1 imm hstore hop hwf addr
  obtain ⟨v, hv⟩ := exec_store_eq hstore hop hwf
  refine ⟨fun hfault hmis => ?_, fun haligned hout => ?_, fun haccess htext => ?_⟩
  · rw [hv, State.store, State.memWrite_misaligned v (State.misaligned_eq_true.2 ⟨hmis, hfault⟩)]; rfl
  · rw [hv, State.store,
      State.memWrite_outside v (State.misaligned_eq_false.2 haligned) (State.exists_touched.2 hout)]; rfl
  · rw [hv, State.store_text v haccess (State.exists_touched.2 htext)]

/-- What a store has written at an effective address is what is read there in the state after it. -/
theorem State.loadBits_of_store {s t : State} {rs1 : RegIdx} {imm : BitVec 12} {n : Nat} {v : BitVec (8 * n)}
    (hm : s.mem.wf = true) (hn : n ≤ 8) (hstore : s.store (s.effAddr rs1 imm) n v = .next t) :
    t.loadBits (t.effAddr rs1 imm) n = v := by
  obtain ⟨-, -, rfl⟩ := State.store_next.1 hstore
  exact State.loadBits_storeBits hm _ hn v

/-- What `lw` that completes has loaded. -/
theorem lw_dest {t u : State} {rd rs1 : RegIdx} {imm : BitVec 12} (hrd : rd ≠ 0#5)
    (hload : exec (.lw rd rs1 imm) t = .next u) :
    ((u.gpr rd).toNat : Int) = (t.loadBits (t.effAddr rs1 imm) 4).toInt % t.modulus := by
  obtain ⟨haccess, -⟩ := State.load_next.1 hload
  obtain ⟨-, -, hlw, -⟩ := integerLoadsComplete t rd rs1 imm
  obtain ⟨u', hu', hwrote⟩ := hlw haccess
  obtain rfl : u' = u := Host.Outcome.next.inj (hu'.symm.trans hload)
  exact hwrote.dest hrd

/-- What `fld` that completes has loaded. -/
theorem fld_dest {t u : State} {fd rs1 : RegIdx} {imm : BitVec 12} (hload : exec (.fld fd rs1 imm) t = .next u) :
    u.fpr fd = t.loadBits (t.effAddr rs1 imm) 8 := by
  obtain ⟨hD, hloaded⟩ := State.listed_next.1 hload
  obtain ⟨haccess, -⟩ := State.load_next.1 hloaded
  obtain ⟨-, hfld⟩ := floatLoadsComplete t fd rs1 imm
  obtain ⟨u', hu', hwrote⟩ := hfld hD haccess
  obtain rfl : u' = u := Host.Outcome.next.inj (hu'.symm.trans hload)
  exact hwrote.dest

/-- Settles O20: the bytes that the load reads are those that the store wrote. -/
theorem loadReturnsTheStoredWord : Obligations.LoadReturnsTheStoredWord := by
  intro s t u rs2 rs1 rd imm hm hrd hstore hload
  have hmod : t.modulus = s.modulus := by
    obtain ⟨-, -, rfl⟩ := State.store_next.1 hstore
    rfl
  rw [lw_dest hrd hload, hmod, State.loadBits_of_store hm (by decide) hstore]

/-- Settles O21: as O20, and no bit of the pattern is read as a number on the way. -/
theorem floatLoadReturnsTheStoredDouble : Obligations.FloatLoadReturnsTheStoredDouble := by
  intro s t u fs2 rs1 fd imm hm hstore hload
  obtain ⟨-, hstored⟩ := State.listed_next.1 hstore
  rw [fld_dest hload, State.loadBits_of_store hm le_rfl hstored]

/-! ## Immediates and registers -/

/-- A comparison's value, from what it compares. -/
theorem State.boolBits_emod_of_iff (s : State) {p : Prop} [Decidable p] {c : Bool} (h : c = true ↔ p) :
    (if p then (1 : Int) else 0) % s.modulus = (s.boolBits c).toNat := by
  rw [← s.boolBits_emod]; simp only [h]

theorem State.toInt_sext_imm (s : State) (imm : BitVec 12) : (s.sext imm).toInt = imm.toInt :=
  BitVec.toInt_signExtend_of_le s.twelve_le_bits

/-- The immediate's bits at the register width, as the statements write them. -/
theorem State.toNat_sext_imm (s : State) (imm : BitVec 12) : (imm.toInt % s.modulus).toNat = (s.sext imm).toNat := by
  rw [s.sext_emod imm s.twelve_le_bits, Int.toNat_natCast]

/-- Settles O22: each operand is read as the number it stands for, signed or unsigned. -/
theorem immediateArithmetic : Obligations.ImmediateArithmetic := by
  intro s rd rs1 imm
  have himm := s.sext_emod imm s.twelve_le_bits
  rw [s.toNat_sext_imm]
  refine ⟨.of_retireX rfl (s.add_emod (s.ux_emod rs1) himm),
    .of_retireX rfl (s.boolBits_emod_of_iff ?_), .of_retireX rfl (s.boolBits_emod_of_iff ?_), .of_retireX rfl ?_,
    .of_retireX rfl ?_, .of_retireX rfl ?_⟩
  · rw [BitVec.slt, decide_eq_true_eq, s.toInt_sext_imm]; rfl
  · rw [BitVec.ult, decide_eq_true_eq, himm, State.ux, Int.ofNat_lt]
  · rw [← BitVec.toNat_xor]; exact s.toNat_emod _
  · rw [← BitVec.toNat_or]; exact s.toNat_emod _
  · rw [← BitVec.toNat_and]; exact s.toNat_emod _

/-- A shift amount below `XLEN` is one that the variant encodes. -/
theorem State.shamtOk_of_lt {s : State} {shamt : BitVec 6} (h : shamt.toNat < s.bits) :
    shamtOk s.launch.variant shamt = true := by
  unfold shamtOk
  split
  · rename_i hx
    unfold State.bits at h
    rw [hx] at h
    exact decide_eq_true h
  · rfl

/-- Settles O23: a shift is a product or a quotient with the power of two. -/
theorem immediateShifts : Obligations.ImmediateShifts := by
  intro s rd rs1 shamt h
  have hok := State.shamtOk_of_lt h
  exact ⟨.of_retireX (exec_of_listed rfl hok) (s.shiftLeft_emod _ _),
    .of_retireX (exec_of_listed rfl hok) (s.ushiftRight_emod _ _),
    .of_retireX (exec_of_listed rfl hok) (s.sshiftRight_emod _ _)⟩

theorem State.upperImm_emod (s : State) (upimm : BitVec 20) :
    (upimm.toInt * 2 ^ 12) % s.modulus = (s.upperImm upimm).toNat := by
  rw [← toInt_upperImm]; exact s.sext_emod _ s.thirtyTwo_le_bits

/-- Settles O24: the 32-bit value sign-extended is the signed number times `2^12`. -/
theorem upperImmediates : Obligations.UpperImmediates := fun s _ upimm =>
  ⟨.of_retireX rfl (s.upperImm_emod upimm), .of_retireX rfl (s.add_emod s.upc_emod (s.upperImm_emod upimm))⟩

/-- Settles O25: the operations on bit vectors are those on the integers they stand for. -/
theorem registerArithmetic : Obligations.RegisterArithmetic := by
  intro s rd rs1 rs2
  refine ⟨.of_retireX rfl (s.add_emod (s.ux_emod rs1) (s.ux_emod rs2)), .of_retireX rfl (s.sub_emod _ _),
    .of_retireX rfl (s.boolBits_emod_of_iff ?_), .of_retireX rfl (s.boolBits_emod_of_iff ?_), .of_retireX rfl ?_,
    .of_retireX rfl ?_, .of_retireX rfl ?_⟩
  · rw [BitVec.slt, decide_eq_true_eq]; rfl
  · rw [BitVec.ult, decide_eq_true_eq, State.ux, State.ux, Int.ofNat_lt]
  · rw [← BitVec.toNat_xor]; exact s.toNat_emod _
  · rw [← BitVec.toNat_or]; exact s.toNat_emod _
  · rw [← BitVec.toNat_and]; exact s.toNat_emod _

/-- Settles O26: the amount is `x[rs2]` modulo `XLEN`, and a shift is as in O23. -/
theorem registerShifts : Obligations.RegisterShifts := by
  intro s rd rs1 rs2
  rw [← s.shiftAmount_eq rs2]
  exact ⟨.of_retireX rfl (s.shiftLeft_emod _ _), .of_retireX rfl (s.ushiftRight_emod _ _),
    .of_retireX rfl (s.sshiftRight_emod _ _)⟩

/-! ## Words of RV64 (45_rv64i.md) -/

/-- An instruction that ends in a sign-extended 32-bit result. -/
theorem CompletesX.of_retireW {s : State} {i : Instr} {rd : RegIdx} {w : BitVec 32} {z : Int}
    (hi : exec i s = s.retireW rd w) (hz : w.toInt = z) : CompletesX i s rd z 0#5 :=
  .of_retireX hi (hz ▸ s.sext_emod w s.thirtyTwo_le_bits)

/-- Reducing modulo `2^XLEN` first does not change the low 32 bits. -/
theorem State.bmod_of_emod (s : State) {z : Int} {v : BitVec s.bits} (h : z % s.modulus = v.toNat) :
    (v.setWidth 32).toInt = Int.bmod z (2 ^ 32) := by
  have hdvd : ((2 ^ 32 : Nat) : Int) ∣ s.modulus := by
    unfold State.modulus; push_cast; exact pow_dvd_pow 2 s.thirtyTwo_le_bits
  rw [toInt_setWidth_32, ← h, ← Int.emod_bmod, Int.emod_emod_of_dvd _ hdvd, Int.emod_bmod]

theorem State.low32_toNat (s : State) (i : RegIdx) : ((s.low32 i).toNat : Int) = s.ux i % 2 ^ 32 := by
  rw [State.low32, BitVec.toNat_setWidth]; push_cast; rfl

theorem State.low32_shiftLeft (s : State) (i : RegIdx) (k : Nat) :
    (s.low32 i <<< k).toInt = Int.bmod (s.ux i * 2 ^ k) (2 ^ 32) := by
  rw [BitVec.toInt_eq_toNat_bmod, BitVec.toNat_shiftLeft, Nat.shiftLeft_eq, Int.natCast_emod, Int.emod_bmod]
  push_cast
  rw [s.low32_toNat]
  exact Int.emod_mul_bmod (s.ux i) (2 ^ 32)

theorem State.low32_ushiftRight (s : State) (i : RegIdx) (k : Nat) :
    (s.low32 i >>> k).toInt = Int.bmod (s.ux i % 2 ^ 32 / 2 ^ k) (2 ^ 32) := by
  rw [BitVec.toInt_eq_toNat_bmod, BitVec.toNat_ushiftRight, Nat.shiftRight_eq_div_pow, ← s.low32_toNat]
  push_cast; rfl

theorem State.low32_sshiftRight (s : State) (i : RegIdx) (k : Nat) :
    ((s.low32 i).sshiftRight k).toInt = Int.bmod (s.ux i) (2 ^ 32) / 2 ^ k := by
  rw [BitVec.toInt_sshiftRight, Int.shiftRight_eq_div_pow, State.low32, s.bmod_of_emod (s.ux_emod i)]; push_cast; rfl

/-- Settles O27: 32 bits of the result depend on 32 bits of the operand alone. -/
theorem wordImmediateArithmetic : Obligations.WordImmediateArithmetic := by
  intro s rd rs1 imm shamt h64
  exact ⟨.of_retireW (exec_of_listed rfl h64)
      (s.bmod_of_emod (s.add_emod (s.ux_emod rs1) (s.sext_emod imm s.twelve_le_bits))),
    .of_retireW (exec_of_listed rfl h64) (s.low32_shiftLeft _ _),
    .of_retireW (exec_of_listed rfl h64) (s.low32_ushiftRight _ _),
    .of_retireW (exec_of_listed rfl h64) (s.low32_sshiftRight _ _)⟩

theorem State.shiftAmountW_eq (s : State) (r : RegIdx) : s.shiftAmountW r = (s.readX r).toNat % 32 := by
  simp [State.shiftAmountW, BitVec.extractLsb'_toNat]

/-- Settles O28: as O27, with the amount modulo 32. -/
theorem wordRegisterArithmetic : Obligations.WordRegisterArithmetic := by
  intro s rd rs1 rs2 h64
  rw [← s.shiftAmountW_eq rs2]
  exact ⟨.of_retireW (exec_of_listed rfl h64) (s.bmod_of_emod (s.add_emod (s.ux_emod rs1) (s.ux_emod rs2))),
    .of_retireW (exec_of_listed rfl h64) (s.bmod_of_emod (s.sub_emod _ _)),
    .of_retireW (exec_of_listed rfl h64) (s.low32_shiftLeft _ _),
    .of_retireW (exec_of_listed rfl h64) (s.low32_ushiftRight _ _),
    .of_retireW (exec_of_listed rfl h64) (s.low32_sshiftRight _ _)⟩

end Sys2Proof.Machine

/-! PROOFS. The floating-point instructions: each completes with the result and the flags of its function of the numerics, and
with its frame (46_rvfd_compute.md, 47_rvf_only.md, 48_rvd_only.md). -/

namespace Sys2Proof.Machine

/-! ## How the families complete -/

theorem CompletesF.of_roundedF {s : State} {i : Instr} {rm : RmField} {r : RoundMode} {F : Prec} {fd : RegIdx}
    {op : RoundMode → BitVec F.width × FpFlags} {v : BitVec F.width × FpFlags} (hi : exec i s = s.roundedF i rm F fd op)
    (hwf : i.wellFormed s.launch.variant = true) (hr : s.effectiveRm rm = some r) (hv : op r = v) :
    CompletesF i s F fd v := by
  obtain ⟨t, ht, hwrote⟩ := State.roundedF_completes (op := op) (fd := fd) hwf hr
  exact ⟨t, hi.trans ht, hv ▸ hwrote⟩

theorem CompletesF.of_retireF {s : State} {i : Instr} {F : Prec} {fd : RegIdx} {v : BitVec F.width × FpFlags}
    (hi : exec i s = s.listed i (s.retireF F fd v)) (hwf : i.wellFormed s.launch.variant = true) :
    CompletesF i s F fd v := by
  obtain ⟨t, ht, hwrote⟩ := s.retireF_eq F fd v
  exact ⟨t, (exec_of_listed hi hwf).trans ht, hwrote⟩

/-- A conversion to an integer leaves the sign extension of its 32 bits. -/
theorem CompletesX.of_roundedX {s : State} {i : Instr} {rm : RmField} {r : RoundMode} {rd : RegIdx}
    {op : RoundMode → BitVec 32 × FpFlags} {v : BitVec 32 × FpFlags} (hi : exec i s = s.roundedX i rm rd op)
    (hwf : i.wellFormed s.launch.variant = true) (hr : s.effectiveRm rm = some r) (hv : op r = v) :
    CompletesX i s rd v.1.toInt v.2 := by
  subst hv
  obtain ⟨t, ht, hwrote⟩ := State.roundedX_completes (op := op) (rd := rd) hwf hr
  exact ⟨t, hi.trans ht,
    hwrote.congr ((s.toNat_emod _).trans (s.sext_emod _ s.thirtyTwo_le_bits).symm)⟩

theorem CompletesX.of_compareF {s : State} {i : Instr} {rd : RegIdx} {c : Bool × FpFlags}
    (hi : exec i s = s.compareF i rd c) (hwf : i.wellFormed s.launch.variant = true) :
    CompletesX i s rd (if c.1 = true then 1 else 0) c.2 := by
  obtain ⟨t, ht, hwrote⟩ := s.retireXF_eq rd (s.boolBits c.1) c.2
  exact ⟨t, (exec_of_listed hi hwf).trans ht, hwrote.congr ((s.toNat_emod _).trans (s.boolBits_emod _).symm)⟩

/-! ## Arithmetic -/

/-- Settles O34: each is `State.roundedF` of its function. -/
theorem floatArithmeticComplete : Obligations.FloatArithmeticComplete := by
  intro s fd fs1 fs2 rm r hr
  refine ⟨fun hF => ⟨?_, ?_, ?_, ?_, ?_⟩, fun hD => ⟨?_, ?_, ?_, ?_, ?_⟩⟩
  iterate 5 exact .of_roundedF rfl hF hr rfl
  iterate 5 exact .of_roundedF rfl hD hr rfl

/-- `neg` inverts the sign bit alone. -/
theorem FP.getLsbD_neg (F : Prec) (a : BitVec F.width) {k : Nat} (hk : k < F.width) :
    (FP.neg F a).getLsbD k = if k = F.width - 1 then !a.getLsbD k else a.getLsbD k := by
  rw [FP.neg, BitVec.getLsbD_xor, BitVec.getLsbD_ofNat, Nat.testBit_two_pow]
  by_cases h : k = F.width - 1
  · subst h; simp [hk]
  · simp [h, Ne.symm h]

/-- Settles O33: the launch's convention picks one of the two forms of each negated one. -/
theorem fusedMultiplyAddComplete : Obligations.FusedMultiplyAddComplete := by
  refine ⟨fun s fd fs1 fs2 fs3 rm r hr => ⟨fun hF => ?_, fun hD => ?_⟩, fun F a k => FP.getLsbD_neg F a,
    fun F t => ⟨rfl, fun h => if_pos h, fun h => if_neg (by simp [h])⟩⟩
  · refine ⟨.of_roundedF rfl hF hr rfl, .of_roundedF rfl hF hr rfl, fun hfnm => ⟨?_, ?_⟩, fun hfnm => ⟨?_, ?_⟩⟩
    · exact .of_roundedF rfl hF hr (by rw [State.fnmsub, hfnm])
    · exact .of_roundedF rfl hF hr (by rw [State.fnmadd, hfnm])
    · exact .of_roundedF rfl hF hr (by rw [State.fnmsub, hfnm])
    · exact .of_roundedF rfl hF hr (by rw [State.fnmadd, hfnm])
  · refine ⟨.of_roundedF rfl hD hr rfl, .of_roundedF rfl hD hr rfl, fun hfnm => ⟨?_, ?_⟩, fun hfnm => ⟨?_, ?_⟩⟩
    · exact .of_roundedF rfl hD hr (by rw [State.fnmsub, hfnm])
    · exact .of_roundedF rfl hD hr (by rw [State.fnmadd, hfnm])
    · exact .of_roundedF rfl hD hr (by rw [State.fnmsub, hfnm])
    · exact .of_roundedF rfl hD hr (by rw [State.fnmadd, hfnm])

/-! ## Sign injection -/

/-- Below the sign, a pattern's bits are those of its magnitude. -/
theorem FP.getLsbD_of_lt_sign (F : Prec) (a : BitVec F.width) {k : Nat} (hk : k < F.width - 1) :
    a.getLsbD k = (FP.mag F a).testBit k := by
  simp [FP.mag, Nat.testBit_mod_two_pow, BitVec.getLsbD, hk]

/-- An instruction that replaces the sign of `fs1`. -/
theorem completes_of_withSign {s : State} {i : Instr} {F : Prec} {fd : RegIdx} {a : BitVec F.width} {neg : Bool}
    (hi : exec i s = s.listed i (.next (s.fput F fd (withSign F a neg)).advance))
    (hwf : i.wellFormed s.launch.variant = true) :
    ∃ (t : State) (r : BitVec F.width), exec i s = .next t ∧ WroteF s t fd (s.resultBits F r) 0#5 ∧
      r.getLsbD (F.width - 1) = neg ∧ ∀ k, k < F.width - 1 → r.getLsbD k = a.getLsbD k := by
  refine ⟨_, withSign F a neg, exec_of_listed hi hwf, s.fput_wrote F fd _, FP.sign_pattern F neg (FP.mag_lt F a), ?_⟩
  intro k hk
  rw [FP.getLsbD_of_lt_sign F _ hk, withSign, FP.mag_pattern F neg (FP.mag_lt F a), FP.getLsbD_of_lt_sign F a hk]

/-- Settles O35: each is `withSign`, whose magnitude bits are those of `fs1`. -/
theorem signInjection : Obligations.SignInjection := by
  intro s fd fs1 fs2 F hwf
  cases F with
  | s | d => exact ⟨completes_of_withSign rfl hwf, completes_of_withSign rfl hwf, completes_of_withSign rfl hwf⟩

/-! ## Comparison and classification -/

/-- Settles O37: each comparison is `State.compareF` of its function, and `fclass` writes its mask. -/
theorem compareAndClassifyComplete : Obligations.CompareAndClassifyComplete := by
  intro s rd fs1 fs2
  refine ⟨fun hF => ⟨.of_compareF rfl hF, .of_compareF rfl hF, .of_compareF rfl hF, ?_⟩,
    fun hD => ⟨.of_compareF rfl hD, .of_compareF rfl hD, .of_compareF rfl hD, ?_⟩⟩
  · exact .of_retireX (exec_of_listed rfl hF) (s.zext_emod _)
  · exact .of_retireX (exec_of_listed rfl hD) (s.zext_emod _)

/-! ## Conversions and moves -/

theorem State.low32_eq_ofNat (s : State) (i : RegIdx) : s.low32 i = BitVec.ofNat 32 (s.readX i).toNat :=
  BitVec.eq_of_toNat_eq (by rw [State.low32, BitVec.toNat_setWidth, BitVec.toNat_ofNat])

/-- Settles O39: each is `State.roundedF`, on the low 32 bits. -/
theorem integerToFloatComplete : Obligations.IntegerToFloatComplete := by
  intro s fd rs1 rm r hr
  rw [← s.low32_eq_ofNat]
  exact ⟨fun hF => ⟨.of_roundedF rfl hF hr rfl, .of_roundedF rfl hF hr rfl⟩,
    fun hD => ⟨.of_roundedF rfl hD hr rfl, .of_roundedF rfl hD hr rfl⟩⟩

/-- Settles O40: each is `State.roundedF` of its function. -/
theorem floatToFloatComplete : Obligations.FloatToFloatComplete := fun _ _ _ _ _ hr hD =>
  ⟨.of_roundedF rfl hD hr rfl, .of_roundedF rfl hD hr rfl⟩

/-- Settles O41: 32 bits are sign-extended one way and boxed the other. -/
theorem bitMovesComplete : Obligations.BitMovesComplete := by
  intro s d r hF
  constructor
  · rw [← toInt_setWidth_32]
    exact .of_retireX (exec_of_listed rfl hF) (s.sext_emod _ s.thirtyTwo_le_bits)
  · rw [← State.singleBits_eq hF, ← s.low32_eq_ofNat]
    exact ⟨_, exec_of_listed rfl hF, s.fput_wrote .s d _⟩

/-! ## NaN boxing -/

/-- What a container reads as, by the width of the registers (R182). -/
theorem State.fgetS_eq (s : State) (i : RegIdx) :
    s.fgetS i = if s.launch.variant.hasD = true then unbox32 (s.fpr i) else s.fLow32 i := by
  unfold State.fgetS Variant.hasD
  cases s.launch.variant.fp <;> rfl

theorem unbox32_eq (v : BitVec 64) :
    unbox32 v = if v.toNat / 2 ^ 32 = 2 ^ 32 - 1 then BitVec.ofNat 32 v.toNat else 0x7fc00000#32 := by
  have htop : v.extractLsb' 32 32 = BitVec.allOnes 32 ↔ v.toNat / 2 ^ 32 = 2 ^ 32 - 1 := by
    rw [← BitVec.toNat_inj, BitVec.extractLsb'_toNat, BitVec.toNat_allOnes, Nat.shiftRight_eq_div_pow]
    have := v.isLt
    omega
  have hlow : v.setWidth 32 = BitVec.ofNat 32 v.toNat :=
    BitVec.eq_of_toNat_eq (by rw [BitVec.toNat_setWidth, BitVec.toNat_ofNat])
  rw [unbox32, hlow]
  exact if_congr htop rfl rfl

theorem setWidth_32_append (u v : BitVec 32) : (u ++ v).setWidth 32 = v := by
  ext k hk
  rw [BitVec.getElem_setWidth, BitVec.getLsbD_append, if_pos hk, BitVec.getLsbD_eq_getElem hk]

theorem unbox32_append (v : BitVec 32) : unbox32 (0xffffffff#32 ++ v) = v := by
  rw [unbox32, BitVec.extractLsb'_append_eq_left]
  exact (if_pos rfl).trans (setWidth_32_append _ v)

/-- A single put in a register is the one read there. -/
theorem State.fgetS_fput {s : State} (hF : s.launch.variant.hasF = true) (i : RegIdx) (v : BitVec 32) :
    (s.fput .s i v).fgetS i = v := by
  have hput : (s.fput .s i v).fpr i = s.singleBits v := (s.fput_fpr .s i i v).trans (if_pos rfl)
  have hlaunch : (s.fput .s i v).launch = s.launch := s.fput_launch .s i v
  rw [State.fgetS_eq, State.fLow32, hput, hlaunch, State.singleBits_eq hF]
  split
  · exact unbox32_append v
  · exact setWidth_32_append _ v

/-- Settles O42: by the width of the registers, which decides what boxes and unboxes. -/
theorem nanBoxing : Obligations.NanBoxing := by
  intro s i
  have hput (F : Prec) (v : BitVec F.width) : (s.fput F i v).fpr i = s.resultBits F v := by
    rw [State.fput_fpr, if_pos rfl]
  refine ⟨fun hF v => State.fgetS_fput hF i v, fun F v j hj => by rw [State.fput_fpr, if_neg hj],
    fun hF hD => ⟨fun v => ?_, ?_⟩, fun hD => ⟨fun v => ?_, fun hbox => ?_, fun hbox => ?_, fun v => ⟨hput .d v, rfl⟩, rfl⟩⟩
  · have hbits : s.resultBits .s v = 0#32 ++ v := (State.singleBits_eq hF v).trans (if_neg (by simp [hD]))
    exact ⟨(hput .s v).trans hbits, hbits⟩
  · rw [State.fget, State.fgetS_eq, if_neg (by simp [hD])]
    exact BitVec.eq_of_toNat_eq (by rw [State.fLow32, BitVec.toNat_setWidth, BitVec.toNat_ofNat])
  · have hbits : s.resultBits .s v = 0xffffffff#32 ++ v := (State.singleBits_eq (hasF_of_hasD hD) v).trans (if_pos hD)
    exact ⟨(hput .s v).trans hbits, hbits⟩
  · rw [State.fget, State.fgetS_eq, if_pos hD, unbox32_eq, if_pos hbox]
  · rw [State.fget, State.fgetS_eq, if_pos hD, unbox32_eq, if_neg hbox]

end Sys2Proof.Machine

/-! PROOFS. The numerics: classification, the order of the values and the operations that only choose an operand
(46_rvfd_compute.md R180 items 1, 3, 4, 5 and 7). -/

namespace Sys2Proof.Machine

/-! ## The fields of a pattern -/

theorem FP.width_eq (F : Prec) : F.width - 1 = F.fracBits + F.expBits := by cases F <;> rfl

theorem FP.mag_eq_fields (F : Prec) (a : BitVec F.width) : FP.mag F a = FP.biased F a * 2 ^ F.fracBits + FP.frac F a := by
  rw [FP.biased, FP.frac, Nat.mul_comm, Nat.div_add_mod]

theorem FP.frac_lt (F : Prec) (a : BitVec F.width) : FP.frac F a < 2 ^ F.fracBits := Nat.mod_lt _ (by positivity)

theorem FP.biased_lt (F : Prec) (a : BitVec F.width) : FP.biased F a < 2 ^ F.expBits := by
  rw [FP.biased, Nat.div_lt_iff_lt_mul (by positivity), Nat.mul_comm, ← pow_add, ← FP.width_eq]
  exact FP.mag_lt F a

theorem FP.toNat_exponent (F : Prec) (a : BitVec F.width) :
    (a.extractLsb' F.fracBits F.expBits).toNat = FP.biased F a := by
  rw [BitVec.extractLsb'_toNat, Nat.shiftRight_eq_div_pow, FP.biased, FP.mag, FP.width_eq, pow_add,
    Nat.mod_mul_right_div_self]

theorem FP.toNat_fraction (F : Prec) (a : BitVec F.width) : (a.extractLsb' 0 F.fracBits).toNat = FP.frac F a := by
  rw [BitVec.extractLsb'_toNat, Nat.shiftRight_zero, FP.frac, FP.mag, FP.width_eq, pow_add, Nat.mod_mul_right_mod]

theorem FP.exponent_eq_allOnes {F : Prec} {a : BitVec F.width} :
    a.extractLsb' F.fracBits F.expBits = BitVec.allOnes _ ↔ FP.biased F a = F.maxBiased := by
  rw [← BitVec.toNat_inj, FP.toNat_exponent, BitVec.toNat_allOnes, Prec.maxBiased]

theorem FP.exponent_eq_zero {F : Prec} {a : BitVec F.width} :
    a.extractLsb' F.fracBits F.expBits = 0#_ ↔ FP.biased F a = 0 := by
  rw [← BitVec.toNat_inj, FP.toNat_exponent, BitVec.toNat_zero]

theorem FP.fraction_eq_zero {F : Prec} {a : BitVec F.width} : a.extractLsb' 0 F.fracBits = 0#_ ↔ FP.frac F a = 0 := by
  rw [← BitVec.toNat_inj, FP.toNat_fraction, BitVec.toNat_zero]

/-- The top bit of the fraction says whether the fraction is in its upper half. -/
theorem FP.getLsbD_quiet {F : Prec} {a : BitVec F.width} :
    a.getLsbD (F.fracBits - 1) = false ↔ FP.frac F a < 2 ^ (F.fracBits - 1) := by
  have hpos : 0 < F.fracBits := by cases F <;> decide
  have hbit : a.getLsbD (F.fracBits - 1) = (FP.frac F a).testBit (F.fracBits - 1) := by
    rw [FP.getLsbD_of_lt_sign F a (by rw [FP.width_eq]; omega), FP.frac, Nat.testBit_mod_two_pow,
      decide_eq_true (by omega), Bool.true_and]
  have hlt : FP.frac F a < 2 * 2 ^ (F.fracBits - 1) := by
    rw [← Nat.pow_succ', Nat.succ_eq_add_one, Nat.sub_add_cancel hpos]; exact FP.frac_lt F a
  rw [hbit, Nat.testBit_eq_decide_div_mod_eq, decide_eq_false_iff_not]
  generalize 2 ^ (F.fracBits - 1) = P at hlt ⊢
  constructor
  · intro h
    by_contra hge
    exact h (by rw [show FP.frac F a / P = 1 from Nat.div_eq_of_lt_le (by omega) (by omega)])
  · intro h
    rw [Nat.div_eq_of_lt h]; decide

/-- The exponent field, and whether the fraction is zero, decide the class. -/
theorem FP.biased_cases (F : Prec) (a : BitVec F.width) :
    (FP.biased F a = F.maxBiased ∧ FP.mag F a = F.infMag + FP.frac F a) ∨
      (FP.biased F a < F.maxBiased ∧ FP.mag F a < F.infMag) := by
  have hb := FP.biased_lt F a
  have hf := FP.frac_lt F a
  rw [FP.mag_eq_fields, Prec.infMag]
  rcases Nat.lt_or_ge (FP.biased F a) F.maxBiased with h | h
  · have := Nat.mul_le_mul_right (2 ^ F.fracBits) (Nat.succ_le_of_lt h)
    rw [Nat.succ_mul] at this
    exact .inr ⟨h, by omega⟩
  · have heq : FP.biased F a = F.maxBiased := by unfold Prec.maxBiased at h ⊢; omega
    exact .inl ⟨heq, by rw [heq]⟩

theorem FP.isNaN_iff_fields {F : Prec} {a : BitVec F.width} :
    FP.isNaN F a = true ↔ FP.biased F a = F.maxBiased ∧ FP.frac F a ≠ 0 := by
  rw [FP.isNaN, decide_eq_true_eq]
  rcases FP.biased_cases F a with ⟨hb, hm⟩ | ⟨hb, hm⟩ <;> omega

theorem FP.isInf_iff_fields {F : Prec} {a : BitVec F.width} :
    FP.isInf F a = true ↔ FP.biased F a = F.maxBiased ∧ FP.frac F a = 0 := by
  rw [FP.isInf, decide_eq_true_eq]
  rcases FP.biased_cases F a with ⟨hb, hm⟩ | ⟨hb, hm⟩ <;> omega

theorem FP.isFinite_iff_fields {F : Prec} {a : BitVec F.width} :
    FP.isFinite F a = true ↔ FP.biased F a ≠ F.maxBiased := by
  rw [FP.isFinite, decide_eq_true_eq]
  rcases FP.biased_cases F a with ⟨hb, hm⟩ | ⟨hb, hm⟩ <;> omega

theorem FP.isZero_iff_fields {F : Prec} {a : BitVec F.width} :
    FP.isZero F a = true ↔ FP.biased F a = 0 ∧ FP.frac F a = 0 := by
  rw [FP.isZero, decide_eq_true_eq, FP.mag_eq_fields, Nat.add_eq_zero_iff, Nat.mul_eq_zero]
  simp

theorem FP.isSNaN_iff {F : Prec} {a : BitVec F.width} :
    FP.isSNaN F a = true ↔ FP.isNaN F a = true ∧ FP.frac F a < 2 ^ (F.fracBits - 1) := by
  rw [FP.isSNaN, Bool.and_eq_true, decide_eq_true_eq]

/-! ## Classification -/

/-- The class of a pattern, as the flags that `classify` asks for: a NaN, an infinity, a zero, or another number. -/
theorem FP.class_cases (F : Prec) (a : BitVec F.width) :
    (FP.isNaN F a = true ∧ FP.isInf F a = false ∧ FP.isZero F a = false ∧ FP.isFinite F a = false ∧ FP.biased F a ≠ 0) ∨
      (FP.isSNaN F a = false ∧ FP.isNaN F a = false ∧
        ((FP.isInf F a = true ∧ FP.isZero F a = false ∧ FP.isFinite F a = false ∧ FP.biased F a ≠ 0) ∨
          (FP.isInf F a = false ∧ FP.isZero F a = true ∧ FP.isFinite F a = true ∧ FP.biased F a = 0) ∨
          (FP.isInf F a = false ∧ FP.isZero F a = false ∧ FP.isFinite F a = true))) := by
  have hpos := (FP.infMag_even F).2
  have hmax : F.maxBiased ≠ 0 := by cases F <;> decide
  have hzero : FP.isZero F a = true → FP.biased F a = 0 := fun h => (FP.isZero_iff_fields.1 h).1
  have hsnan : FP.isNaN F a = false → FP.isSNaN F a = false := fun h => by rw [FP.isSNaN, h, Bool.false_and]
  have hspecial := FP.biased_cases F a
  simp only [FP.isNaN, FP.isInf, FP.isZero, FP.isFinite, decide_eq_true_eq, decide_eq_false_iff_not] at hzero hsnan ⊢
  rcases lt_trichotomy (FP.mag F a) F.infMag with h | h | h
  · by_cases h0 : FP.mag F a = 0
    · exact .inr ⟨hsnan (by omega), by omega, .inr (.inl ⟨by omega, h0, h, hzero h0⟩)⟩
    · exact .inr ⟨hsnan (by omega), by omega, .inr (.inr ⟨by omega, h0, h⟩)⟩
  · exact .inr ⟨hsnan (by omega), by omega, .inl (by omega)⟩
  · exact .inl (by omega)

theorem FP.classify_oneHot (F : Prec) (a : BitVec F.width) : ∃ k, k < 10 ∧ FP.classify F a = BitVec.ofNat 10 (2 ^ k) := by
  unfold FP.classify
  simp only
  split_ifs
  · exact ⟨8, by decide, rfl⟩
  · exact ⟨9, by decide, rfl⟩
  · exact ⟨0, by decide, rfl⟩
  · exact ⟨7, by decide, rfl⟩
  · exact ⟨3, by decide, rfl⟩
  · exact ⟨4, by decide, rfl⟩
  · exact ⟨2, by decide, rfl⟩
  · exact ⟨5, by decide, rfl⟩
  · exact ⟨1, by decide, rfl⟩
  · exact ⟨6, by decide, rfl⟩

/-- The classes of patterns, by the bit that `classify` sets (R180 item 7). -/
def FP.InClass (F : Prec) (a : BitVec F.width) : Nat → Prop
  | 0 => FP.sign F a = true ∧ FP.isInf F a = true
  | 1 => FP.sign F a = true ∧ FP.isFinite F a = true ∧ FP.biased F a ≠ 0
  | 2 => FP.sign F a = true ∧ FP.biased F a = 0 ∧ FP.isZero F a = false
  | 3 => FP.sign F a = true ∧ FP.isZero F a = true
  | 4 => ¬ FP.sign F a = true ∧ FP.isZero F a = true
  | 5 => ¬ FP.sign F a = true ∧ FP.biased F a = 0 ∧ FP.isZero F a = false
  | 6 => ¬ FP.sign F a = true ∧ FP.isFinite F a = true ∧ FP.biased F a ≠ 0
  | 7 => ¬ FP.sign F a = true ∧ FP.isInf F a = true
  | 8 => FP.isSNaN F a = true
  | 9 => FP.isNaN F a = true ∧ FP.isSNaN F a = false
  | _ => False

/-- `classify` asks for the classes in turn, and they exclude each other. -/
theorem FP.classify_iff (F : Prec) (a : BitVec F.width) {k : Nat} (hk : k < 10) :
    FP.classify F a = BitVec.ofNat 10 (2 ^ k) ↔ FP.InClass F a k := by
  rcases FP.class_cases F a with ⟨hn, hi, hz, hf, hb⟩ | ⟨hs, hn, ⟨hi, hz, hf, hb⟩ | ⟨hi, hz, hf, hb⟩ | ⟨hi, hz, hf⟩⟩
  · cases hs : FP.isSNaN F a <;> interval_cases k <;> simp [FP.classify, FP.InClass, hs, hn, hi, hz, hf, hb]
  · cases hsign : FP.sign F a <;> interval_cases k <;> simp [FP.classify, FP.InClass, hs, hn, hi, hz, hf, hb, hsign]
  · cases hsign : FP.sign F a <;> interval_cases k <;> simp [FP.classify, FP.InClass, hs, hn, hi, hz, hf, hb, hsign]
  · by_cases hb : FP.biased F a = 0 <;> cases hsign : FP.sign F a <;> interval_cases k <;>
      simp [FP.classify, FP.InClass, hs, hn, hi, hz, hf, hb, hsign]

/-- Settles O55: `FP.classify_iff` for each bit, and the classes by the fields. -/
theorem classifyIsOneHot : Obligations.ClassifyIsOneHot := by
  intro F a neg exponent fraction isClass
  have hnan : FP.isNaN F a = true ↔ exponent = BitVec.allOnes _ ∧ fraction ≠ 0#_ := by
    rw [FP.exponent_eq_allOnes, ne_eq, FP.fraction_eq_zero, FP.isNaN_iff_fields]
  have hclass (k : Nat) (hk : k < 10) := FP.classify_iff F a hk
  refine ⟨FP.classify_oneHot F a, hclass 0 (by decide), hclass 1 (by decide), hclass 2 (by decide), hclass 3 (by decide),
    hclass 4 (by decide), hclass 5 (by decide), hclass 6 (by decide), hclass 7 (by decide), hclass 8 (by decide),
    hclass 9 (by decide), hnan, ?_, ?_, ?_, ?_, (FP.toNat_exponent F a).symm⟩
  · rw [FP.isSNaN_iff, hnan, FP.getLsbD_quiet, and_assoc]
  · rw [FP.exponent_eq_allOnes, FP.fraction_eq_zero, FP.isInf_iff_fields]
  · rw [ne_eq, FP.exponent_eq_allOnes, FP.isFinite_iff_fields]
  · rw [FP.exponent_eq_zero, FP.fraction_eq_zero, FP.isZero_iff_fields]

/-! ## The order of the values -/

/-- The number at a place of the order of the finite patterns: the negative ones below zero, those with the greater magnitude
bits further from it. -/
def FP.keyValue (F : Prec) (z : Int) : ℚ := if z < 0 then -FP.magValue F z.natAbs else FP.magValue F z.natAbs

theorem FP.value_eq_keyValue (F : Prec) (a : BitVec F.width) : FP.value F a = FP.keyValue F (FP.key F a) := by
  rw [FP.value_eq, FP.keyValue, FP.key, signedNat]
  cases FP.sign F a
  · simp
  · rcases Nat.eq_zero_or_pos (FP.mag F a) with h | h <;> simp [h]

theorem FP.keyValue_strictMono (F : Prec) : StrictMono (FP.keyValue F) := by
  intro y z hyz
  have hy := FP.magValue_nonneg F y.natAbs
  have hz := FP.magValue_nonneg F z.natAbs
  have hmono {j k : Nat} (h : j < k) : FP.magValue F j < FP.magValue F k := FP.magValue_strictMono F h
  unfold FP.keyValue
  split <;> split
  · exact neg_lt_neg (hmono (by omega))
  · have hpos := hmono (show 0 < y.natAbs by omega)
    rw [FP.magValue_zero] at hpos
    linarith
  · omega
  · exact hmono (by omega)

theorem FP.value_lt_iff_key {F : Prec} {a b : BitVec F.width} : FP.value F a < FP.value F b ↔ FP.key F a < FP.key F b := by
  rw [FP.value_eq_keyValue, FP.value_eq_keyValue, (FP.keyValue_strictMono F).lt_iff_lt]

/-- Where a pattern that is not a NaN stands. -/
theorem FP.place_cases {F : Prec} {a : BitVec F.width} (ha : FP.isNaN F a = false) :
    (FP.place F a = ⊥ ∧ FP.key F a = -F.infMag) ∨ (FP.place F a = ⊤ ∧ FP.key F a = F.infMag) ∨
      (FP.place F a = ((FP.value F a : WithTop ℚ) : WithBot (WithTop ℚ)) ∧
        -(F.infMag : Int) < FP.key F a ∧ FP.key F a < F.infMag) := by
  rw [FP.isNaN, decide_eq_false_iff_not] at ha
  unfold FP.place FP.key signedNat
  by_cases hinf : FP.isInf F a = true
  · rw [if_pos hinf]
    rw [FP.isInf, decide_eq_true_eq] at hinf
    cases FP.sign F a <;> simp [hinf]
  · rw [if_neg hinf]
    rw [FP.isInf, decide_eq_true_eq] at hinf
    refine .inr (.inr ⟨rfl, ?_⟩)
    split <;> omega

theorem FP.place_lt_iff_key {F : Prec} {a b : BitVec F.width} (ha : FP.isNaN F a = false) (hb : FP.isNaN F b = false) :
    FP.place F a < FP.place F b ↔ FP.key F a < FP.key F b := by
  have hpos : 0 < F.infMag := by have := (FP.infMag_even F).2; omega
  rcases FP.place_cases ha with ⟨hpa, hka⟩ | ⟨hpa, hka⟩ | ⟨hpa, hka⟩ <;>
    rcases FP.place_cases hb with ⟨hpb, hkb⟩ | ⟨hpb, hkb⟩ | ⟨hpb, hkb⟩ <;> rw [hpa, hpb]
  · simp [hka, hkb]
  · simp [hka, hkb]; omega
  · simp [hka, hkb]
  · simp [hka, hkb]
  · simp [hka, hkb]
  · simp [hka]; omega
  · simp [hkb]; omega
  · simp [hkb, hka]; exact WithBot.coe_lt_coe.2 (WithTop.coe_lt_top _)
  · rw [WithBot.coe_lt_coe, WithTop.coe_lt_coe, FP.value_lt_iff_key]

theorem FP.place_le_iff_key {F : Prec} {a b : BitVec F.width} (ha : FP.isNaN F a = false) (hb : FP.isNaN F b = false) :
    FP.place F a ≤ FP.place F b ↔ FP.key F a ≤ FP.key F b := by
  rw [← not_lt, FP.place_lt_iff_key hb ha, not_lt]

theorem FP.place_eq_iff_key {F : Prec} {a b : BitVec F.width} (ha : FP.isNaN F a = false) (hb : FP.isNaN F b = false) :
    FP.place F a = FP.place F b ↔ FP.key F a = FP.key F b := by
  rw [le_antisymm_iff, FP.place_le_iff_key ha hb, FP.place_le_iff_key hb ha, le_antisymm_iff]

/-! ## Comparisons -/

theorem FP.eq_of_numbers {F : Prec} {a b : BitVec F.width} (ha : FP.isNaN F a = false) (hb : FP.isNaN F b = false) :
    FP.eq F a b = (decide (FP.key F a = FP.key F b), flagNone) := by simp [FP.eq, ha, hb]

theorem FP.lt_of_numbers {F : Prec} {a b : BitVec F.width} (ha : FP.isNaN F a = false) (hb : FP.isNaN F b = false) :
    FP.lt F a b = (decide (FP.key F a < FP.key F b), flagNone) := by simp [FP.lt, ha, hb]

theorem FP.le_of_numbers {F : Prec} {a b : BitVec F.width} (ha : FP.isNaN F a = false) (hb : FP.isNaN F b = false) :
    FP.le F a b = (decide (FP.key F a ≤ FP.key F b), flagNone) := by simp [FP.le, ha, hb]

/-- The flag of an operation on a NaN, as the statements write it. -/
theorem flagIf_or (c d : Bool) (fl : FpFlags) : flagIf (c || d) fl = if c = true ∨ d = true then fl else flagNone := by
  cases c <;> cases d <;> rfl

/-- Settles O56: the keys that the comparisons compare are in the order of the places, and of the values. -/
theorem comparisonsOrderValues : Obligations.ComparisonsOrderValues := by
  intro F a b
  refine ⟨fun hnan => ?_, fun ha hb => ?_, fun ha hb => ?_⟩
  · have hnan' : (FP.isNaN F a || FP.isNaN F b) = true := by simpa using hnan
    rw [← flagIf_or]
    exact ⟨if_pos hnan', if_pos hnan', if_pos hnan'⟩
  · rw [FP.eq_of_numbers ha hb, FP.lt_of_numbers ha hb, FP.le_of_numbers ha hb, FP.place_eq_iff_key ha hb,
      FP.place_lt_iff_key ha hb, FP.place_le_iff_key ha hb]
    simp only [decide_eq_true_eq, and_self]
  · rw [FP.eq_of_numbers (FP.isNaN_of_finite ha) (FP.isNaN_of_finite hb),
      FP.lt_of_numbers (FP.isNaN_of_finite ha) (FP.isNaN_of_finite hb),
      FP.le_of_numbers (FP.isNaN_of_finite ha) (FP.isNaN_of_finite hb), FP.value_eq_keyValue, FP.value_eq_keyValue,
      (FP.keyValue_strictMono F).injective.eq_iff, (FP.keyValue_strictMono F).lt_iff_lt,
      (FP.keyValue_strictMono F).le_iff_le]
    simp only [decide_eq_true_eq, and_self]

/-! ## Minimum and maximum -/

/-- The sign of patterns that share a place is that of the pattern picked. -/
theorem FP.Selects.of_numbers {F : Prec} {smaller : Bool} {a b pick : BitVec F.width} {r : BitVec F.width × FpFlags}
    (hflags : r.2 = flagIf (FP.isSNaN F a || FP.isSNaN F b) flagNV)
    (hr : r.1 = if FP.isNaN F a && FP.isNaN F b then F.canonicalNaN else if FP.isNaN F a then b
      else if FP.isNaN F b then a else pick)
    (hpick : pick = if FP.key F a < FP.key F b then (if smaller then a else b)
      else if FP.key F b < FP.key F a then (if smaller then b else a) else if FP.sign F a = smaller then a else b) :
    FP.Selects F smaller a b r := by
  have hnum (ha : FP.isNaN F a = false) (hb : FP.isNaN F b = false) : r.1 = pick := by simp [hr, ha, hb]
  constructor
  · rw [hflags, flagIf_or]
  · intro ha hb; simp [hr, ha, hb]
  · intro ha hb; simp [hr, ha, hb]
  · intro ha hb; simp [hr, ha, hb]
  · intro ha hb
    rw [hnum ha hb, hpick]
    split_ifs <;> simp
  · intro ha hb
    rw [hnum ha hb, hpick]
    rcases lt_trichotomy (FP.key F a) (FP.key F b) with hlt | heq | hgt
    · have hplace := ((FP.place_lt_iff_key ha hb).2 hlt).le
      rw [if_pos hlt]
      cases smaller
      · exact (max_eq_right hplace).symm
      · exact (min_eq_left hplace).symm
    · have hplace := (FP.place_eq_iff_key ha hb).2 heq
      rw [if_neg (by omega), if_neg (by omega), ← hplace, min_self, max_self, ite_self]
      split_ifs
      · rfl
      · exact hplace.symm
    · have hplace := ((FP.place_lt_iff_key hb ha).2 hgt).le
      rw [if_neg (by omega), if_pos hgt]
      cases smaller
      · exact (max_eq_left hplace).symm
      · exact (min_eq_right hplace).symm
  · intro ha hb hplace
    have hkey := (FP.place_eq_iff_key ha hb).1 hplace
    rw [hnum ha hb, hpick, if_neg (by omega), if_neg (by omega)]
    cases smaller <;> cases hs : FP.sign F a <;> simp [hs]

theorem FP.min_selects (F : Prec) (a b : BitVec F.width) : FP.Selects F true a b (FP.min F a b) := by
  refine .of_numbers (pick := if FP.key F a < FP.key F b then a else if FP.key F b < FP.key F a then b
    else if FP.sign F a = true then a else b) ?_ ?_ rfl
  · unfold FP.min; split_ifs <;> rfl
  · unfold FP.min; split_ifs <;> rfl

theorem FP.max_selects (F : Prec) (a b : BitVec F.width) : FP.Selects F false a b (FP.max F a b) := by
  refine .of_numbers (pick := if FP.key F a < FP.key F b then b else if FP.key F b < FP.key F a then a
    else if FP.sign F a = true then b else a) ?_ ?_ (by cases FP.sign F a <;> rfl)
  · unfold FP.max; split_ifs <;> rfl
  · unfold FP.max; split_ifs <;> rfl

/-- Settles O36: `FP.min_selects` and `FP.max_selects` for the results. -/
theorem minMaxComplete : Obligations.MinMaxComplete :=
  ⟨fun _ _ _ _ => ⟨fun hF => ⟨.of_retireF rfl hF, .of_retireF rfl hF⟩, fun hD => ⟨.of_retireF rfl hD, .of_retireF rfl hD⟩⟩,
    fun F a b => ⟨FP.min_selects F a b, FP.max_selects F a b⟩⟩

end Sys2Proof.Machine

/-! PROOFS. The numerics: what is rounded, and how (46_rvfd_compute.md R180 items 2, 3 and 6; R181). -/

namespace Sys2Proof.Machine

/-! ## The greatest finite value -/

theorem FP.maxFinite_lt_next (F : Prec) : (FP.maxFinite F : ℝ) < 2 ^ (F.bias + 1) := by
  rw [← FP.magValue_maxFinite_cast, ← FP.magValue_infMag_cast, FP.magValue_lt]
  have := (FP.infMag_even F).2
  omega

theorem FP.abs_value (F : Prec) (a : BitVec F.width) : |FP.value F a| = FP.magValue F (FP.mag F a) := by
  rw [FP.value_eq, abs_mul, abs_of_nonneg (FP.magValue_nonneg F _)]
  cases FP.sign F a <;> simp

theorem FP.abs_value_le_maxFinite {F : Prec} {a : BitVec F.width} (ha : FP.isFinite F a = true) :
    |FP.value F a| ≤ FP.maxFinite F := by
  rw [FP.isFinite, decide_eq_true_eq] at ha
  rw [FP.abs_value, ← FP.magValue_maxFinite, (FP.magValue_strictMono F).le_iff_le]
  omega

/-- What is not larger than the greatest finite value overflows under no rounding mode. -/
theorem FP.not_overflows_of_le {F : Prec} {x : ℝ} (hx : |x| ≤ FP.maxFinite F) (rm : RoundMode) :
    ¬ FP.Overflows F rm x := by
  have hnext := FP.maxFinite_lt_next F
  obtain ⟨hlo, hhi⟩ := abs_le.1 hx
  unfold FP.Overflows
  cases rm <;> simp only [not_or, not_le, not_lt]
  · linarith
  · linarith
  · exact ⟨by linarith, hlo⟩
  · exact ⟨hhi, by linarith⟩
  · linarith

/-! ## Sums and products -/

/-- A rounding that does not overflow raises no OF, and NX exactly for an inexact result. -/
theorem FP.RoundedOnce.flags_iff {F : Prec} {rm : RoundMode} {x : ℝ} {r : BitVec F.width × FpFlags}
    (h : FP.RoundedOnce F rm x r) : r.2 &&& flagOF = 0#5 ∧ (r.2 &&& flagNX = 0#5 ↔ (FP.value F r.1 : ℝ) = x) := by
  rcases h.flags with ⟨hv, hfl⟩ | ⟨hv, hfl, -⟩ | ⟨hv, hfl, -⟩
  · rw [hfl]; exact ⟨by decide, fun _ => hv, fun _ => by decide⟩
  · rw [hfl]; exact ⟨by decide, fun h => absurd h (by decide), fun h => absurd h hv⟩
  · rw [hfl]; exact ⟨by decide, fun h => absurd h (by decide), fun h => absurd h hv⟩

/-- Settles O59: a sum within the finite range does not overflow, and so is rounded once. -/
theorem sumsAreRoundedInTheirDirection : Obligations.SumsAreRoundedInTheirDirection := by
  intro F rm a b ha hb r exact hle
  have hx : ((exact : ℚ) : ℝ) = FP.value F a + FP.value F b := Rat.cast_add _ _
  have hround : FP.RoundedOnce F rm (exact : ℚ) r := by
    rw [hx]
    exact (FP.add_roundsTo ha hb).2 (FP.not_overflows_of_le (by rw [← hx]; exact_mod_cast hle) rm)
  obtain ⟨hOF, hNX⟩ := hround.flags_iff
  refine ⟨hround.finite, hOF, hNX.trans Rat.cast_inj, fun c hc => ⟨?_, ?_⟩, fun hrm => ?_, fun hrm => ?_, fun hrm => ?_⟩
  · exact_mod_cast hround.noneBelow c hc
  · exact_mod_cast hround.noneAbove c hc
  · exact_mod_cast hround.down hrm
  · exact_mod_cast hround.up hrm
  · exact_mod_cast hround.towardZero hrm

/-- Settles O60: a product that raises no OF has not overflowed, and so is rounded once. -/
theorem productsAreRoundedToNearest : Obligations.ProductsAreRoundedToNearest := by
  intro F rm a b c hrm ha hb hc hOF
  obtain ⟨hover, honce⟩ := FP.mul_roundsTo (rm := rm) ha hb
  have hnot : ¬ FP.Overflows F rm (FP.value F a * FP.value F b) := fun h => by
    rw [(hover h).1] at hOF
    exact absurd hOF (by decide)
  exact_mod_cast (honce hnot).nearest hrm c hc

/-! ## Exact results -/

/-- A number that a finite pattern stands for is rounded to itself, without a flag. -/
theorem FP.RoundsTo.of_value {F : Prec} {rm : RoundMode} {c : BitVec F.width} {r : BitVec F.width × FpFlags} {x : ℝ}
    (hc : FP.isFinite F c = true) (hx : (FP.value F c : ℝ) = x) (h : FP.RoundsTo F rm x r) :
    FP.isFinite F r.1 = true ∧ (FP.value F r.1 : ℝ) = x ∧ r.2 = flagNone := by
  have hle : |x| ≤ FP.maxFinite F := by rw [← hx]; exact_mod_cast FP.abs_value_le_maxFinite hc
  have hround := h.2 (FP.not_overflows_of_le hle rm)
  have hv : (FP.value F r.1 : ℝ) = x := by
    rcases lt_trichotomy (FP.value F r.1 : ℝ) x with hlt | heq | hgt
    · exact absurd ⟨hx ▸ hlt, hx.le⟩ (hround.noneBelow c hc)
    · exact heq
    · exact absurd ⟨hx.ge, hx ▸ hgt⟩ (hround.noneAbove c hc)
  refine ⟨hround.finite, hv, ?_⟩
  rcases hround.flags with ⟨-, hfl⟩ | ⟨hne, -⟩ | ⟨hne, -⟩
  · exact hfl
  · exact absurd hv hne
  · exact absurd hv hne

/-- A significand that fits the format, at an exponent that the format reaches, is the value of magnitude bits. -/
theorem FP.exists_magValue (F : Prec) {m : Nat} {e : Int} (hm : m < 2 * 2 ^ F.fracBits) (he : F.minExp ≤ e)
    (hlt : (m : ℚ) * 2 ^ e < 2 ^ (F.bias + 1)) : ∃ k, k < F.infMag ∧ FP.magValue F k = m * 2 ^ e := by
  have hfinite {k : Nat} (hk : FP.magValue F k = m * 2 ^ e) : ∃ k, k < F.infMag ∧ FP.magValue F k = m * 2 ^ e := by
    refine ⟨k, ?_, hk⟩
    rw [← (FP.magValue_strictMono F).lt_iff_lt, FP.magValue_infMag, hk]
    exact hlt
  rcases Nat.eq_zero_or_pos m with rfl | hpos
  · exact hfinite (k := 0) (by simp)
  · -- shift the significand up until it is normal, or the exponent is the least
    have hlog : m < 2 ^ (Nat.log2 m + 1) := Nat.lt_log2_self
    have hself : 2 ^ Nat.log2 m ≤ m := Nat.log2_self_le hpos.ne'
    have hlogle : Nat.log2 m ≤ F.fracBits := by
      have h : 2 ^ Nat.log2 m < 2 ^ (F.fracBits + 1) := by rw [pow_succ]; omega
      have := (Nat.pow_lt_pow_iff_right (by norm_num : 1 < 2)).1 h
      omega
    obtain ⟨j, hj⟩ : ∃ j, j = Min.min (F.fracBits - Nat.log2 m) (e - F.minExp).toNat := ⟨_, rfl⟩
    obtain ⟨d, hd⟩ : ∃ d : Nat, e = F.minExp + d + j := ⟨(e - F.minExp - j).toNat, by omega⟩
    have hn : m * 2 ^ j ≤ 2 * 2 ^ F.fracBits := by
      calc m * 2 ^ j ≤ 2 ^ (Nat.log2 m + 1) * 2 ^ j := Nat.mul_le_mul_right _ hlog.le
        _ = 2 ^ (Nat.log2 m + 1 + j) := (pow_add ..).symm
        _ ≤ 2 ^ (F.fracBits + 1) := Nat.pow_le_pow_right (by norm_num) (by omega)
        _ = 2 * 2 ^ F.fracBits := Nat.pow_succ'
    have hnormal : m * 2 ^ j < 2 ^ F.fracBits → d = 0 := fun h => by
      have h' : 2 ^ (Nat.log2 m + j) < 2 ^ F.fracBits := by
        rw [pow_add]; exact (Nat.mul_le_mul_right _ hself).trans_lt h
      have := (Nat.pow_lt_pow_iff_right (by norm_num : 1 < 2)).1 h'
      omega
    refine hfinite (k := d * 2 ^ F.fracBits + m * 2 ^ j) ?_
    rw [FP.magValue_eq F d _ hn hnormal, hd, zpow_add₀ two_ne_zero (F.minExp + d) j, zpow_natCast]
    push_cast; ring

/-- A number of either sign that fits the format is the value of a finite pattern. -/
theorem FP.exists_value (F : Prec) (neg : Bool) {m : Nat} {e : Int} (hm : m < 2 * 2 ^ F.fracBits) (he : F.minExp ≤ e)
    (hlt : (m : ℚ) * 2 ^ e < 2 ^ (F.bias + 1)) :
    ∃ c, FP.isFinite F c = true ∧ (FP.value F c : ℝ) = (if neg then -1 else 1) * m * 2 ^ e := by
  obtain ⟨k, hk, hv⟩ := FP.exists_magValue F hm he hlt
  have hwidth := hk.trans (FP.infMag_lt F)
  refine ⟨F.pattern neg k, (FP.isFinite_pattern F neg hwidth).2 hk, ?_⟩
  rw [FP.value_pattern F neg hwidth, hv]
  push_cast
  cases neg <;> simp

/-! ## Conversion to an integer -/

/-- Rounding toward the other end of the order, on the other side of zero. -/
theorem roundTo_neg (rm : RoundMode) (m : Nat) (e q : Int) : roundTo rm true m e q = roundTo (flipMode rm) false m e q := by
  unfold roundTo roundShift
  cases rm <;> rfl

theorem RoundsToInt.neg {rm : RoundMode} {x : ℚ} {z : Int} (hx : 0 ≤ x) (h : RoundsToInt (flipMode rm) x z) :
    RoundsToInt rm (-x) (-z) := by
  have habs : |((-z : Int) : ℚ) - -x| = |(z : ℚ) - x| := by rw [← abs_neg]; congr 1; push_cast; ring
  cases rm with
  | rne =>
    obtain ⟨hhalf, htie⟩ := h
    exact ⟨habs.trans_le hhalf, fun h' => by have := htie (habs ▸ h'); omega⟩
  | rmm =>
    obtain ⟨hhalf, htie⟩ := h
    refine ⟨habs.trans_le hhalf, fun h' => ?_⟩
    rw [Int.cast_neg, abs_neg, abs_neg]
    exact htie (habs ▸ h')
  | rtz =>
    simp only [flipMode, RoundsToInt, if_pos hx] at h
    show -z = if 0 ≤ -x then ⌊-x⌋ else ⌈-x⌉
    rw [Int.ceil_neg, h]
    split
    · obtain rfl : x = 0 := by linarith
      simp
    · rfl
  | rdn => exact (congrArg Neg.neg h).trans Int.floor_neg.symm
  | rup => exact (congrArg Neg.neg h).trans Int.ceil_neg.symm

theorem RoundsUpBetween.lt {rm : RoundMode} {n : Nat} {lo hi x : ℝ} (hlohi : lo < hi)
    (h : RoundsUpBetween rm n lo hi x) : lo < x := by
  cases rm <;> simp only [RoundsUpBetween] at h
  · rcases h with h | ⟨h, -⟩ <;> linarith
  · exact h
  · linarith

/-- The place that `roundTo` takes among the integers is the number rounded. -/
theorem roundsToInt_of_between {rm : RoundMode} {x : ℚ} {n N : Nat} (h0 : (n : ℚ) ≤ x) (h1 : x < n + 1)
    (hN : (N = n ∧ ¬ RoundsUpBetween rm n (n : ℝ) ((n : ℝ) + 1) x) ∨
      (N = n + 1 ∧ RoundsUpBetween rm n (n : ℝ) ((n : ℝ) + 1) x)) : RoundsToInt rm x N := by
  have hx : 0 ≤ x := (Nat.cast_nonneg n).trans h0
  have hfloor : ⌊x⌋ = n := Int.floor_eq_iff.2 ⟨by exact_mod_cast h0, by exact_mod_cast h1⟩
  have hlt : ((n : ℝ) + (n + 1)) / 2 < x ↔ 2 * (n : ℚ) + 1 < 2 * x := by
    rw [← Rat.cast_lt (K := ℝ)]; push_cast; constructor <;> intro h <;> linarith
  have heq : ((n : ℝ) + (n + 1)) / 2 = x ↔ 2 * (n : ℚ) + 1 = 2 * x := by
    rw [← Rat.cast_inj (α := ℝ)]; push_cast; constructor <;> intro h <;> linarith
  have hle : ((n : ℝ) + (n + 1)) / 2 ≤ x ↔ 2 * (n : ℚ) + 1 ≤ 2 * x := by
    rw [← Rat.cast_le (K := ℝ)]; push_cast; constructor <;> intro h <;> linarith
  have hlo : (n : ℝ) < x ↔ (n : ℚ) < x := by rw [← Rat.cast_lt (K := ℝ)]; push_cast; rfl
  have hdown : |((n : Int) : ℚ) - x| = x - n := by
    rw [abs_sub_comm, abs_of_nonneg (by push_cast; linarith)]; push_cast; rfl
  have hup : |(((n + 1 : Nat) : Int) : ℚ) - x| = n + 1 - x := by
    rw [abs_of_nonneg (by push_cast; linarith)]; push_cast; rfl
  cases rm <;> simp only [RoundsUpBetween, hlt, heq, hle, hlo, not_or, not_lt, not_le, not_and] at hN
  case rne =>
    rcases hN with ⟨rfl, hnot, hodd⟩ | ⟨rfl, hyes⟩
    · refine ⟨by rw [hdown]; linarith, fun htie => ?_⟩
      have := hodd (by linarith)
      omega
    · rcases hyes with hyes | ⟨hyes, hodd⟩
      · exact ⟨by rw [hup]; linarith, fun htie => by linarith⟩
      · exact ⟨by rw [hup]; linarith, fun htie => by omega⟩
  case rmm =>
    rcases hN with ⟨rfl, hnot⟩ | ⟨rfl, hyes⟩
    · exact ⟨by rw [hdown]; linarith, fun htie => by linarith⟩
    · refine ⟨by rw [hup]; linarith, fun htie => ?_⟩
      rw [abs_of_nonneg hx]
      exact lt_of_lt_of_le (by push_cast; exact h1) (le_abs_self _)
  case rtz =>
    rcases hN with ⟨rfl, -⟩ | ⟨-, hno⟩
    · exact (hfloor.symm.trans (if_pos hx).symm)
    · exact hno.elim
  case rdn =>
    rcases hN with ⟨rfl, -⟩ | ⟨-, hno⟩
    · exact hfloor.symm
    · exact hno.elim
  case rup =>
    rcases hN with ⟨rfl, hnot⟩ | ⟨rfl, hyes⟩
    · exact (Int.ceil_eq_iff.2 ⟨by push_cast; linarith, by exact_mod_cast hnot⟩).symm
    · exact (Int.ceil_eq_iff.2 ⟨by push_cast; linarith, by push_cast; linarith⟩).symm

/-- What `roundTo` gives among the integers: the number rounded, and whether that changed it. -/
theorem roundTo_nat (rm : RoundMode) (m : Nat) (e : Int) :
    RoundsToInt rm (m * 2 ^ e) (roundTo rm false m e 0).1 ∧
      ((roundTo rm false m e 0).2 = true ↔ ((roundTo rm false m e 0).1 : ℚ) ≠ m * 2 ^ e) := by
  have hx : (((m : ℚ) * 2 ^ e : ℚ) : ℝ) = m * 2 ^ e := by push_cast; rfl
  obtain ⟨n, h0, h1, hinexact, hN⟩ := roundTo_spec (rm := rm) (q := 0) (.inl rfl : StandsFor m e (m * 2 ^ e))
    (fun h => absurd rfl h)
  rw [zpow_zero, mul_one, ← hx] at h0 h1 hinexact hN
  rw [mul_one] at hN
  generalize (roundTo rm false m e 0).1 = N at hN ⊢
  rw [hinexact]
  generalize (m : ℚ) * 2 ^ e = x at *
  have h0' : (n : ℚ) ≤ x := by exact_mod_cast h0
  have h1' : x < n + 1 := by exact_mod_cast h1
  refine ⟨roundsToInt_of_between h0' h1' hN, ?_⟩
  rcases hN with ⟨rfl, -⟩ | ⟨rfl, hup⟩
  · exact not_congr (by exact_mod_cast Iff.rfl)
  · exact iff_of_true (hup.lt (by linarith)).ne (by push_cast; exact h1'.ne')

theorem roundTo_int (rm : RoundMode) (neg : Bool) (m : Nat) (e : Int) :
    RoundsToInt rm ((if neg then -1 else 1) * m * 2 ^ e) (signedNat neg (roundTo rm neg m e 0).1) ∧
      ((roundTo rm neg m e 0).2 = true ↔
        (signedNat neg (roundTo rm neg m e 0).1 : ℚ) ≠ (if neg then -1 else 1) * m * 2 ^ e) := by
  cases neg with
  | false => simpa [signedNat] using roundTo_nat rm m e
  | true =>
    obtain ⟨hround, hinexact⟩ := roundTo_nat (flipMode rm) m e
    rw [roundTo_neg, hinexact]
    refine ⟨?_, not_congr ?_⟩
    · simpa [signedNat] using hround.neg (by positivity)
    · simp [signedNat]

/-- The conversion of a finite number: rounded, and cut to the range. -/
theorem FP.toInt_of_finite {F : Prec} {rm : RoundMode} {signed : Bool} {a : BitVec F.width}
    (ha : FP.isFinite F a = true) :
    let p := roundTo rm (FP.sign F a) (FP.sig F a) (FP.exp F a) 0
    let z := signedNat (FP.sign F a) p.1
    FP.toInt F rm signed a = if intMax signed < z then (BitVec.ofInt 32 (intMax signed), flagNV)
      else if z < intMin signed then (BitVec.ofInt 32 (intMin signed), flagNV)
      else (BitVec.ofInt 32 z, flagIf p.2 flagNX) := by
  intro p z
  rw [FP.toInt, FP.isNaN_of_finite ha, FP.isInf_of_finite ha]
  rfl

theorem FP.toInt_converts (F : Prec) (rm : RoundMode) (signed : Bool) (a : BitVec F.width) :
    FP.Converts F rm signed a (FP.toInt F rm signed a) := by
  have htop : (BitVec.ofInt 32 (intMax signed), flagNV) = (if signed then 0x7fffffff#32 else 0xffffffff#32, flagNV) := by
    cases signed <;> rfl
  have hbottom : (BitVec.ofInt 32 (intMin signed), flagNV) = (if signed then 0x80000000#32 else 0#32, flagNV) := by
    cases signed <;> rfl
  constructor
  · intro hn
    rw [FP.toInt, if_pos hn, htop]
  · intro hi hs
    rw [FP.toInt, if_neg (by simp [FP.isNaN_of_isInf hi]), if_pos hi, if_neg (by simp [hs]), htop]
  · intro hi hs
    rw [FP.toInt, if_neg (by simp [FP.isNaN_of_isInf hi]), if_pos hi, if_pos hs, hbottom]
  · intro ha
    obtain ⟨hround, hinexact⟩ := roundTo_int rm (FP.sign F a) (FP.sig F a) (FP.exp F a)
    have hflags : flagIf (roundTo rm (FP.sign F a) (FP.sig F a) (FP.exp F a) 0).2 flagNX =
        if (signedNat (FP.sign F a) (roundTo rm (FP.sign F a) (FP.sig F a) (FP.exp F a) 0).1 : ℚ) = FP.value F a
          then flagNone else flagNX := by
      rw [flagIf]
      exact (if_congr hinexact rfl rfl).trans (ite_not _ _ _)
    have hmax (z : Int) : intMax signed < z ↔ (if signed = true then 2 ^ 31 else 2 ^ 32) ≤ z := by
      cases signed <;> simp [intMax] <;> omega
    refine ⟨_, hround, ?_⟩
    rw [FP.toInt_of_finite ha, htop, hbottom, hflags]
    exact if_congr (hmax _) rfl rfl

/-- Settles O38: each is `State.roundedX`, and `FP.toInt_converts` says what it gives. -/
theorem floatToIntegerComplete : Obligations.FloatToIntegerComplete :=
  ⟨fun _ _ _ _ _ hr => ⟨fun hF => ⟨.of_roundedX rfl hF hr rfl, .of_roundedX rfl hF hr rfl⟩,
    fun hD => ⟨.of_roundedX rfl hD hr rfl, .of_roundedX rfl hD hr rfl⟩⟩, FP.toInt_converts⟩

end Sys2Proof.Machine

/-! PROOFS. The numerics: conversions between integers and doubles, and the results of the arithmetic (46_rvfd_compute.md R180
items 2, 3 and 6). -/

namespace Sys2Proof.Machine

/-! ## Integers -/

theorem sign_mul_natAbs (i : Int) : (if decide (i < 0) = true then (-1 : ℝ) else 1) * i.natAbs = i := by
  rcases lt_or_ge i 0 with h | h
  · rw [if_pos (decide_eq_true h), neg_one_mul, Nat.cast_natAbs, abs_of_neg h, Int.cast_neg, neg_neg]
  · rw [if_neg (by simpa using h), one_mul, Nat.cast_natAbs, abs_of_nonneg h]

/-- The integer that 32 bits stand for. -/
def intOf (signed : Bool) (v : BitVec 32) : Int := if signed then v.toInt else (v.toNat : Int)

theorem intOf_bounds (signed : Bool) (v : BitVec 32) :
    (if signed then -(2 ^ 31) else 0) ≤ intOf signed v ∧ intOf signed v < (if signed then 2 ^ 31 else 2 ^ 32) := by
  cases signed
  · exact ⟨Int.natCast_nonneg _, Int.ofNat_lt.2 v.isLt⟩
  · exact ⟨BitVec.le_toInt v, BitVec.toInt_lt⟩

theorem ofInt_intOf (signed : Bool) (v : BitVec 32) : BitVec.ofInt 32 (intOf signed v) = v := by
  cases signed
  · exact (BitVec.ofInt_natCast ..).trans ((BitVec.ofNat_toNat ..).trans (BitVec.setWidth_eq v))
  · exact BitVec.ofInt_toInt

theorem FP.fromInt_roundsTo (F : Prec) (rm : RoundMode) (signed : Bool) (v : BitVec 32) :
    FP.RoundsTo F rm (intOf signed v) (FP.fromInt F rm signed v) := by
  have h := roundPack_exact F rm (decide (intOf signed v < 0)) (intOf signed v).natAbs 0
  rwa [sign_mul_natAbs, zpow_zero, mul_one] at h

/-- Every 32-bit integer is a double. -/
theorem FP.fromInt_double (rm : RoundMode) (signed : Bool) (v : BitVec 32) :
    FP.isFinite .d (FP.fromInt .d rm signed v).1 = true ∧
      (FP.value .d (FP.fromInt .d rm signed v).1 : ℝ) = intOf signed v ∧ (FP.fromInt .d rm signed v).2 = flagNone := by
  have hnat : (intOf signed v).natAbs < 2 * 2 ^ 52 := by
    have := intOf_bounds signed v
    cases signed <;> simp only [Bool.false_eq_true, if_false, if_true] at this <;> omega
  have hlt : ((intOf signed v).natAbs : ℚ) * 2 ^ (0 : Int) < 2 ^ (Prec.d.bias + 1) := by
    calc ((intOf signed v).natAbs : ℚ) * 2 ^ (0 : Int) = (intOf signed v).natAbs := by rw [zpow_zero, mul_one]
      _ < 2 * 2 ^ 52 := by exact_mod_cast hnat
      _ = 2 ^ 53 := by norm_num
      _ ≤ 2 ^ (Prec.d.bias + 1) := pow_le_pow_right₀ (by norm_num) (by decide)
  obtain ⟨c, hc, hv⟩ := FP.exists_value .d (decide (intOf signed v < 0)) hnat (by decide) hlt
  rw [zpow_zero, mul_one, sign_mul_natAbs] at hv
  exact (FP.fromInt_roundsTo .d rm signed v).of_value hc hv

theorem RoundsToInt.eq_of_int {rm : RoundMode} {i z : Int} (h : RoundsToInt rm i z) : z = i := by
  have hnear (hhalf : |(z : ℚ) - i| ≤ 1 / 2) : z = i := by
    have hlt : |((z - i : Int) : ℚ)| < 1 := by push_cast; linarith
    have := Int.abs_lt_one_iff.1 (by exact_mod_cast hlt : |z - i| < 1)
    omega
  cases rm with
  | rne => exact hnear h.1
  | rmm => exact hnear h.1
  | rtz => simpa [RoundsToInt] using h
  | rdn => exact h.trans (Int.floor_intCast i)
  | rup => exact h.trans (Int.ceil_intCast i)

/-- Settles O58: the integer is a double, and a double that is an integer rounds to itself. -/
theorem integerDoubleRoundTrip : Obligations.IntegerDoubleRoundTrip := by
  intro rm rm' signed v
  obtain ⟨hfinite, hvalue, hflags⟩ := FP.fromInt_double rm signed v
  refine ⟨hflags, ?_⟩
  have hvalue' : FP.value .d (FP.fromInt .d rm signed v).1 = (intOf signed v : ℚ) := by exact_mod_cast hvalue
  obtain ⟨z, hround, hresult⟩ := (FP.toInt_converts .d rm' signed _).number hfinite
  rw [hvalue'] at hround hresult
  obtain rfl := hround.eq_of_int
  obtain ⟨hlo, hhi⟩ := intOf_bounds signed v
  rw [hresult, if_neg (not_le.2 hhi), if_neg (not_lt.2 hlo), if_pos rfl, ofInt_intOf]
  rfl

/-! ## The arithmetic, case by case -/

/-- The NaN result, as the statements write it. -/
theorem nanResult_eq (F : Prec) (signaling : Bool) :
    nanResult F signaling = if signaling = true then (F.canonicalNaN, flagNV) else (F.canonicalNaN, flagNone) := by
  cases signaling <;> rfl

theorem roundPack_zero (F : Prec) (rm : RoundMode) (neg : Bool) (e : Int) :
    roundPack F rm neg 0 e = (F.zero neg, flagNone) := if_pos rfl

section
variable {F : Prec} {rm : RoundMode} {a b c : BitVec F.width}

theorem FP.sig_of_isZero (h : FP.isZero F a = true) : FP.sig F a = 0 := FP.isZero_iff.1 h

/-! ### Sums -/

theorem FP.add_of_isNaN (h : (FP.isNaN F a || FP.isNaN F b) = true) :
    FP.add F rm a b = nanResult F (FP.isSNaN F a || FP.isSNaN F b) := if_pos h

theorem FP.add_of_isInf (ha : FP.isInf F a = true) (hb : FP.isNaN F b = false) :
    FP.add F rm a b = if (FP.isInf F b && (FP.sign F a != FP.sign F b)) = true then invalid F else (a, flagNone) := by
  simp [FP.add, ha, hb, FP.isNaN_of_isInf ha]

theorem FP.add_of_finite_isInf (ha : FP.isFinite F a = true) (hb : FP.isInf F b = true) :
    FP.add F rm a b = (b, flagNone) := by
  simp [FP.add, hb, FP.isNaN_of_finite ha, FP.isInf_of_finite ha, FP.isNaN_of_isInf hb]

/-- The sign of an exact zero sum (R189). -/
theorem FP.add_of_sum_zero (ha : FP.isFinite F a = true) (hb : FP.isFinite F b = true)
    (h : (FP.value F a : ℝ) + FP.value F b = 0) :
    FP.add F rm a b =
      (F.zero (if FP.sign F a = FP.sign F b then FP.sign F a else decide (rm = .rdn)), flagNone) := by
  rw [FP.value_cast, FP.value_cast] at h
  simp only [FP.add, FP.isNaN_of_finite ha, FP.isNaN_of_finite hb, FP.isInf_of_finite ha, FP.isInf_of_finite hb,
    Bool.or_self, Bool.false_eq_true, if_false]
  exact addExact_of_sum_zero h

/-! ### Products -/

theorem FP.mul_of_isNaN (h : (FP.isNaN F a || FP.isNaN F b) = true) :
    FP.mul F rm a b = nanResult F (FP.isSNaN F a || FP.isSNaN F b) := if_pos h

/-- The product of a zero and an infinity, in either order. -/
abbrev FP.ZeroTimesInf (F : Prec) (a b : BitVec F.width) : Prop :=
  (FP.isZero F a = true ∧ FP.isInf F b = true) ∨ (FP.isInf F a = true ∧ FP.isZero F b = true)

theorem FP.zeroTimesInf_iff :
    ((FP.isZero F a && FP.isInf F b) || (FP.isInf F a && FP.isZero F b)) = true ↔ FP.ZeroTimesInf F a b := by
  rw [Bool.or_eq_true, Bool.and_eq_true, Bool.and_eq_true, FP.ZeroTimesInf]

theorem FP.ZeroTimesInf.isNaN (h : FP.ZeroTimesInf F a b) : FP.isNaN F a = false ∧ FP.isNaN F b = false := by
  rcases h with ⟨hz, hi⟩ | ⟨hi, hz⟩
  · exact ⟨FP.isNaN_of_finite (FP.isFinite_of_isZero hz), FP.isNaN_of_isInf hi⟩
  · exact ⟨FP.isNaN_of_isInf hi, FP.isNaN_of_finite (FP.isFinite_of_isZero hz)⟩

theorem FP.mul_of_zeroTimesInf (h : FP.ZeroTimesInf F a b) : FP.mul F rm a b = invalid F := by
  obtain ⟨ha, hb⟩ := h.isNaN
  rw [FP.mul, ha, hb]
  exact if_pos (FP.zeroTimesInf_iff.2 h)

/-- An infinity times a number that is not zero, in either order. -/
theorem FP.mul_of_isInf (ha : FP.isInf F a = true) (hb : FP.isNaN F b = false) (hz : FP.isZero F b = false) :
    FP.mul F rm a b = (F.infinity (FP.sign F a != FP.sign F b), flagNone) ∧
      FP.mul F rm b a = (F.infinity (FP.sign F a != FP.sign F b), flagNone) := by
  have hcomm : (FP.sign F b != FP.sign F a) = (FP.sign F a != FP.sign F b) := bne_comm
  simp [FP.mul, ha, hb, hz, FP.isNaN_of_isInf ha, FP.isZero_of_isInf ha, hcomm]

theorem FP.mul_of_product_zero (ha : FP.isFinite F a = true) (hb : FP.isFinite F b = true)
    (h : (FP.value F a : ℝ) * FP.value F b = 0) :
    FP.mul F rm a b = (F.zero (FP.sign F a != FP.sign F b), flagNone) := by
  have hsig : FP.sig F a * FP.sig F b = 0 := by
    rw [mul_eq_zero, FP.value_eq_zero, FP.value_eq_zero] at h
    exact Nat.mul_eq_zero.2 h
  simp only [FP.mul, FP.isNaN_of_finite ha, FP.isNaN_of_finite hb, FP.isInf_of_finite ha, FP.isInf_of_finite hb,
    Bool.or_self, Bool.and_false, Bool.false_and, Bool.false_eq_true, if_false, hsig, roundPack_zero]

/-! ### Fused products and sums -/

theorem FP.fma_of_isNaN (h : (FP.isNaN F a || FP.isNaN F b || FP.isNaN F c) = true) :
    FP.fma F rm a b c = nanResult F (FP.isSNaN F a || FP.isSNaN F b || FP.isSNaN F c ||
      ((FP.isZero F a && FP.isInf F b) || (FP.isInf F a && FP.isZero F b))) := if_pos h

theorem FP.fma_of_zeroTimesInf (h : FP.ZeroTimesInf F a b) : FP.fma F rm a b c = invalid F := by
  have hbool := FP.zeroTimesInf_iff.2 h
  obtain ⟨ha, hb⟩ := h.isNaN
  cases hc : FP.isNaN F c
  · rw [FP.fma, ha, hb, hc]
    exact if_pos hbool
  · rw [FP.fma_of_isNaN (by simp [hc]), hbool, Bool.or_true]
    rfl

theorem FP.fma_of_isInf (hab : FP.isInf F a = true ∨ FP.isInf F b = true) (ha : FP.isNaN F a = false)
    (hb : FP.isNaN F b = false) (hc : FP.isNaN F c = false) (hz : ¬ FP.ZeroTimesInf F a b) :
    FP.fma F rm a b c =
      if (FP.isInf F c && (FP.sign F c != (FP.sign F a != FP.sign F b))) = true then invalid F
      else (F.infinity (FP.sign F a != FP.sign F b), flagNone) := by
  have hab' : (FP.isInf F a || FP.isInf F b) = true := by simpa using hab
  rw [← FP.zeroTimesInf_iff] at hz
  simp only [FP.fma, ha, hb, hc, hab', hz, Bool.or_self, Bool.false_eq_true, if_false, if_true]

theorem FP.fma_of_finite_isInf (ha : FP.isFinite F a = true) (hb : FP.isFinite F b = true) (hc : FP.isInf F c = true) :
    FP.fma F rm a b c = (c, flagNone) := by
  simp [FP.fma, FP.isNaN_of_finite ha, FP.isNaN_of_finite hb, FP.isInf_of_finite ha, FP.isInf_of_finite hb, hc,
    FP.isNaN_of_isInf hc]

theorem FP.fma_of_sum_zero (ha : FP.isFinite F a = true) (hb : FP.isFinite F b = true) (hc : FP.isFinite F c = true)
    (h : (FP.value F a : ℝ) * FP.value F b + FP.value F c = 0) :
    FP.fma F rm a b c = (F.zero (if (FP.sign F a != FP.sign F b) = FP.sign F c then (FP.sign F a != FP.sign F b)
      else decide (rm = .rdn)), flagNone) := by
  rw [FP.value_cast, FP.value_cast, FP.value_cast] at h
  simp only [FP.fma, FP.isNaN_of_finite ha, FP.isNaN_of_finite hb, FP.isInf_of_finite ha, FP.isInf_of_finite hb,
    FP.isNaN_of_finite hc, FP.isInf_of_finite hc, Bool.or_self, Bool.and_false, Bool.false_and, Bool.false_eq_true, if_false]
  apply addExact_of_sum_zero
  rw [← h, FP.sign_product, zpow_add₀ two_ne_zero]
  push_cast; ring

/-! ### Quotients -/

theorem FP.div_of_isNaN (h : (FP.isNaN F a || FP.isNaN F b) = true) :
    FP.div F rm a b = nanResult F (FP.isSNaN F a || FP.isSNaN F b) := if_pos h

theorem FP.div_of_isInf (ha : FP.isInf F a = true) (hb : FP.isNaN F b = false) :
    FP.div F rm a b =
      if FP.isInf F b = true then invalid F else (F.infinity (FP.sign F a != FP.sign F b), flagNone) := by
  simp [FP.div, ha, hb, FP.isNaN_of_isInf ha, FP.isZero_of_isInf ha]

theorem FP.div_of_finite_isInf (ha : FP.isFinite F a = true) (hb : FP.isInf F b = true) :
    FP.div F rm a b = (F.zero (FP.sign F a != FP.sign F b), flagNone) := by
  simp [FP.div, hb, FP.isNaN_of_finite ha, FP.isInf_of_finite ha, FP.isNaN_of_isInf hb, FP.isZero_of_isInf hb]

theorem FP.div_by_zero (ha : FP.isFinite F a = true) (hz : FP.isZero F b = true) :
    FP.div F rm a b = if FP.isZero F a = true then invalid F
      else (F.infinity (FP.sign F a != FP.sign F b), flagDZ) := by
  have hb := FP.isFinite_of_isZero hz
  simp [FP.div, hz, FP.isNaN_of_finite ha, FP.isInf_of_finite ha, FP.isNaN_of_finite hb, FP.isInf_of_finite hb]

theorem FP.div_zero_by (hz : FP.isZero F a = true) (hb : FP.isFinite F b = true) (hne : FP.isZero F b = false) :
    FP.div F rm a b = (F.zero (FP.sign F a != FP.sign F b), flagNone) := by
  have ha := FP.isFinite_of_isZero hz
  simp [FP.div, hne, FP.isNaN_of_finite ha, FP.isInf_of_finite ha, FP.isNaN_of_finite hb, FP.isInf_of_finite hb,
    FP.sig_of_isZero hz, withSticky, roundPack_zero]

/-! ### Roots -/

theorem FP.sqrt_of_isNaN (h : FP.isNaN F a = true) : FP.sqrt F rm a = nanResult F (FP.isSNaN F a) := if_pos h

theorem FP.sqrt_of_negative (hs : FP.sign F a = true) (hn : FP.isNaN F a = false) (hz : FP.isZero F a = false) :
    FP.sqrt F rm a = invalid F := by simp [FP.sqrt, hs, hn, hz]

theorem FP.sqrt_of_isZero (hz : FP.isZero F a = true) : FP.sqrt F rm a = (a, flagNone) := by
  simp [FP.sqrt, hz, FP.isNaN_of_finite (FP.isFinite_of_isZero hz)]

theorem FP.sqrt_of_isInf (hi : FP.isInf F a = true) (hs : FP.sign F a = false) : FP.sqrt F rm a = (a, flagNone) := by
  simp [FP.sqrt, hi, hs, FP.isNaN_of_isInf hi, FP.isZero_of_isInf hi]

end

/-! ### Conversions between the precisions -/

theorem roundPack_value (F G : Prec) (rm : RoundMode) (a : BitVec F.width) :
    FP.RoundsTo G rm (FP.value F a) (roundPack G rm (FP.sign F a) (FP.sig F a) (FP.exp F a)) := by
  rw [FP.value_cast]
  exact roundPack_exact ..

theorem FP.narrow_roundsTo {rm : RoundMode} {a : BitVec 64} (ha : FP.isFinite .d a = true) :
    FP.RoundsTo .s rm (FP.value .d a) (FP.narrow rm a) := by
  rw [FP.narrow, FP.isNaN_of_finite ha, FP.isInf_of_finite ha]
  exact roundPack_value .d .s rm a

theorem FP.sig_mul_lt {F : Prec} {a : BitVec F.width} (ha : FP.isFinite F a = true) :
    (FP.sig F a : ℚ) * 2 ^ FP.exp F a < 2 ^ (F.bias + 1) := by
  have habs : |FP.value F a| = FP.sig F a * 2 ^ FP.exp F a := by
    rw [FP.value, mul_assoc, abs_mul, abs_of_nonneg (by positivity : (0 : ℚ) ≤ FP.sig F a * 2 ^ FP.exp F a)]
    cases FP.sign F a <;> simp
  have hmax : FP.maxFinite F < 2 ^ (F.bias + 1) := by exact_mod_cast FP.maxFinite_lt_next F
  rw [← habs]
  exact (FP.abs_value_le_maxFinite ha).trans_lt hmax

/-- Every single is a double. -/
theorem FP.exists_double {b : BitVec Prec.s.width} (hb : FP.isFinite .s b = true) :
    ∃ c, FP.isFinite .d c = true ∧ (FP.value .d c : ℝ) = FP.value .s b := by
  have hsig : FP.sig .s b < 2 * 2 ^ Prec.d.fracBits := (FP.sig_lt .s b).trans (by decide)
  have hexp : Prec.d.minExp ≤ FP.exp .s b := by
    have hmin : Prec.d.minExp ≤ Prec.s.minExp := by decide
    unfold FP.exp
    split <;> omega
  have hlt : (FP.sig .s b : ℚ) * 2 ^ FP.exp .s b < 2 ^ (Prec.d.bias + 1) :=
    (FP.sig_mul_lt hb).trans_le (pow_le_pow_right₀ (by norm_num) (by decide))
  obtain ⟨c, hc, hv⟩ := FP.exists_value .d (FP.sign .s b) hsig hexp hlt
  exact ⟨c, hc, hv.trans (FP.value_cast .s b).symm⟩

theorem FP.widen_value {b : BitVec 32} (hb : FP.isFinite .s b = true) :
    FP.value .d (FP.widen b).1 = FP.value .s b ∧ FP.isFinite .d (FP.widen b).1 = true ∧
      (FP.widen b).2 = flagNone := by
  have hwiden : FP.RoundsTo .d .rtz (FP.value .s b) (FP.widen b) := by
    rw [FP.widen, FP.isNaN_of_finite hb, FP.isInf_of_finite hb]
    exact roundPack_value .s .d .rtz b
  obtain ⟨c, hc, hv⟩ := FP.exists_double hb
  obtain ⟨hfinite, hvalue, hflags⟩ := hwiden.of_value hc hv
  exact ⟨Rat.cast_injective hvalue, hfinite, hflags⟩

theorem FP.narrow_of_isZero {rm : RoundMode} {a : BitVec 64} (hz : FP.isZero .d a = true) :
    FP.narrow rm a = (Prec.zero .s (FP.sign .d a), flagNone) := by
  have ha := FP.isFinite_of_isZero hz
  rw [FP.narrow, FP.isNaN_of_finite ha, FP.isInf_of_finite ha, FP.sig_of_isZero hz]
  exact roundPack_zero .s rm _ (FP.exp .d a)

theorem FP.widen_of_isZero {b : BitVec 32} (hz : FP.isZero .s b = true) :
    FP.widen b = (Prec.zero .d (FP.sign .s b), flagNone) := by
  have hb := FP.isFinite_of_isZero hz
  rw [FP.widen, FP.isNaN_of_finite hb, FP.isInf_of_finite hb, FP.sig_of_isZero hz]
  exact roundPack_zero .d .rtz _ (FP.exp .s b)

theorem FP.narrow_of_isInf {rm : RoundMode} {a : BitVec 64} (hi : FP.isInf .d a = true) :
    FP.narrow rm a = (Prec.infinity .s (FP.sign .d a), flagNone) := by
  rw [FP.narrow, FP.isNaN_of_isInf hi]
  exact if_pos hi

theorem FP.widen_of_isInf {b : BitVec 32} (hi : FP.isInf .s b = true) :
    FP.widen b = (Prec.infinity .d (FP.sign .s b), flagNone) := by
  rw [FP.widen, FP.isNaN_of_isInf hi]
  exact if_pos hi

/-! ## The four parts of the statement on arithmetic -/

theorem FP.arithmetic_of_finite (F : Prec) (rm : RoundMode) (a b c : BitVec F.width) (ha : FP.isFinite F a = true)
    (hb : FP.isFinite F b = true) (hc : FP.isFinite F c = true) :
    let va : ℝ := FP.value F a; let vb : ℝ := FP.value F b; let vc : ℝ := FP.value F c
    let signP := FP.sign F a != FP.sign F b
    let zeroSum := fun n1 n2 : Bool => (F.zero (if n1 = n2 then n1 else decide (rm = .rdn)), flagNone)
    FP.RoundsTo F rm (va + vb) (FP.add F rm a b) ∧
    FP.RoundsTo F rm (va - vb) (FP.sub F rm a b) ∧
    FP.RoundsTo F rm (va * vb) (FP.mul F rm a b) ∧
    FP.RoundsTo F rm (va * vb + vc) (FP.fma F rm a b c) ∧
    (FP.isZero F b = false → FP.RoundsTo F rm (va / vb) (FP.div F rm a b)) ∧
    (FP.isZero F a = true ∨ FP.sign F a = false → FP.RoundsTo F rm √va (FP.sqrt F rm a)) ∧
    (va + vb = 0 → FP.add F rm a b = zeroSum (FP.sign F a) (FP.sign F b)) ∧
    (va - vb = 0 → FP.sub F rm a b = zeroSum (FP.sign F a) (!FP.sign F b)) ∧
    (va * vb + vc = 0 → FP.fma F rm a b c = zeroSum signP (FP.sign F c)) ∧
    (va * vb = 0 → FP.mul F rm a b = (F.zero signP, flagNone)) ∧
    (FP.isZero F a = true → FP.isZero F b = false → FP.div F rm a b = (F.zero signP, flagNone)) ∧
    (FP.isZero F b = true → FP.div F rm a b =
      if FP.isZero F a = true then (F.canonicalNaN, flagNV) else (F.infinity signP, flagDZ)) := by
  intro va vb vc signP zeroSum
  have hb' : FP.isFinite F (FP.neg F b) = true := by rw [FP.isFinite_neg]; exact hb
  have hneg : (FP.value F (FP.neg F b) : ℝ) = -vb := by rw [FP.value_neg, Rat.cast_neg]
  have hsub : va - vb = va + FP.value F (FP.neg F b) := by rw [hneg, sub_eq_add_neg]
  refine ⟨FP.add_roundsTo ha hb, ?_, FP.mul_roundsTo ha hb, FP.fma_roundsTo ha hb hc, FP.div_roundsTo ha hb,
    FP.sqrt_roundsTo ha, FP.add_of_sum_zero ha hb, fun h => ?_, FP.fma_of_sum_zero ha hb hc,
    FP.mul_of_product_zero ha hb, fun hz hne => FP.div_zero_by hz hb hne, FP.div_by_zero ha⟩
  · rw [hsub]; exact FP.add_roundsTo ha hb'
  · rw [FP.sub, FP.add_of_sum_zero ha hb' (hsub.symm.trans h), FP.sign_neg]

theorem FP.conversions (rm : RoundMode) (a : BitVec 64) (b : BitVec 32) :
    (FP.isFinite .d a = true → FP.RoundsTo .s rm (FP.value .d a) (FP.narrow rm a)) ∧
    (FP.isFinite .s b = true → (FP.value .d (FP.widen b).1 = FP.value .s b ∧ FP.isFinite .d (FP.widen b).1 = true ∧
      (FP.widen b).2 = flagNone)) ∧
    (FP.isZero .d a = true → FP.narrow rm a = (Prec.zero .s (FP.sign .d a), flagNone)) ∧
    (FP.isZero .s b = true → FP.widen b = (Prec.zero .d (FP.sign .s b), flagNone)) ∧
    (FP.isInf .d a = true → FP.narrow rm a = (Prec.infinity .s (FP.sign .d a), flagNone)) ∧
    (FP.isInf .s b = true → FP.widen b = (Prec.infinity .d (FP.sign .s b), flagNone)) ∧
    (FP.isNaN .d a = true → FP.narrow rm a = (0x7fc00000#32, if FP.isSNaN .d a = true then flagNV else flagNone)) ∧
    (FP.isNaN .s b = true →
      FP.widen b = (0x7ff8000000000000#64, if FP.isSNaN .s b = true then flagNV else flagNone)) :=
  ⟨FP.narrow_roundsTo, FP.widen_value, FP.narrow_of_isZero, FP.widen_of_isZero, FP.narrow_of_isInf, FP.widen_of_isInf,
    fun h => if_pos h, fun h => if_pos h⟩

/-- An operation that answers `nanResult` on a NaN gives the canonical NaN, with NV for a signaling one. -/
theorem nanResult_of_operands (F : Prec) (a b : BitVec F.width) :
    nanResult F (FP.isSNaN F a || FP.isSNaN F b) =
      if FP.isSNaN F a = true ∨ FP.isSNaN F b = true then (F.canonicalNaN, flagNV) else (F.canonicalNaN, flagNone) := by
  rw [nanResult_eq]
  exact if_congr Bool.or_eq_true_iff rfl rfl

theorem FP.arithmetic_of_nan {F : Prec} {a b : BitVec F.width} (rm : RoundMode)
    (h : FP.isNaN F a = true ∨ FP.isNaN F b = true) : ∀ op ∈ [FP.add, FP.sub, FP.mul, FP.div],
      op F rm a b =
        if FP.isSNaN F a = true ∨ FP.isSNaN F b = true then (F.canonicalNaN, flagNV) else (F.canonicalNaN, flagNone) := by
  have h' : (FP.isNaN F a || FP.isNaN F b) = true := by simpa using h
  have hneg : (FP.isNaN F a || FP.isNaN F (FP.neg F b)) = true := by rw [FP.isNaN_neg]; exact h'
  intro op hop
  rw [← nanResult_of_operands]
  simp only [List.mem_cons, List.not_mem_nil, or_false] at hop
  rcases hop with rfl | rfl | rfl | rfl
  · exact FP.add_of_isNaN h'
  · rw [FP.sub, FP.add_of_isNaN hneg, FP.isSNaN_neg]
  · exact FP.mul_of_isNaN h'
  · exact FP.div_of_isNaN h'

theorem FP.fma_nan_result {F : Prec} {a b c : BitVec F.width} (rm : RoundMode)
    (h : FP.isNaN F a = true ∨ FP.isNaN F b = true ∨ FP.isNaN F c = true) :
    FP.fma F rm a b c =
      if FP.isSNaN F a = true ∨ FP.isSNaN F b = true ∨ FP.isSNaN F c = true ∨ FP.ZeroTimesInf F a b
        then (F.canonicalNaN, flagNV) else (F.canonicalNaN, flagNone) := by
  rw [FP.fma_of_isNaN (by simpa [or_assoc] using h), nanResult_eq]
  refine if_congr ?_ rfl rfl
  rw [Bool.or_eq_true, FP.zeroTimesInf_iff, Bool.or_eq_true, Bool.or_eq_true, or_assoc, or_assoc]

/-- The products and sums of an infinity with a number. -/
theorem FP.fma_inf_result {F : Prec} {a b c : BitVec F.width} (rm : RoundMode) (ha : FP.isInf F a = true)
    (hb : FP.isNaN F b = false) (hz : FP.isZero F b = false) (hc : FP.isNaN F c = false) :
    ∀ p ∈ [FP.fma F rm a b c, FP.fma F rm b a c],
      p = if FP.isInf F c = true ∧ FP.sign F c ≠ (FP.sign F a != FP.sign F b) then (F.canonicalNaN, flagNV)
        else (F.infinity (FP.sign F a != FP.sign F b), flagNone) := by
  have hna := FP.isNaN_of_isInf ha
  have hza := FP.isZero_of_isInf ha
  have hcomm : (FP.sign F b != FP.sign F a) = (FP.sign F a != FP.sign F b) := bne_comm
  have hcond (n : Bool) : (FP.isInf F c && (FP.sign F c != n)) = true ↔ FP.isInf F c = true ∧ FP.sign F c ≠ n := by
    rw [Bool.and_eq_true, bne_iff_ne]
  intro p hp
  simp only [List.mem_cons, List.not_mem_nil, or_false] at hp
  rcases hp with rfl | rfl
  · rw [FP.fma_of_isInf (.inl ha) hna hb hc (by simp [FP.ZeroTimesInf, hz, hza])]
    exact if_congr (hcond _) rfl rfl
  · rw [FP.fma_of_isInf (.inr ha) hb hna hc (by simp [FP.ZeroTimesInf, hz, hza]), hcomm]
    exact if_congr (hcond _) rfl rfl

theorem FP.sub_of_isInf {F : Prec} {rm : RoundMode} {a b : BitVec F.width} (ha : FP.isInf F a = true)
    (hb : FP.isNaN F b = false) :
    FP.sub F rm a b = if FP.isInf F b = true ∧ (FP.sign F a != FP.sign F b) = false then invalid F
      else (a, flagNone) := by
  rw [FP.sub, FP.add_of_isInf ha (by rw [FP.isNaN_neg]; exact hb), FP.isInf_neg, FP.sign_neg]
  exact if_congr (by rw [Bool.and_eq_true, Bool.bne_not, Bool.not_eq_true']) rfl rfl

/-- Settles O57: finite operands are rounded once, and each operation asks for the special operands in turn. -/
theorem arithmeticValues : Obligations.ArithmeticValues := by
  refine ⟨FP.arithmetic_of_finite, FP.conversions, fun F rm signed v => ⟨FP.fromInt_roundsTo F rm signed v, ?_⟩,
    fun F rm a b c => ?_⟩
  · rw [FP.fromInt]
    cases signed <;> exact roundPack_zero ..
  · refine ⟨FP.arithmetic_of_nan rm, FP.fma_nan_result rm,
      fun h => ⟨FP.mul_of_zeroTimesInf h, FP.fma_of_zeroTimesInf h⟩, fun ha hb => ?_, FP.fma_of_finite_isInf,
      fun h => ?_, FP.sqrt_of_negative, fun h => ?_⟩
    · refine ⟨?_, FP.sub_of_isInf ha hb, FP.div_of_isInf ha hb, fun hz => ?_, fun hfinite => ⟨?_, ?_, ?_⟩⟩
      · rw [FP.add_of_isInf ha hb]
        exact if_congr Bool.and_eq_true_iff rfl rfl
      · obtain ⟨hab, hba⟩ := FP.mul_of_isInf (rm := rm) ha hb hz
        exact ⟨hab, hba, FP.fma_inf_result rm ha hb hz⟩
      · exact FP.add_of_finite_isInf hfinite ha
      · exact FP.add_of_finite_isInf hfinite (by rw [FP.isInf_neg]; exact ha)
      · rw [FP.div_of_finite_isInf hfinite ha, bne_comm]
    · rw [FP.sqrt_of_isNaN h, nanResult_eq]
    · rcases h with hz | ⟨hi, hs⟩
      · exact FP.sqrt_of_isZero hz
      · exact FP.sqrt_of_isInf hi hs

end Sys2Proof.Machine
